-- ==== Sys2Proof/Word.lean ====
section
/-! DEFINITION. The word types, the names of the units and instances (00_scope.md rule R2, 10_state.md rule R10), and
the value sets of the mode registers (10_state.md rules R11 and R15). -/

namespace Sys2Proof

/-- A source byte, 8 bits (`BYTE_W`, 00_scope.md rule R5). -/
abbrev Byte := BitVec 8

/-- A 64-bit value, the raw bits of a `u64` or an `i64` (`VAL_W`, 00_scope.md rules R5 and R6). -/
abbrev Word := BitVec 64

/-- The four units a host can command (10_state.md rule R10). -/
inductive UnitId where
  | byte
  | bit
  | v1
  | v2
deriving DecidableEq, Repr, Inhabited

/-- The two separate instances of the byte-RLE decoder: the stand-alone BYTE unit and BIT's private `BIT.B`
(10_state.md rule R10). -/
inductive ByteInst where
  | unit
  | bitB
deriving DecidableEq, Repr, Inhabited

/-- The `mode` register of a byte-RLE decoder (10_state.md rule R11); code 3 is unused and has no name here
(93_implementation_defined.md U11). -/
inductive ByteMode where
  | idle
  | repeatRun
  | literalRun
deriving DecidableEq, Repr, Inhabited

/-- The `mode` register of V1 (10_state.md rule R15); code 3 is unused and has no name here
(93_implementation_defined.md U11). -/
inductive V1Mode where
  | idle
  | deltaRun
  | literalRun
deriving DecidableEq, Repr, Inhabited

end Sys2Proof
end

