-- ==== Sys2Proof/Config.lean ====
section
/-! DEFINITION. What one instance of the block fixes once and for all: the constants and parameters of 00_scope.md rule R5,
the bit-width table of 46_bitwidth_table.md rule R200, and the free values that stand for the registers that
60_exceptions.md rule R214 leaves unspecified after an error (assumption 3). -/

namespace Sys2Proof

/-- Parameter `VARINT_G10_HIGH`: what bits 6 to 1 of a tenth varint group do (41_varint.md rule R104, decision D8). -/
inductive G10High where
  /-- The 64-bit shift drops them: the default. -/
  | discard
  /-- A tenth group with one of them set is a malformed varint. -/
  | fault
deriving DecidableEq, Repr

/-- Parameter `V1_ADD`: what a V1 delta run does when its advance leaves the signed 64-bit range
(44_int_rle_v1.md rule R155, decision D9). -/
inductive V1Add where
  /-- The adder wraps modulo 2^64: the default. -/
  | wrap
  /-- The model has no step for such a call. -/
  | refuse
deriving DecidableEq, Repr

/-- The configuration of one instance of the block: the constant table BWT, read as a 32-entry ROM of 7-bit widths
(10_state.md rule R28, 46_bitwidth_table.md rule R202), and the two open parameters of 00_scope.md rule R5. -/
structure Config where
  bwt     : List (BitVec 7)
  g10High : G10High
  v1Add   : V1Add
deriving DecidableEq, Repr

namespace Config

/-- `RUN_BIAS`: added to a control byte below 128 (00_scope.md rule R5). -/
abbrev runBias : Nat := 3

/-- `VARINT_MAX_GROUPS` (00_scope.md rule R5, 41_varint.md rule R103). -/
abbrev varintMaxGroups : Nat := 10

/-- `QUEUE_DEPTH`, the entries of V2's staging queue (10_state.md rule R22, decision D12). -/
abbrev queueDepth : Nat := 512

/-- `PACKED_MAX`, the largest packed payload in bytes (00_scope.md rule R5, 45_int_rle_v2.md rule R184). -/
abbrev packedMax : Nat := 4096

/-- The bytes of the longest encoding, a Direct run of 512 values of 64 bits (45_int_rle_v2.md rules R184 and R188). -/
abbrev longestEncoding : Nat := 2 + packedMax

/-- The bit-width table indexed by code 0 to 31, the document's values, `7 → 15` among them
(46_bitwidth_table.md rules R200 and R202; 90_conflicts.md C5; assumption 10). -/
def documentTable : List (BitVec 7) :=
  [1, 2, 3, 4, 5, 6, 7, 15, 9, 10, 11, 12, 13, 14, 15, 16] ++
    [17, 18, 19, 20, 21, 22, 23, 24, 26, 28, 30, 32, 40, 48, 56, 64]

/-- The block with every parameter at its default (00_scope.md rule R5; assumption 11). -/
def standard : Config := { bwt := documentTable, g10High := .discard, v1Add := .wrap }

/-- A configuration the hardware can have: 32 entries, each a width from 1 to 64 (46_bitwidth_table.md rule R201). -/
def wf (c : Config) : Bool :=
  c.bwt.length == 32 && c.bwt.all (fun w => decide (1 ≤ w.toNat) && decide (w.toNat ≤ 64))

/-- The unspecified `mode` of a byte-RLE decoder after its `k`-th error (60_exceptions.md rule R214,
93_implementation_defined.md U2; assumption 3). No body: nothing is known of it. -/
opaque freeByteMode : ByteInst → Nat → ByteMode

/-- The unspecified `cnt` of a byte-RLE decoder after an error (60_exceptions.md rule R214). -/
opaque freeByteCnt : ByteInst → Nat → BitVec 8

/-- The unspecified `val` of a byte-RLE decoder after an error (60_exceptions.md rule R214). -/
opaque freeByteVal : ByteInst → Nat → Byte

/-- The unspecified `mode` of V1 after an error (60_exceptions.md rule R214). -/
opaque freeV1Mode : Nat → V1Mode

/-- The unspecified `cnt` of V1 after an error (60_exceptions.md rule R214). -/
opaque freeV1Cnt : Nat → BitVec 8

/-- The unspecified `val` of V1 after an error (60_exceptions.md rule R214). -/
opaque freeV1Val : Nat → Word

/-- The unspecified `delta` of V1 after an error (60_exceptions.md rule R214). -/
opaque freeV1Delta : Nat → Byte

end Config

end Sys2Proof
end

