-- ==== Sys2Proof/Syntax.lean ====
section
/-! DEFINITION. The encodings as syntax: who reads a leading byte (30_encoding.md rule R87), the instructions, one
constructor per row of the opcode map (30_encoding.md rule R83), and the lines of the stream notation
(30_encoding.md rule R88). -/

namespace Sys2Proof

/-- The reader of a byte, the "read by" column of the opcode map: the same 256 byte values mean different things to
different readers (30_encoding.md rules R83 and R87). -/
inductive Reader where
  /-- A byte-RLE decoder that is idle, reading a control byte (format F-BCTL, rule R71). -/
  | byteRle (who : ByteInst)
  /-- BIT with no byte loaded, reading a DECODED byte of `BIT.B` (format F-BITS, rule R76). -/
  | bit
  /-- V1 that is idle, reading a control byte (format F-V1CTL, rule R72). -/
  | v1
  /-- V2 with an empty queue, reading a header byte (format F-V2HDR, rule R73). -/
  | v2
  /-- VARINT, invoked by V1, reading a group byte (format F-VARINT, rule R75). -/
  | varint
deriving DecidableEq, Repr

/-- The instructions: one constructor per row of the opcode map (30_encoding.md rule R83). The arguments are the fields of
the leading byte; the operand bytes that follow it are read when the instruction is carried out, since an operand may be
missing (20_memory.md rule R45). The byte-RLE rows also name the instance that read them. -/
inductive Instr where
  /-- `BYTE.REPEAT`, `0nnnnnnn` (42_byte_rle.md rule R122). -/
  | byteRepeat (who : ByteInst) (n : BitVec 7)
  /-- `BYTE.LITERAL`, `1nnnnnnn` (42_byte_rle.md rules R123 and R124). -/
  | byteLiteral (who : ByteInst) (n : BitVec 7)
  /-- `BIT.UNPACK`, `abcdefgh`, a decoded byte (43_bit_unpack.md rule R141). -/
  | bitUnpack (b : Byte)
  /-- `V1.DELTA`, `0nnnnnnn` (44_int_rle_v1.md rule R152). -/
  | v1Delta (n : BitVec 7)
  /-- `V1.LITERAL`, `1nnnnnnn` (44_int_rle_v1.md rules R153 and R154). -/
  | v1Literal (n : BitVec 7)
  /-- `V2.SHORT_REPEAT`, `00xxxxxx` (45_int_rle_v2.md rule R173). -/
  | v2ShortRepeat (x : BitVec 6)
  /-- `V2.DIRECT`, `01wwwwwl` (45_int_rle_v2.md rules R177 to R181). -/
  | v2Direct (w : BitVec 5) (l8 : BitVec 1)
  /-- `V2.PATCHED_BASE`, `10xxxxxx` (45_int_rle_v2.md rule R174). -/
  | v2PatchedBase (x : BitVec 6)
  /-- `V2.DELTA`, `11xxxxxx` (45_int_rle_v2.md rule R175). -/
  | v2Delta (x : BitVec 6)
  /-- `VARINT.CONT`, `1ddddddd` (41_varint.md rule R102). -/
  | varintCont (d : BitVec 7)
  /-- `VARINT.LAST`, `0ddddddd` (41_varint.md rule R101). -/
  | varintLast (d : BitVec 7)
deriving DecidableEq, Repr

/-- Who reads an instruction (30_encoding.md rule R83). -/
def Instr.reader : Instr → Reader
  | .byteRepeat who _ => .byteRle who
  | .byteLiteral who _ => .byteRle who
  | .bitUnpack _ => .bit
  | .v1Delta _ => .v1
  | .v1Literal _ => .v1
  | .v2ShortRepeat _ => .v2
  | .v2Direct _ _ => .v2
  | .v2PatchedBase _ => .v2
  | .v2Delta _ => .v2
  | .varintCont _ => .varint
  | .varintLast _ => .varint

/-- The mnemonic of an instruction's row, letter for letter (30_encoding.md rule R83). -/
def Instr.mnemonic : Instr → String
  | .byteRepeat _ _ => "BYTE.REPEAT"
  | .byteLiteral _ _ => "BYTE.LITERAL"
  | .bitUnpack _ => "BIT.UNPACK"
  | .v1Delta _ => "V1.DELTA"
  | .v1Literal _ => "V1.LITERAL"
  | .v2ShortRepeat _ => "V2.SHORT_REPEAT"
  | .v2Direct _ _ => "V2.DIRECT"
  | .v2PatchedBase _ => "V2.PATCHED_BASE"
  | .v2Delta _ => "V2.DELTA"
  | .varintCont _ => "VARINT.CONT"
  | .varintLast _ => "VARINT.LAST"

/-- One line of a byte-RLE stream in the notation of 30_encoding.md rule R88. -/
inductive ByteLine where
  /-- `B.REP n, v`. -/
  | rep (n : Nat) (v : Byte)
  /-- `B.LIT b1, ..., bk`. -/
  | lit (bs : List Byte)
deriving DecidableEq, Repr

/-- One line of a V1 stream in the notation of 30_encoding.md rule R88. -/
inductive V1Line where
  /-- `V1.DELTA n, d, base`. -/
  | delta (n : Nat) (d : Int) (base : Word)
  /-- `V1.LIT v1, ..., vk`. -/
  | lit (vs : List Word)
deriving DecidableEq, Repr

/-- One line of a V2 stream in the notation of 30_encoding.md rule R88. -/
inductive V2Line where
  /-- `V2.DIRECT w; v1, ..., vL`. -/
  | direct (w : BitVec 5) (vs : List Word)
  /-- `V2.SREP x`, the header byte alone. -/
  | shortRepeat (x : BitVec 6)
  /-- `V2.PATCHED x`, the header byte alone. -/
  | patched (x : BitVec 6)
  /-- `V2.DELTA x`, the header byte alone. -/
  | delta (x : BitVec 6)
deriving DecidableEq, Repr

end Sys2Proof
end

