-- ==== Sys2Proof/WellFormed.lean ====
section
/-! DEFINITION. Which terms of the syntax are legal: every field value of every leading byte is (30_encoding.md rule R84),
and a line of the notation is within the limits of 30_encoding.md rule R88. -/

namespace Sys2Proof

/-- Every instruction term is well formed: the field types have exactly the widths of the formats, and no field value is
illegal as an encoding, "every width code 0 to 31 has a table entry and every 9-bit length is legal"
(30_encoding.md rule R84; the tags V2 does not decode are legal encodings that raise, rule R84 (c)). -/
def Instr.wellFormed : Instr → Bool
  | .byteRepeat _ _ => true
  | .byteLiteral _ _ => true
  | .bitUnpack _ => true
  | .v1Delta _ => true
  | .v1Literal _ => true
  | .v2ShortRepeat _ => true
  | .v2Direct _ _ => true
  | .v2PatchedBase _ => true
  | .v2Delta _ => true
  | .varintCont _ => true
  | .varintLast _ => true

/-- The limits of a byte-RLE line: `3 ≤ n ≤ 130`, `0 ≤ k ≤ 127` (30_encoding.md rule R88). -/
def ByteLine.wellFormed : ByteLine → Bool
  | .rep n _ => decide (3 ≤ n) && decide (n ≤ 130)
  | .lit bs => decide (bs.length ≤ 127)

/-- The limits of a V1 line: `3 ≤ n ≤ 130`, `−128 ≤ d ≤ 127`, `0 ≤ k ≤ 127` (30_encoding.md rule R88). -/
def V1Line.wellFormed : V1Line → Bool
  | .delta n d _ => decide (3 ≤ n) && decide (n ≤ 130) && decide (-128 ≤ d) && decide (d ≤ 127)
  | .lit vs => decide (vs.length ≤ 127)

/-- The limits of a V2 line under the table `t`: `1 ≤ L ≤ 512` and each value below `2^BWT[w]`
(30_encoding.md rule R88). -/
def V2Line.wellFormed (t : List (BitVec 7)) : V2Line → Bool
  | .direct w vs =>
    decide (1 ≤ vs.length) && decide (vs.length ≤ 512) &&
      vs.all (fun v => decide (v.toNat < 2 ^ (t.getD w.toNat 0).toNat))
  | .shortRepeat _ => true
  | .patched _ => true
  | .delta _ => true

end Sys2Proof
end

