-- ==== Sys2Proof/Decode.lean ====
section
/-! DEFINITION. Decoding a leading byte, total on any bytes (30_encoding.md rules R83 and R84), the encoder written from the
same map, the words of the opcode table, and the assembler of the stream lines (30_encoding.md rules R88 and R89). -/

namespace Sys2Proof

/-- Why a byte list holds no instruction. Every byte value is a legal leading byte for every reader
(30_encoding.md rules R83 and R84), so the one reason is that there is no byte. -/
inductive DecodeError where
  | noByte
deriving DecidableEq, Repr

/-- The instruction a reader takes a leading byte for (30_encoding.md rule R83). BYTE and V1 split on bit 7, V2 on bits
7 to 6, a varint group on bit 7; every decoded byte is BIT's one encoding. -/
def decodeLead (r : Reader) (b : Byte) : Instr :=
  match r with
  | .byteRle who =>
    match b[7] with
    | false => .byteRepeat who (b.extractLsb' 0 7)
    | true => .byteLiteral who (b.extractLsb' 0 7)
  | .bit => .bitUnpack b
  | .v1 =>
    match b[7] with
    | false => .v1Delta (b.extractLsb' 0 7)
    | true => .v1Literal (b.extractLsb' 0 7)
  | .v2 =>
    match b[7], b[6] with
    | false, false => .v2ShortRepeat (b.extractLsb' 0 6)
    | false, true => .v2Direct (b.extractLsb' 1 5) (b.extractLsb' 0 1)
    | true, false => .v2PatchedBase (b.extractLsb' 0 6)
    | true, true => .v2Delta (b.extractLsb' 0 6)
  | .varint =>
    match b[7] with
    | false => .varintLast (b.extractLsb' 0 7)
    | true => .varintCont (b.extractLsb' 0 7)

/-- Decoding: the instruction of the first byte, and the bytes that follow it (30_encoding.md rule R70). -/
def decode (r : Reader) : List Byte → Except DecodeError (Instr × List Byte)
  | [] => .error .noByte
  | c :: rest => .ok (decodeLead r c, rest)

/-- The leading byte of an instruction, field by field, most significant part first (30_encoding.md rules R71 to R76). -/
def encodeLead : Instr → Byte
  | .byteRepeat _ n => 0#1 ++ n
  | .byteLiteral _ n => 1#1 ++ n
  | .bitUnpack b => b
  | .v1Delta n => 0#1 ++ n
  | .v1Literal n => 1#1 ++ n
  | .v2ShortRepeat x => 0b00#2 ++ x
  | .v2Direct w l8 => 0b01#2 ++ w ++ l8
  | .v2PatchedBase x => 0b10#2 ++ x
  | .v2Delta x => 0b11#2 ++ x
  | .varintCont d => 1#1 ++ d
  | .varintLast d => 0#1 ++ d

/-- The bytes of an instruction: its one leading byte, "always exactly one byte" (30_encoding.md rule R70). -/
def encode (i : Instr) : List Byte := [encodeLead i]

/-- One row of the opcode map: the byte pattern as a mask and the value under it (30_encoding.md rule R83). -/
structure OpcodeRow where
  mnemonic : String
  mask     : Byte
  pattern  : Byte
deriving DecidableEq, Repr

/-- A byte fits a row when its fixed bits have the row's values. -/
def OpcodeRow.fits (row : OpcodeRow) (c : Byte) : Bool := c &&& row.mask == row.pattern

/-- The rows of the opcode map one reader uses (30_encoding.md rule R83). -/
def opcodeRows : Reader → List OpcodeRow
  | .byteRle _ => [⟨"BYTE.REPEAT", 0x80, 0x00⟩, ⟨"BYTE.LITERAL", 0x80, 0x80⟩]
  | .bit => [⟨"BIT.UNPACK", 0x00, 0x00⟩]
  | .v1 => [⟨"V1.DELTA", 0x80, 0x00⟩, ⟨"V1.LITERAL", 0x80, 0x80⟩]
  | .v2 =>
    [⟨"V2.SHORT_REPEAT", 0xC0, 0x00⟩, ⟨"V2.DIRECT", 0xC0, 0x40⟩, ⟨"V2.PATCHED_BASE", 0xC0, 0x80⟩,
      ⟨"V2.DELTA", 0xC0, 0xC0⟩]
  | .varint => [⟨"VARINT.CONT", 0x80, 0x80⟩, ⟨"VARINT.LAST", 0x80, 0x00⟩]

/-- The bytes of a table word of `n` bytes: bits 7 to 0 are the first byte, bits 15 to 8 the second, and so on. -/
def wordBytes : Nat → Nat → List Byte
  | 0, _ => []
  | n + 1, w => BitVec.ofNat 8 w :: wordBytes n (w / 256)

/-- The bytes of a table word: its own bytes, at least one. Every byte after them is zero, up to the longest encoding; they
stand in a source as unlisted positions (`State.withFetch`). -/
def tableWordBytes (nbits w : Nat) : List Byte := wordBytes (max 1 ((nbits + 7) / 8)) (w % 2 ^ nbits)

/-- The reader that the table words are given to: V2, the one whose map tells four rows apart (assumption 2). -/
abbrev tableReader : Reader := .v2

/-- The instruction a reader takes a table word for. -/
def decodeTableWordFor (r : Reader) (nbits w : Nat) : Option Instr :=
  match decode r (tableWordBytes nbits w) with
  | .ok (i, _) => some i
  | .error _ => none

/-- The instruction read from a table word. The same byte means different things to different units
(30_encoding.md rule R87) and a table word does not say which unit reads it: V2's map is used (assumption 2); the other
maps are `decodeTableWordFor`. -/
def decodeTableWord (nbits w : Nat) : Option Instr := decodeTableWordFor tableReader nbits w

/-- `VARINT(v)` with at most `fuel + 1` groups: the last group alone when nothing is left above it, else a group with its
continuation flag set (30_encoding.md rule R89). -/
def varintBytesFrom : Nat → Word → List Byte
  | 0, v => [encodeLead (.varintLast (v.extractLsb' 0 7))]
  | fuel + 1, v =>
    if v >>> 7 = 0 then [encodeLead (.varintLast (v.extractLsb' 0 7))]
    else encodeLead (.varintCont (v.extractLsb' 0 7)) :: varintBytesFrom fuel (v >>> 7)

/-- `VARINT(v)`, the shortest varint of a `u64`, 1 to 10 bytes (30_encoding.md rule R89). -/
def varintBytes (v : Word) : List Byte := varintBytesFrom 9 v

/-- Bit `k` of the payload of the values `vs` at width `W`: bit `W − 1 − (k mod W)` of value number `k div W`, and zero in
the padding (20_memory.md rule R50, 30_encoding.md rule R89). -/
def packBit (W : Nat) (vs : List Word) (k : Nat) : Bool :=
  decide (k < W * vs.length) && (vs.getD (k / W) 0).getLsbD (W - 1 - k % W)

/-- Byte number `m` of a payload: its payload bits `8m` to `8m + 7`, bit 7 first (20_memory.md rule R50). -/
def packByte (W : Nat) (vs : List Word) (m : Nat) : Byte :=
  BitVec.ofBoolListBE ((List.range 8).map fun j => packBit W vs (8 * m + j))

/-- `PACK(W; vs)`: the fields of the values back to back, then zero bits to the next byte boundary
(30_encoding.md rule R89). -/
def packBytes (W : Nat) (vs : List Word) : List Byte :=
  (List.range ((W * vs.length + 7) / 8)).map (packByte W vs)

/-- The bytes of a byte-RLE line (30_encoding.md rule R88). -/
def ByteLine.bytes : ByteLine → List Byte
  | .rep n v => [BitVec.ofNat 8 (n - 3), v]
  | .lit bs => BitVec.ofNat 8 (128 + bs.length) :: bs

/-- The bytes of a V1 line (30_encoding.md rule R88). -/
def V1Line.bytes : V1Line → List Byte
  | .delta n d base => BitVec.ofNat 8 (n - 3) :: BitVec.ofInt 8 d :: varintBytes base
  | .lit vs => BitVec.ofNat 8 (128 + vs.length) :: vs.flatMap varintBytes

/-- The bytes of a V2 line under the table `t` (30_encoding.md rule R88). -/
def V2Line.bytes (t : List (BitVec 7)) : V2Line → List Byte
  | .direct w vs =>
    BitVec.ofNat 8 (0x40 + 2 * w.toNat + ((vs.length - 1) >>> 8)) ::
      BitVec.ofNat 8 ((vs.length - 1) % 256) :: packBytes (t.getD w.toNat 0).toNat vs
  | .shortRepeat x => [BitVec.ofNat 8 (0x00 + x.toNat)]
  | .patched x => [BitVec.ofNat 8 (0x80 + x.toNat)]
  | .delta x => [BitVec.ofNat 8 (0xC0 + x.toNat)]

/-- The values a byte-RLE line stands for (42_byte_rle.md rule R131). -/
def ByteLine.values : ByteLine → List Byte
  | .rep n v => List.replicate n v
  | .lit bs => bs

/-- The values a V1 line stands for: `base + j × d` modulo 2^64 for a delta run (44_int_rle_v1.md rule R155), the listed
values for a literal run. -/
def V1Line.values : V1Line → List Word
  | .delta n d base => (List.range n).map fun j => base + BitVec.ofInt 64 (j * d)
  | .lit vs => vs

end Sys2Proof
end

