-- ==== Sys2Proof/Machine/State.lean ====
section
/-! DEFINITION. The state of the block as plain data: the four units with their registers, fault latches, sources and
response ports (10_state.md), the configuration, and the host's pending commands; the reasons a step can stop; the state
after reset (10_state.md rule R34). -/

namespace Sys2Proof.Machine

/-- The bytes of a source by position, as a list of (position, byte) pairs in one canonical form: positions strictly
rising, no pair equal to what an unlisted position reads as (`Memory.wf`). -/
abbrev Memory := List Host.Cell

/-- A source `S` (20_memory.md rules R40 and R41): its bytes at positions 0 to `len − 1`, its position (the "program
counter" of its unit, 10_state.md rule R26), and its failure position, if it has one. -/
structure Source where
  mem  : Memory
  len  : Nat
  pos  : Nat
  fail : Option Nat
deriving DecidableEq, Repr

/-- The four error kinds (60_exceptions.md rule R211). -/
inductive ErrKind where
  | ioFailure
  | truncation
  | unsupportedEncoding
  | malformedVarint
deriving DecidableEq, Repr

/-- The fault latch of a unit (10_state.md rule R18): `fault` is the kind of the first call that raised, or `none` for the
code `NONE`; `finfo` is what the error recorded. -/
structure Latch where
  fault : Option ErrKind
  finfo : Byte
deriving DecidableEq, Repr

/-- The outcome of a `NEXT` call: a value, the clean end of the stream, or a typed error
(10_state.md rule R31, 60_exceptions.md rule R210). -/
inductive Result (α : Type) where
  | value (v : α)
  | eos
  | err (kind : ErrKind) (info : Byte)
deriving DecidableEq, Repr

/-- A byte-RLE decoder, the BYTE unit or `BIT.B` (10_state.md rules R11 and R18), with its source and its response port:
the outcome of its last `NEXT`, none before the first one (assumption 9). `fresh` counts the free values it has taken
(assumption 3); it is the model's own field. -/
structure ByteDec where
  mode  : ByteMode
  cnt   : BitVec 8
  val   : Byte
  latch : Latch
  src   : Source
  port  : Option (Result Byte)
  fresh : Nat
deriving DecidableEq, Repr

/-- The BIT unit (10_state.md rules R10 and R13): its private byte-RLE decoder, the loaded byte and the count of its bits
still to deliver. -/
structure BitUnit where
  b     : ByteDec
  cur   : Byte
  nbits : BitVec 4
  port  : Option (Result Bool)
deriving DecidableEq, Repr

/-- What an invocation of VARINT returns (41_varint.md rule R100). -/
inductive VarintResult where
  | value (u : Word)
  | eos
  | err (kind : ErrKind)
deriving DecidableEq, Repr

/-- The registers of an invocation of VARINT (10_state.md rule R24): the accumulator, the shift cursor, and the model's
place for what the invocation returns (assumption 5). -/
structure VarintRegs where
  acc   : Word
  shift : BitVec 7
  ret   : VarintResult
deriving DecidableEq, Repr

/-- The start of an invocation: "`acc = 0`, `shift = 0`" (10_state.md rule R24), and nothing read, which is what the end of
input answers at the first group (41_varint.md rule R106). -/
def VarintRegs.start : VarintRegs := { acc := 0, shift := 0, ret := .eos }

/-- The V1 unit (10_state.md rules R15 and R18); `val` and `delta` are raw bits. -/
structure V1Unit where
  mode  : V1Mode
  cnt   : BitVec 8
  val   : Word
  delta : Byte
  latch : Latch
  src   : Source
  vi    : VarintRegs
  port  : Option (Result Word)
  fresh : Nat
deriving DecidableEq, Repr

/-- The V2 unit (10_state.md rules R17, R18, R22 and R25): the staging queue of 512 entries with its two pointers, and the
packed buffer of a Direct run, empty between calls (assumption 6). -/
structure V2Unit where
  q      : List Word
  qhead  : BitVec 10
  qcount : BitVec 10
  buf    : List Byte
  latch  : Latch
  src    : Source
  port   : Option (Result Word)
deriving DecidableEq, Repr

/-- The two host commands (10_state.md rule R30). `RESET` carries the source it binds: its bytes and its failure position
(70_reset_and_hazards.md rule R240). -/
inductive Command where
  | next (u : UnitId)
  | reset (u : UnitId) (bytes : List Byte) (fail : Option Nat)
deriving DecidableEq, Repr

/-- The whole state: "the tuple (BYTE, BIT with BIT.B, V1, V2) of unit states together with the four source positions"
(10_state.md rule R10), the configuration (a parameter no step changes, rule R29), and the commands the host has still to
issue, oldest first (60_exceptions.md rule R224; assumption 1). -/
structure State where
  cfg  : Config
  byte : ByteDec
  bit  : BitUnit
  v1   : V1Unit
  v2   : V2Unit
  cmds : List Command
deriving DecidableEq, Repr

/-- The reasons the machine stops with a fault. The four error kinds of the spec are not here: they are outcomes of a call,
latched in the state (60_exceptions.md rule R214). -/
inductive Fault where
  /-- Raised by delivery in delta-run mode, only under `V1_ADD = refuse`: the advance of a run with `cnt > 1` leaves the
  signed 64-bit range, for which the parameter says "the model then has no step" (44_int_rle_v1.md rule R155). Safe: under
  the default `wrap` it never happens. -/
  | v1AddNoStep
deriving DecidableEq, Repr

/-- The reasons a step has no meaning. -/
inductive Refusal where
  /-- Raised by a dispatch arm of an instruction that has no meaning yet. Safe. No arm raises it. -/
  | notModelled (mnemonic : String)
  /-- Raised by `RESET` with a failure position beyond the length of the source it binds, which is no source of
  20_memory.md rule R41 ("`p` with 0 ≤ `p` ≤ `S.len`"; assumption 8). Safe. -/
  | illegalSource
deriving DecidableEq, Repr

/-- A source with no bytes and no failure: what is bound at power-up, before the host binds its own (assumption 1). -/
def Source.empty : Source := { mem := [], len := 0, pos := 0, fail := none }

/-- The latch with `fault = NONE` and `finfo = 0` (10_state.md rule R34). -/
def Latch.clear : Latch := { fault := none, finfo := 0 }

/-- A byte-RLE decoder after reset on the source `src` (10_state.md rule R34); `val` is unspecified there and zero here
(assumption 4). -/
def ByteDec.resetOn (src : Source) (fresh : Nat) : ByteDec :=
  { mode := .idle, cnt := 0, val := 0, latch := Latch.clear, src := src, port := none, fresh := fresh }

/-- BIT after reset on the source `src`, which is bound to `BIT.B` (70_reset_and_hazards.md rule R240); `cur` is
unspecified in rule R34 and zero here (assumption 4). -/
def BitUnit.resetOn (src : Source) (fresh : Nat) : BitUnit :=
  { b := ByteDec.resetOn src fresh, cur := 0, nbits := 0, port := none }

/-- V1 after reset on the source `src` (10_state.md rule R34); `val` and `delta` are unspecified there and zero here
(assumption 4). -/
def V1Unit.resetOn (src : Source) (fresh : Nat) : V1Unit :=
  { mode := .idle, cnt := 0, val := 0, delta := 0, latch := Latch.clear, src := src, vi := VarintRegs.start, port := none,
    fresh := fresh }

/-- V2 after reset on the source `src` (10_state.md rule R34); the entries of `q` are unspecified there and zero here
(assumption 4). -/
def V2Unit.resetOn (src : Source) : V2Unit :=
  { q := List.replicate Config.queueDepth 0, qhead := 0, qcount := 0, buf := [], latch := Latch.clear, src := src,
    port := none }

/-- The machine right after power-up, which "is a `RESET` of all four units" (70_reset_and_hazards.md rule R240): every
register at its reset value (10_state.md rule R34), empty sources and no command pending (assumption 1), and the default
parameters (00_scope.md rule R5). -/
def State.reset : State :=
  { cfg := Config.standard
    byte := ByteDec.resetOn Source.empty 0
    bit := BitUnit.resetOn Source.empty 0
    v1 := V1Unit.resetOn Source.empty 0
    v2 := V2Unit.resetOn Source.empty
    cmds := [] }

/-- A byte-RLE decoder by its name (10_state.md rule R10). -/
def State.byteDec (s : State) : ByteInst → ByteDec
  | .unit => s.byte
  | .bitB => s.bit.b

/-- The state with one byte-RLE decoder replaced. -/
def State.setByteDec (s : State) (who : ByteInst) (d : ByteDec) : State :=
  match who with
  | .unit => { s with byte := d }
  | .bitB => { s with bit := { s.bit with b := d } }

end Sys2Proof.Machine
end

