-- ==== Sys2Proof/Machine/Flags.lean ====
section
/-! DEFINITION. Status as numbers. The block has no arithmetic flags (10_state.md rule R19); its status is the mode and the
fault latch. This file gives the codes of the modes and errors and the wires of a response port
(10_state.md rules R11, R15, R18 and R31, 60_exceptions.md rule R211). -/

namespace Sys2Proof.Machine

/-- The 2-bit code of a byte-RLE decoder's mode (10_state.md rule R11). -/
def byteModeCode : ByteMode → BitVec 2
  | .idle => 0
  | .repeatRun => 1
  | .literalRun => 2

/-- The 2-bit code of V1's mode (10_state.md rule R15). -/
def v1ModeCode : V1Mode → BitVec 2
  | .idle => 0
  | .deltaRun => 1
  | .literalRun => 2

/-- The code of an error kind, `ERR_CODE` (60_exceptions.md rule R211). -/
def errCode : ErrKind → BitVec 3
  | .ioFailure => 1
  | .truncation => 2
  | .unsupportedEncoding => 3
  | .malformedVarint => 4

/-- The `fault` register as a number: 0 is `NONE` (10_state.md rule R18). -/
def faultCode (l : Latch) : BitVec 3 :=
  match l.fault with
  | none => 0
  | some k => errCode k

/-- The wires of a response port (10_state.md rule R31). -/
structure Wires where
  status : BitVec 2
  data   : BitVec 64
  err    : BitVec 3
  info   : Byte
deriving DecidableEq, Repr

/-- An outcome on the wires, given how its value stands on `data` (10_state.md rule R31). -/
def wires {α : Type} (data : α → BitVec 64) : Result α → Wires
  | .value v => { status := 0, data := data v, err := 0, info := 0 }
  | .eos => { status := 1, data := 0, err := 0, info := 0 }
  | .err k info => { status := 2, data := 0, err := errCode k, info := info }

/-- BYTE's value on `data[7:0]` (10_state.md rule R31). -/
def byteData (b : Byte) : BitVec 64 := b.setWidth 64

/-- BIT's value on `data[0]`, 1 for true (10_state.md rule R31). -/
def bitData (b : Bool) : BitVec 64 := (BitVec.ofBool b).setWidth 64

/-- V1's and V2's value on `data[63:0]` (10_state.md rule R31). -/
def wordData (v : Word) : BitVec 64 := v

end Sys2Proof.Machine
end

