-- ==== Sys2Proof/Machine/Operands.lean ====
section
/-! DEFINITION. The operand forms: run lengths, the signed delta, the groups of a varint, the width, length, payload size
and packed fields of a Direct run, and the signed reading of 64 bits (30_encoding.md rules R78 to R82). -/

namespace Sys2Proof.Machine

/-- The control byte of the empty literal run, `LIT_BASE` with nothing added (42_byte_rle.md rule R124). -/
def emptyRunControl : Byte := 128

/-- The length of a repeat or delta run, `n + 3` (30_encoding.md rule R78). -/
def repeatLength (n : BitVec 7) : BitVec 8 := n.setWidth 8 + BitVec.ofNat 8 Config.runBias

/-- The length of a literal run, the control byte less 128, which is the field `n` (30_encoding.md rule R78). -/
def literalLength (n : BitVec 7) : BitVec 8 := n.setWidth 8

/-- The delta of a V1 run: the operand byte sign-extended to 64 bits (30_encoding.md rule R79). -/
def deltaOperand (d : Byte) : Word := d.signExtend 64

/-- `as_i64`: the same 64 bits read as two's complement (00_scope.md rule R6). It is also the signed view of V2
(10_state.md rule R36). -/
def asI64 (u : Word) : Int := u.toInt

/-- What one varint group adds to the accumulator: `(zext_64(d) << shift) mod 2^64` (41_varint.md rules R101 and R102). -/
def groupBits (d : BitVec 7) (shift : BitVec 7) : Word := d.setWidth 64 <<< shift.toNat

/-- Bits 6 to 1 of a tenth group have a place above bit 63, where nothing of them is kept (41_varint.md rule R104). -/
def groupOverflows (d : BitVec 7) : Bool := d.extractLsb' 1 6 != 0

/-- The groups a varint may still read after those its shift cursor counts, out of ten: `shift = 7 × groups read`
(41_varint.md rules R103 and R109). -/
def groupsLeft (shift : BitVec 7) : Nat := Config.varintMaxGroups - shift.toNat / 7

/-- `W = BWT[w]` (30_encoding.md rule R81). -/
def directWidth (c : Config) (w : BitVec 5) : Nat := (c.bwt.getD w.toNat 0).toNat

/-- `L = {l8, b1} + 1`, from 1 to 512 (30_encoding.md rule R80). -/
def directLength (l8 : BitVec 1) (b1 : Byte) : Nat := (l8 ++ b1).toNat + 1

/-- `N = ceil(W × L / 8)` bytes of payload (30_encoding.md rule R80). -/
def payloadBytes (W L : Nat) : Nat := (W * L + 7) / 8

/-- `PBit(k)`: bit `k` of the payload is bit `7 − (k mod 8)` of byte `k div 8` (20_memory.md rule R50). -/
def payloadBit (buf : List Byte) (k : Nat) : Bool := (buf.getD (k / 8) 0).getLsbD (7 - k % 8)

/-- `Extract(i)` as a number: the sum over `j` of `PBit(i × W + j) << (W − 1 − j)` (45_int_rle_v2.md rule R180). -/
def extractNat (buf : List Byte) (W i : Nat) : Nat :=
  ((List.range W).map fun j => (payloadBit buf (i * W + j)).toNat <<< (W - 1 - j)).sum

/-- `Extract(i)`, zero-extended to 64 bits (45_int_rle_v2.md rule R180). -/
def extract (buf : List Byte) (W i : Nat) : Word := BitVec.ofNat 64 (extractNat buf W i)

/-- The `L` values of a Direct run in stream order (45_int_rle_v2.md rule R181). -/
def extractAll (buf : List Byte) (W L : Nat) : List Word := (List.range L).map (extract buf W)

end Sys2Proof.Machine
end

