-- ==== Sys2Proof/Machine/Ops.lean ====
section
/-! DEFINITION. The named operations: the bytes of a source, the read primitives (20_memory.md rules R43 to R45), taking an
error (60_exceptions.md rule R214) and what stands for its return (rule R219), the staging queue (20_memory.md rule R59), and
how each unit answers a call. -/

namespace Sys2Proof.Machine

namespace Memory

/-- What an unlisted position reads as (assumption 7). -/
def unlisted : Byte := 0

/-- The byte at a position: `S.bytes[a]` (20_memory.md rule R40). -/
def read : Memory → Nat → Byte
  | [], _ => unlisted
  | (a', b) :: m, a => if a = a' then b else read m a

/-- The canonical form from position `lo` on: positions strictly rising from at least `lo`, no entry that an unlisted
position would read as. -/
def wfFrom : Nat → Memory → Bool
  | _, [] => true
  | lo, (a, b) :: m => decide (lo ≤ a) && decide (b ≠ unlisted) && wfFrom (a + 1) m

/-- The canonical form of a memory. -/
def wf (m : Memory) : Bool := wfFrom 0 m

/-- The canonical memory that holds the bytes `bs` from position `a` on. -/
def ofBytesFrom : Nat → List Byte → Memory
  | _, [] => []
  | a, b :: bs => if b = unlisted then ofBytesFrom (a + 1) bs else (a, b) :: ofBytesFrom (a + 1) bs

/-- The canonical memory of a byte sequence (20_memory.md rule R40). -/
def ofBytes (bs : List Byte) : Memory := ofBytesFrom 0 bs

end Memory

/-- Binding a source: its bytes, length and failure position are fixed and its position is 0
(70_reset_and_hazards.md rule R240). -/
def Source.bind (bytes : List Byte) (fail : Option Nat) : Source :=
  { mem := Memory.ofBytes bytes, len := bytes.length, pos := 0, fail := fail }

/-- The bytes not read yet; it falls with every byte read (70_reset_and_hazards.md rule R247). -/
def Source.remaining (s : Source) : Nat := s.len - s.pos

/-- The answer of a source to a read (10_state.md rule R32). -/
inductive ReadAnswer where
  | byte (b : Byte)
  | endOfInput
  | ioErr
deriving DecidableEq, Repr

/-- `SrcRead(S)` (20_memory.md rule R43): a failure at the position wins over the end there; only a byte moves the
position. A position past the end, which no run reaches, has no byte either (assumption 8). -/
def srcRead (s : Source) : ReadAnswer × Source :=
  if s.fail = some s.pos then (.ioErr, s)
  else if s.len ≤ s.pos then (.endOfInput, s)
  else (.byte (s.mem.read s.pos), { s with pos := s.pos + 1 })

/-- How a read helper ends a call without a byte: `return Eos`, or `raise K(info)` (00_scope.md rule R7). -/
inductive Stop where
  | eos
  | raise (kind : ErrKind) (info : Byte)
deriving DecidableEq, Repr

/-- `ReadFirst(S)`: the end of input is the clean end of the stream (20_memory.md rule R44). -/
def readFirst (s : Source) : Except Stop (Byte × Source) :=
  match srcRead s with
  | (.byte b, s') => .ok (b, s')
  | (.endOfInput, _) => .error .eos
  | (.ioErr, _) => .error (.raise .ioFailure 0)

/-- `ReadMore(S)`: the byte was promised, so the end of input is a truncation (20_memory.md rule R45). -/
def readMore (s : Source) : Except Stop (Byte × Source) :=
  match srcRead s with
  | (.byte b, s') => .ok (b, s')
  | (.endOfInput, _) => .error (.raise .truncation 0)
  | (.ioErr, _) => .error (.raise .ioFailure 0)

/-- Pass over at most `fuel` empty literal runs at the front of the source (42_byte_rle.md rule R124). -/
def skipEmptyFrom : Nat → Source → Source
  | 0, s => s
  | fuel + 1, s =>
    match srcRead s with
    | (.byte b, s') => if b = emptyRunControl then skipEmptyFrom fuel s' else s
    | (.endOfInput, _) => s
    | (.ioErr, _) => s

/-- Pass over the empty literal runs at the front of the source: "any number of 0x80 bytes in a row"
(42_byte_rle.md rule R124). Each consumes a byte, so the bytes left bound them (70_reset_and_hazards.md rule R247). -/
def skipEmptyRuns (s : Source) : Source := skipEmptyFrom s.remaining s

/-- Taking an error, the one shared operation: the latch records the kind and the information, and nothing else is saved
(60_exceptions.md rule R214). -/
def Latch.raise (_ : Latch) (kind : ErrKind) (info : Byte) : Latch := { fault := some kind, finfo := info }

/-- There is no return from an error: no call leaves the latch. `RESET` alone clears it, binding a new source and putting
every register at its reset value (60_exceptions.md rule R219, 70_reset_and_hazards.md rule R240). The unit keeps nothing;
`fresh`, the model's own count of free values, goes on. -/
def ByteDec.reset (src : Source) (u : ByteDec) : ByteDec := ByteDec.resetOn src u.fresh

/-- `RESET(BIT)` "resets `BIT.B` as well and binds the source to `BIT.B`" (70_reset_and_hazards.md rule R240). -/
def BitUnit.reset (src : Source) (u : BitUnit) : BitUnit := BitUnit.resetOn src u.b.fresh

/-- `RESET(V1)` (70_reset_and_hazards.md rule R240). -/
def V1Unit.reset (src : Source) (u : V1Unit) : V1Unit := V1Unit.resetOn src u.fresh

/-- `RESET(V2)` (70_reset_and_hazards.md rule R240); values staged and not delivered are lost (rule R249). -/
def V2Unit.reset (src : Source) (_ : V2Unit) : V2Unit := V2Unit.resetOn src

namespace ByteDec

/-- End a call of a byte-RLE decoder with an outcome. -/
def answer (u : ByteDec) (r : Result Byte) : ByteDec := { u with port := some r }

/-- `raise K(info)` in a byte-RLE decoder: the latch is set, the call ends with `Err(K, info)`, and `mode`, `cnt` and `val`
are left unspecified (60_exceptions.md rule R214; free values, assumption 3). -/
def raise (who : ByteInst) (kind : ErrKind) (info : Byte) (u : ByteDec) : ByteDec :=
  { u with
    mode := Config.freeByteMode who u.fresh
    cnt := Config.freeByteCnt who u.fresh
    val := Config.freeByteVal who u.fresh
    latch := u.latch.raise kind info
    port := some (.err kind info)
    fresh := u.fresh + 1 }

/-- End a call without a value: the clean end changes no register (42_byte_rle.md rule R127), an error is raised. -/
def stop (who : ByteInst) (st : Stop) (u : ByteDec) : ByteDec :=
  match st with
  | .eos => u.answer .eos
  | .raise kind info => u.raise who kind info

/-- One value fewer to deliver; back to idle "exactly when the run's counter reaches zero"
(42_byte_rle.md rules R125 and R126). -/
def countDown (u : ByteDec) : ByteDec :=
  { u with cnt := u.cnt - 1#8, mode := if u.cnt - 1#8 = 0#8 then .idle else u.mode }

end ByteDec

namespace BitUnit

/-- End a call of BIT with an outcome. -/
def answer (u : BitUnit) (r : Result Bool) : BitUnit := { u with port := some r }

end BitUnit

namespace V1Unit

/-- End a call of V1 with an outcome; the value stands as its 64 raw bits, read as an `i64` (10_state.md rule R31). -/
def answer (u : V1Unit) (r : Result Word) : V1Unit := { u with port := some r }

/-- `raise K(info)` in V1: the latch is set, the call ends with `Err(K, info)`, and `mode`, `cnt`, `val` and `delta` are
left unspecified (60_exceptions.md rule R214; free values, assumption 3). -/
def raise (kind : ErrKind) (info : Byte) (u : V1Unit) : V1Unit :=
  { u with
    mode := Config.freeV1Mode u.fresh
    cnt := Config.freeV1Cnt u.fresh
    val := Config.freeV1Val u.fresh
    delta := Config.freeV1Delta u.fresh
    latch := u.latch.raise kind info
    vi := VarintRegs.start
    port := some (.err kind info)
    fresh := u.fresh + 1 }

/-- End a call without a value: the clean end changes no register (44_int_rle_v1.md rule R159), an error is raised. -/
def stop (st : Stop) (u : V1Unit) : V1Unit :=
  match st with
  | .eos => u.answer .eos
  | .raise kind info => u.raise kind info

/-- One value fewer to deliver; back to idle when the run length reaches zero (44_int_rle_v1.md rules R155 and R156). -/
def countDown (u : V1Unit) : V1Unit :=
  { u with cnt := u.cnt - 1#8, mode := if u.cnt - 1#8 = 0#8 then .idle else u.mode }

end V1Unit

namespace V2Unit

/-- End a call of V2 with an outcome. -/
def answer (u : V2Unit) (r : Result Word) : V2Unit := { u with port := some r }

/-- `raise K(info)` in V2: the latch is set and the call ends with `Err(K, info)`; nothing is staged
(60_exceptions.md rule R214, 45_int_rle_v2.md rule R183). The packed buffer is dead (10_state.md rule R25). `qhead` and the
entries of `q` keep what they held, where 92_eei_decisions.md D19 calls every register but `fault`, `finfo` and `S.pos`
unspecified after an error (DEDUCED, assumption 17). -/
def raise (kind : ErrKind) (info : Byte) (u : V2Unit) : V2Unit :=
  { u with latch := u.latch.raise kind info, buf := [], port := some (.err kind info) }

/-- End a call without a value: the clean end changes no register (45_int_rle_v2.md rule R187), an error is raised. -/
def stop (st : Stop) (u : V2Unit) : V2Unit :=
  match st with
  | .eos => u.answer .eos
  | .raise kind info => u.raise kind info

/-- Fill the queue from index 0: `MemWrite(q, i, v)` for the values in order, `qhead <- 0`, `qcount <- L`
(45_int_rle_v2.md rule R181, 10_state.md rule R22). The entries above keep what they held, where 10_state.md rule R23 says
that they "hold no value" (DEDUCED, assumption 16). -/
def stage (vals : List Word) (u : V2Unit) : V2Unit :=
  { u with q := vals ++ u.q.drop vals.length, qhead := 0, qcount := BitVec.ofNat 10 vals.length }

/-- `Pop()`: deliver the front element (45_int_rle_v2.md rule R171). After the last value of a run of 512 `qhead` is 512,
as the rule's addition gives it, though the table of 10_state.md rule R17 has 0 to 511 (DEDUCED, assumption 15); the popped
entry keeps its bits (DEDUCED, assumption 16). -/
def pop (u : V2Unit) : V2Unit :=
  { u with
    qhead := u.qhead + 1#10
    qcount := u.qcount - 1#10
    port := some (.value (u.q.getD u.qhead.toNat 0)) }

/-- Read `n` payload bytes, each with `ReadMore`, to the end of the packed buffer; the reads made before one that fails
stand (45_int_rle_v2.md rules R179 and R183). -/
def readPayload : Nat → V2Unit → Option Stop × V2Unit
  | 0, u => (none, u)
  | n + 1, u =>
    match readMore u.src with
    | .error st => (some st, u)
    | .ok (b, src) => readPayload n { u with src := src, buf := u.buf ++ [b] }

end V2Unit

end Sys2Proof.Machine
end

