-- ==== Sys2Proof/Machine/Bit.lean ====
section
/-! DEFINITION. The one encoding of BIT, `BIT.UNPACK` (43_bit_unpack.md). -/

namespace Sys2Proof.Machine

/-- Deliver one boolean: bit 7 of the loaded byte, which is then shifted left by one (43_bit_unpack.md rule R141). -/
def BitUnit.deliver (u : BitUnit) : BitUnit :=
  { u with cur := u.cur <<< 1, nbits := u.nbits - 1#4 }.answer (.value (u.cur[7]))

/-- `BIT.UNPACK`, the decoded byte `b` pulled from `BIT.B`: load it and deliver its first boolean
(43_bit_unpack.md rule R141). -/
def execBitUnpack (b : Byte) (s : State) : Host.Outcome State Fault Refusal :=
  .next { s with bit := { s.bit with cur := b, nbits := 8 }.deliver }

end Sys2Proof.Machine
end

