-- ==== Sys2Proof/Machine/ByteRle.lean ====
section
/-! DEFINITION. The byte-RLE encodings, `BYTE.REPEAT` and `BYTE.LITERAL`, for the BYTE unit and for `BIT.B`
(42_byte_rle.md). -/

namespace Sys2Proof.Machine

namespace ByteDec

/-- Delivery in repeat-mode: the run's byte, nothing read (42_byte_rle.md rule R125). -/
def deliverRepeat (u : ByteDec) : ByteDec := u.countDown.answer (.value u.val)

/-- Delivery in literal-mode: one source byte, read with `ReadMore` (42_byte_rle.md rule R126). -/
def deliverLiteral (who : ByteInst) (u : ByteDec) : ByteDec :=
  match readMore u.src with
  | .error st => u.stop who st
  | .ok (b, src) => ({ u with src := src }.countDown).answer (.value b)

/-- A repeat run after its control byte: read the value byte, enter repeat-mode, deliver the first value
(42_byte_rle.md rule R122). -/
def runRepeat (who : ByteInst) (n : BitVec 7) (u : ByteDec) : ByteDec :=
  match readMore u.src with
  | .error st => u.stop who st
  | .ok (v, src) => { u with src := src, val := v, cnt := repeatLength n, mode := .repeatRun }.deliverRepeat

/-- A literal run of at least one byte after its control byte: enter literal-mode, deliver the first literal
(42_byte_rle.md rule R123). -/
def runLiteral (who : ByteInst) (n : BitVec 7) (u : ByteDec) : ByteDec :=
  { u with cnt := literalLength n, mode := .literalRun }.deliverLiteral who

/-- After an empty literal run: pass over the further empty runs and read the next control byte in the same call
(42_byte_rle.md rule R124). -/
def fallThrough (who : ByteInst) (u : ByteDec) : ByteDec :=
  match readFirst (skipEmptyRuns u.src) with
  | .error st => { u with src := skipEmptyRuns u.src }.stop who st
  | .ok (b, src) =>
    match b[7] with
    | false => { u with src := src }.runRepeat who (b.extractLsb' 0 7)
    | true => { u with src := src }.runLiteral who (b.extractLsb' 0 7)

end ByteDec

/-- `BYTE.REPEAT`, its control byte read: the rest of the `NEXT` call (42_byte_rle.md rule R122). -/
def execByteRepeat (who : ByteInst) (n : BitVec 7) (s : State) : Host.Outcome State Fault Refusal :=
  .next (s.setByteDec who ((s.byteDec who).runRepeat who n))

/-- `BYTE.LITERAL`, its control byte read: the rest of the `NEXT` call; a run of no bytes delivers nothing and falls
through to the next control byte (42_byte_rle.md rules R123 and R124). -/
def execByteLiteral (who : ByteInst) (n : BitVec 7) (s : State) : Host.Outcome State Fault Refusal :=
  if n = 0#7 then .next (s.setByteDec who ((s.byteDec who).fallThrough who))
  else .next (s.setByteDec who ((s.byteDec who).runLiteral who n))

end Sys2Proof.Machine
end

