-- ==== Sys2Proof/Machine/Varint.lean ====
section
/-! DEFINITION. VARINT, the base-128 varint decoder that V1 invokes: the two group encodings `VARINT.CONT` and
`VARINT.LAST`, and the whole algorithm over V1's source (41_varint.md). -/

namespace Sys2Proof.Machine

namespace V1Unit

/-- What the invocation returns: no fault latch is set and no call is ended; that is V1's part
(41_varint.md rule R100). -/
def varintReturn (r : VarintResult) (u : V1Unit) : V1Unit := { u with vi := { u.vi with ret := r } }

/-- OR a group's data bits into the accumulator at the shift, and move the shift by 7
(41_varint.md rules R101 to R103). -/
def accumulate (d : BitVec 7) (u : V1Unit) : V1Unit :=
  { u with vi := { u.vi with acc := u.vi.acc ||| groupBits d u.vi.shift, shift := u.vi.shift + 7#7 } }

/-- A group with its continuation flag clear ends the varint with its value (41_varint.md rule R101). As the tenth group,
under `VARINT_G10_HIGH = fault`, it is malformed when its bits 6 to 1 are not all zero (rule R104). -/
def lastGroup (c : Config) (d : BitVec 7) (u : V1Unit) : V1Unit :=
  if c.g10High = .fault ∧ groupsLeft u.vi.shift ≤ 1 ∧ groupOverflows d = true then
    (u.accumulate d).varintReturn (.err .malformedVarint)
  else (u.accumulate d).varintReturn (.value (u.accumulate d).vi.acc)

/-- Read groups until the varint ends, at most `fuel` of them (41_varint.md rule R103): with none left to read the varint
has ten groups and its tenth promised another; the end of input is clean only before the first group. -/
def readGroups (c : Config) : Nat → V1Unit → V1Unit
  | 0, u => u.varintReturn (.err .malformedVarint)
  | fuel + 1, u =>
    match srcRead u.src with
    | (.endOfInput, _) => u.varintReturn (if u.vi.shift = 0#7 then .eos else .err .truncation)
    | (.ioErr, _) => u.varintReturn (.err .ioFailure)
    | (.byte b, src) =>
      match b[7] with
      | false => { u with src := src }.lastGroup c (b.extractLsb' 0 7)
      | true => readGroups c fuel ({ u with src := src }.accumulate (b.extractLsb' 0 7))

/-- A group with its continuation flag set: take it in, then read on; as the tenth group it makes the varint malformed
(41_varint.md rule R102). -/
def contGroup (c : Config) (d : BitVec 7) (u : V1Unit) : V1Unit :=
  (u.accumulate d).readGroups c (groupsLeft (u.accumulate d).vi.shift)

/-- `VarintDecode(S)` on V1's source: a fresh accumulator and at most ten groups (41_varint.md rule R103). -/
def varintDecode (c : Config) (u : V1Unit) : V1Unit :=
  { u with vi := VarintRegs.start }.readGroups c Config.varintMaxGroups

end V1Unit

/-- `VARINT.CONT`, a group byte already read by the invocation in progress (41_varint.md rule R102). -/
def execVarintCont (d : BitVec 7) (s : State) : Host.Outcome State Fault Refusal :=
  .next { s with v1 := s.v1.contGroup s.cfg d }

/-- `VARINT.LAST`, a group byte already read by the invocation in progress (41_varint.md rule R101). -/
def execVarintLast (d : BitVec 7) (s : State) : Host.Outcome State Fault Refusal :=
  .next { s with v1 := s.v1.lastGroup s.cfg d }

end Sys2Proof.Machine
end

