-- ==== Sys2Proof/Machine/IntV1.lean ====
section
/-! DEFINITION. The integer-RLE version 1 encodings, `V1.DELTA` and `V1.LITERAL` (44_int_rle_v1.md). -/

namespace Sys2Proof.Machine

namespace V1Unit

/-- What V1 makes of VARINT's return, the invocation then being dead: inside a run its clean end is a truncation too, and
an error is raised with the same kind (44_int_rle_v1.md rules R150 and R158). -/
def takeVarint (u : V1Unit) : Except Stop Word × V1Unit :=
  match u.vi.ret with
  | .value w => (.ok w, { u with vi := VarintRegs.start })
  | .eos => (.error (.raise .truncation 0), u)
  | .err k => (.error (.raise k 0), u)

/-- Delivery in delta-run mode: the current value, which the signed delta then advances modulo 2^64; nothing is read. Under
`V1_ADD = refuse` a call whose advance leaves the signed range has no step (44_int_rle_v1.md rule R155). -/
def deliverDelta (c : Config) (u : V1Unit) : Host.Outcome V1Unit Fault Refusal :=
  if c.v1Add = .refuse ∧ 1 < u.cnt.toNat ∧
      (asI64 u.val + asI64 (deltaOperand u.delta) < -2 ^ 63 ∨ 2 ^ 63 ≤ asI64 u.val + asI64 (deltaOperand u.delta)) then
    .fault .v1AddNoStep
  else .next ({ u with val := u.val + deltaOperand u.delta }.countDown.answer (.value u.val))

/-- Delivery in literal-run mode: one fresh varint (44_int_rle_v1.md rule R156). -/
def deliverLiteral (c : Config) (u : V1Unit) : V1Unit :=
  match (u.varintDecode c).takeVarint with
  | (.error st, u') => u'.stop st
  | (.ok w, u') => u'.countDown.answer (.value w)

/-- A delta run after its control byte: the delta byte, then the base varint, then the first value
(44_int_rle_v1.md rule R152). -/
def runDelta (c : Config) (n : BitVec 7) (u : V1Unit) : Host.Outcome V1Unit Fault Refusal :=
  match readMore u.src with
  | .error st => .next (u.stop st)
  | .ok (d, src) =>
    match ({ u with src := src }.varintDecode c).takeVarint with
    | (.error st, u') => .next (u'.stop st)
    | (.ok base, u') => { u' with delta := d, val := base, cnt := repeatLength n, mode := .deltaRun }.deliverDelta c

/-- A literal run of at least one varint after its control byte (44_int_rle_v1.md rule R153). -/
def runLiteral (c : Config) (n : BitVec 7) (u : V1Unit) : V1Unit :=
  { u with cnt := literalLength n, mode := .literalRun }.deliverLiteral c

/-- After an empty literal run: pass over the further empty runs and read the next control byte in the same call
(44_int_rle_v1.md rule R154). -/
def fallThrough (c : Config) (u : V1Unit) : Host.Outcome V1Unit Fault Refusal :=
  match readFirst (skipEmptyRuns u.src) with
  | .error st => .next ({ u with src := skipEmptyRuns u.src }.stop st)
  | .ok (b, src) =>
    match b[7] with
    | false => { u with src := src }.runDelta c (b.extractLsb' 0 7)
    | true => .next ({ u with src := src }.runLiteral c (b.extractLsb' 0 7))

end V1Unit

/-- What a part of V1's step makes of the whole state. -/
def State.withV1 (s : State) (o : Host.Outcome V1Unit Fault Refusal) : Host.Outcome State Fault Refusal :=
  match o with
  | .next u => .next { s with v1 := u }
  | .fault r => .fault r
  | .refused r => .refused r

/-- `V1.DELTA`, its control byte read: the rest of the `NEXT` call (44_int_rle_v1.md rule R152). -/
def execV1Delta (n : BitVec 7) (s : State) : Host.Outcome State Fault Refusal :=
  s.withV1 (s.v1.runDelta s.cfg n)

/-- `V1.LITERAL`, its control byte read: the rest of the `NEXT` call; an empty run falls through to the next control byte
(44_int_rle_v1.md rules R153 and R154). -/
def execV1Literal (n : BitVec 7) (s : State) : Host.Outcome State Fault Refusal :=
  if n = 0#7 then s.withV1 (s.v1.fallThrough s.cfg) else .next { s with v1 := s.v1.runLiteral s.cfg n }

end Sys2Proof.Machine
end

