-- ==== Sys2Proof/Machine/IntV2.lean ====
section
/-! DEFINITION. The integer-RLE version 2 encodings: `V2.DIRECT`, decoded, and `V2.SHORT_REPEAT`, `V2.PATCHED_BASE` and
`V2.DELTA`, which raise `UnsupportedEncoding` (45_int_rle_v2.md). -/

namespace Sys2Proof.Machine

namespace V2Unit

/-- An unsupported header byte: that one byte is consumed, nothing is staged, and the error records the header
(45_int_rle_v2.md rule R176). -/
def unsupported (header : Byte) (u : V2Unit) : V2Unit := u.raise .unsupportedEncoding header

/-- The payload is in the packed buffer: unpack its `L` values of width `W` into the queue and deliver the first; the buffer
is then dead (45_int_rle_v2.md rule R181, 10_state.md rule R25). -/
def unpackAndPop (W L : Nat) (u : V2Unit) : V2Unit := { u.stage (extractAll u.buf W L) with buf := [] }.pop

/-- The payload of a Direct run of `L` values of width `W`, read whole before anything is staged
(45_int_rle_v2.md rules R179, R181 and R183). -/
def runPayload (W L : Nat) (u : V2Unit) : V2Unit :=
  match readPayload (payloadBytes W L) { u with buf := [] } with
  | (some st, u') => u'.stop st
  | (none, u') => u'.unpackAndPop W L

/-- A Direct run after its first header byte: the length byte, then the payload (45_int_rle_v2.md rules R177 to R181). -/
def runDirect (c : Config) (w : BitVec 5) (l8 : BitVec 1) (u : V2Unit) : V2Unit :=
  match readMore u.src with
  | .error st => u.stop st
  | .ok (b1, src) => { u with src := src }.runPayload (directWidth c w) (directLength l8 b1)

end V2Unit

/-- `V2.SHORT_REPEAT`: `UnsupportedEncoding` with the header byte (45_int_rle_v2.md rules R173 and R176). -/
def execV2ShortRepeat (x : BitVec 6) (s : State) : Host.Outcome State Fault Refusal :=
  .next { s with v2 := s.v2.unsupported (0b00#2 ++ x) }

/-- `V2.DIRECT`, its first header byte read: the rest of the `NEXT` call (45_int_rle_v2.md rules R177 to R183). -/
def execV2Direct (w : BitVec 5) (l8 : BitVec 1) (s : State) : Host.Outcome State Fault Refusal :=
  .next { s with v2 := s.v2.runDirect s.cfg w l8 }

/-- `V2.PATCHED_BASE`: `UnsupportedEncoding` with the header byte (45_int_rle_v2.md rules R174 and R176). -/
def execV2PatchedBase (x : BitVec 6) (s : State) : Host.Outcome State Fault Refusal :=
  .next { s with v2 := s.v2.unsupported (0b10#2 ++ x) }

/-- `V2.DELTA`: `UnsupportedEncoding` with the header byte (45_int_rle_v2.md rules R175 and R176). -/
def execV2Delta (x : BitVec 6) (s : State) : Host.Outcome State Fault Refusal :=
  .next { s with v2 := s.v2.unsupported (0b11#2 ++ x) }

end Sys2Proof.Machine
end

