-- ==== Sys2Proof/Machine/Dispatch.lean ====
section
/-! DEFINITION. One arm per row of the opcode map (30_encoding.md rule R83). -/

namespace Sys2Proof.Machine

def exec (i : Instr) (s : State) : Host.Outcome State Fault Refusal :=
  match i with
  | .byteRepeat who n => Sys2Proof.Machine.execByteRepeat who n s
  | .byteLiteral who n => Sys2Proof.Machine.execByteLiteral who n s
  | .bitUnpack b => Sys2Proof.Machine.execBitUnpack b s
  | .v1Delta n => Sys2Proof.Machine.execV1Delta n s
  | .v1Literal n => Sys2Proof.Machine.execV1Literal n s
  | .v2ShortRepeat x => Sys2Proof.Machine.execV2ShortRepeat x s
  | .v2Direct w l8 => Sys2Proof.Machine.execV2Direct w l8 s
  | .v2PatchedBase x => Sys2Proof.Machine.execV2PatchedBase x s
  | .v2Delta x => Sys2Proof.Machine.execV2Delta x s
  | .varintCont d => Sys2Proof.Machine.execVarintCont d s
  | .varintLast d => Sys2Proof.Machine.execVarintLast d s

end Sys2Proof.Machine
end

