-- ==== Sys2Proof/Machine/Next.lean ====
section
/-! DEFINITION. The host commands: `NEXT` of each unit, which tests the fault latch, goes on with the run it is in, or fetches
the next encoding and carries it out (42_byte_rle.md rule R120, 43_bit_unpack.md rule R141, 44_int_rle_v1.md rule R150,
45_int_rle_v2.md rule R170), and `RESET` (70_reset_and_hazards.md rule R240). -/

namespace Sys2Proof.Machine

/-- An idle byte-RLE decoder: read a control byte with `ReadFirst` and carry out the encoding it begins
(42_byte_rle.md rules R120 and R121). -/
def fetchByteRle (who : ByteInst) (s : State) : Host.Outcome State Fault Refusal :=
  match readFirst (s.byteDec who).src with
  | .error st => .next (s.setByteDec who ((s.byteDec who).stop who st))
  | .ok (c, src) => exec (decodeLead (.byteRle who) c) (s.setByteDec who { s.byteDec who with src := src })

/-- `NEXT` of a byte-RLE decoder, the BYTE unit or `BIT.B` (42_byte_rle.md rule R120). -/
def nextByteRle (who : ByteInst) (s : State) : Host.Outcome State Fault Refusal :=
  match (s.byteDec who).latch.fault with
  | some k => .next (s.setByteDec who ((s.byteDec who).answer (.err k (s.byteDec who).latch.finfo)))
  | none =>
    match (s.byteDec who).mode with
    | .idle => fetchByteRle who s
    | .repeatRun => .next (s.setByteDec who (s.byteDec who).deliverRepeat)
    | .literalRun => .next (s.setByteDec who ((s.byteDec who).deliverLiteral who))

/-- What BIT makes of the outcome of `NEXT(BIT.B)`: `Eos` and every error pass through and change no register of BIT, a
value is the decoded byte of the one encoding `BIT.UNPACK` (43_bit_unpack.md rule R141). A `NEXT` always leaves an outcome
on the port, so the case without one is not met. -/
def bitFromPipeline (s : State) : Host.Outcome State Fault Refusal :=
  match s.bit.b.port with
  | some (.value b) => exec (decodeLead .bit b) s
  | some .eos => .next { s with bit := s.bit.answer .eos }
  | some (.err k info) => .next { s with bit := s.bit.answer (.err k info) }
  | none => .next s

/-- `NEXT(BIT)` (43_bit_unpack.md rule R141). -/
def nextBit (s : State) : Host.Outcome State Fault Refusal :=
  if s.bit.nbits = 0#4 then
    match nextByteRle .bitB s with
    | .next s' => bitFromPipeline s'
    | .fault r => .fault r
    | .refused r => .refused r
  else .next { s with bit := s.bit.deliver }

/-- V1 idle: read a control byte with `ReadFirst` and carry out the encoding it begins (44_int_rle_v1.md rule R151). -/
def fetchV1 (s : State) : Host.Outcome State Fault Refusal :=
  match readFirst s.v1.src with
  | .error st => .next { s with v1 := s.v1.stop st }
  | .ok (c, src) => exec (decodeLead .v1 c) { s with v1 := { s.v1 with src := src } }

/-- `NEXT(V1)` (44_int_rle_v1.md rule R150). -/
def nextV1 (s : State) : Host.Outcome State Fault Refusal :=
  match s.v1.latch.fault with
  | some k => .next { s with v1 := s.v1.answer (.err k s.v1.latch.finfo) }
  | none =>
    match s.v1.mode with
    | .idle => fetchV1 s
    | .deltaRun => s.withV1 (s.v1.deliverDelta s.cfg)
    | .literalRun => .next { s with v1 := s.v1.deliverLiteral s.cfg }

/-- V2 with an empty queue: read a header byte with `ReadFirst` and carry out the encoding its tag selects
(45_int_rle_v2.md rule R172). -/
def fetchV2 (s : State) : Host.Outcome State Fault Refusal :=
  match readFirst s.v2.src with
  | .error st => .next { s with v2 := s.v2.stop st }
  | .ok (h, src) => exec (decodeLead .v2 h) { s with v2 := { s.v2 with src := src } }

/-- `NEXT(V2)` (45_int_rle_v2.md rule R170). -/
def nextV2 (s : State) : Host.Outcome State Fault Refusal :=
  match s.v2.latch.fault with
  | some k => .next { s with v2 := s.v2.answer (.err k s.v2.latch.finfo) }
  | none => if s.v2.qcount = 0#10 then fetchV2 s else .next { s with v2 := s.v2.pop }

/-- `NEXT(U)` (10_state.md rule R30). -/
def nextUnit (u : UnitId) (s : State) : Host.Outcome State Fault Refusal :=
  match u with
  | .byte => nextByteRle .unit s
  | .bit => nextBit s
  | .v1 => nextV1 s
  | .v2 => nextV2 s

/-- A source has its failure position, if any, within it or at its end (20_memory.md rule R41). -/
def legalFail (bytes : List Byte) (fail : Option Nat) : Bool :=
  match fail with
  | none => true
  | some p => decide (p ≤ bytes.length)

/-- `RESET(U)` in any state: bind the source and put every register of the unit at its reset value
(70_reset_and_hazards.md rule R240); what is no source is refused (assumption 8). -/
def resetUnit (u : UnitId) (bytes : List Byte) (fail : Option Nat) (s : State) : Host.Outcome State Fault Refusal :=
  if legalFail bytes fail then
    match u with
    | .byte => .next { s with byte := s.byte.reset (Source.bind bytes fail) }
    | .bit => .next { s with bit := s.bit.reset (Source.bind bytes fail) }
    | .v1 => .next { s with v1 := s.v1.reset (Source.bind bytes fail) }
    | .v2 => .next { s with v2 := s.v2.reset (Source.bind bytes fail) }
  else .refused .illegalSource

/-- One host command (60_exceptions.md rule R223). -/
def command (c : Command) (s : State) : Host.Outcome State Fault Refusal :=
  match c with
  | .next u => nextUnit u s
  | .reset u bytes fail => resetUnit u bytes fail s

/-- The source with `room` bytes left from its position on, which begin with `bytes` and are zero after them, and with no
failure. -/
def Source.feed (bytes : List Byte) (room : Nat) (s : Source) : Source :=
  { s with
    mem := s.mem.filter (fun cell => cell.1 < s.pos) ++ Memory.ofBytesFrom s.pos bytes
    len := s.pos + max room bytes.length
    fail := none }

/-- The state in which the very next step reads `bytes` as the reader `r`: the unit that holds the reader is commanded, not
faulted, and at the point where it reads a byte of that kind, and its source goes on with `bytes` and zeros, `room` bytes in all (assumption 2). For BIT,
which reads decoded bytes, `BIT.B` is in a repeat run with one copy of the first byte left; for VARINT, V1 owes one
literal. -/
def State.withFetch (s : State) (r : Reader) (bytes : List Byte) (room : Nat) : State :=
  match r with
  | .byteRle .unit =>
    { s with
      byte := { s.byte with mode := .idle, cnt := 0, latch := Latch.clear, src := s.byte.src.feed bytes room }
      cmds := .next .byte :: s.cmds }
  | .byteRle .bitB =>
    { s with
      bit := { s.bit with
        nbits := 0
        b := { s.bit.b with mode := .idle, cnt := 0, latch := Latch.clear, src := s.bit.b.src.feed bytes room } }
      cmds := .next .bit :: s.cmds }
  | .bit =>
    { s with
      bit := { s.bit with
        nbits := 0
        b := { s.bit.b with mode := .repeatRun, cnt := 1, val := bytes.headD 0, latch := Latch.clear } }
      cmds := .next .bit :: s.cmds }
  | .v1 =>
    { s with
      v1 := { s.v1 with mode := .idle, cnt := 0, latch := Latch.clear, src := s.v1.src.feed bytes room }
      cmds := .next .v1 :: s.cmds }
  | .v2 =>
    { s with
      v2 := { s.v2 with qcount := 0, latch := Latch.clear, src := s.v2.src.feed bytes room }
      cmds := .next .v2 :: s.cmds }
  | .varint =>
    { s with
      v1 := { s.v1 with mode := .literalRun, cnt := 1, latch := Latch.clear, src := s.v1.src.feed bytes room }
      cmds := .next .v1 :: s.cmds }

end Sys2Proof.Machine
end

