-- ==== Sys2Proof/Machine/Step.lean ====
section
/-! DEFINITION. One step of the block: one host command, atomic (10_state.md rule R33, 60_exceptions.md rule R224). -/

namespace Sys2Proof.Machine

/-- One step: the host's oldest pending command is issued to its unit. With no command pending nothing moves: "a unit has no
step of its own: it moves only inside a `NEXT` or `RESET` command" (60_exceptions.md rule R224; assumption 1). -/
def step (s : State) : Host.Outcome State Fault Refusal :=
  match s.cmds with
  | [] => .next s
  | c :: rest => command c { s with cmds := rest }

/-- The state whose next step reads the table word `w` and carries it out, on V2 (assumptions 1 and 2). -/
def State.withFetchWord (s : State) (nbits w : Nat) : State :=
  s.withFetch tableReader (tableWordBytes nbits w) Config.longestEncoding

end Sys2Proof.Machine
end

