-- ==== Sys2Proof/Safety.lean ====
section
/-! DEFINITION. What claims are said in: the invariants of the units (10_state.md rules R12, R14, R16, R22 and R23), what a
source offers from its position on, and the outcomes of successive calls. -/

namespace Sys2Proof.Machine

/-- A source as 20_memory.md rules R40 and R41 have it: canonical bytes, all below its length, a position and a failure
position not beyond it (10_state.md rule R26). -/
structure Source.Inv (s : Source) : Prop where
  canonical : s.mem.wf = true
  inside    : ∀ cell ∈ s.mem, cell.1 < s.len
  posLe     : s.pos ≤ s.len
  failLe    : ∀ p, s.fail = some p → p ≤ s.len

/-- The invariant of a byte-RLE decoder (10_state.md rule R12, which speaks of calls that do not raise; 42_byte_rle.md rule
R128 for the kinds it raises and 10_state.md rule R18 for `finfo`). -/
structure ByteDec.Inv (u : ByteDec) : Prop where
  src       : u.src.Inv
  kinds     : ∀ k, u.latch.fault = some k → k = .ioFailure ∨ k = .truncation
  finfo     : u.latch.finfo = 0#8
  idle      : u.latch.fault = none → (u.mode = .idle ↔ u.cnt = 0#8)
  repeating : u.latch.fault = none → u.mode = .repeatRun → u.cnt.toNat ≤ 129
  literal   : u.latch.fault = none → u.mode = .literalRun → u.cnt.toNat ≤ 126

/-- The invariant of BIT (10_state.md rule R14), and no error with a byte half-delivered (43_bit_unpack.md rule R143).
Rule R14 gives `lowZero` after a `NEXT` that returns a value; that it holds before the first one too, where `cur` is
unspecified (rule R34), rests on the zero that reset puts there (DESIGN CHOICE, assumption 4). -/
structure BitUnit.Inv (u : BitUnit) : Prop where
  pipeline : u.b.Inv
  nbitsLe  : u.nbits.toNat ≤ 8
  lowZero  : ∀ j, j < 8 - u.nbits.toNat → u.cur.getLsbD j = false
  faulted  : u.b.latch.fault ≠ none → u.nbits = 0#4

/-- The invariant of V1 (10_state.md rule R16; 44_int_rle_v1.md rule R158 for the kinds it raises; 10_state.md rule R24: no
invocation of VARINT is in progress between calls). -/
structure V1Unit.Inv (u : V1Unit) : Prop where
  src     : u.src.Inv
  kinds   : ∀ k, u.latch.fault = some k → k ≠ .unsupportedEncoding
  finfo   : u.latch.finfo = 0#8
  varint  : u.vi = VarintRegs.start
  idle    : u.latch.fault = none → (u.mode = .idle ↔ u.cnt = 0#8)
  delta   : u.latch.fault = none → u.mode = .deltaRun → u.cnt.toNat ≤ 129
  literal : u.latch.fault = none → u.mode = .literalRun → u.cnt.toNat ≤ 126

/-- The invariant of V2 (10_state.md rules R22 and R23; 45_int_rle_v2.md rule R187 for the kinds it raises; 10_state.md rules
R18 and R25 for `finfo` and the packed buffer; 60_exceptions.md rule R214 for the queue after an error). `noWrap` lets
`qhead` be 512 when the queue is empty (DEDUCED, assumption 15). -/
structure V2Unit.Inv (u : V2Unit) : Prop where
  src      : u.src.Inv
  kinds    : ∀ k, u.latch.fault = some k → k ≠ .malformedVarint
  finfo    : u.latch.fault ≠ some .unsupportedEncoding → u.latch.finfo = 0#8
  entries  : u.q.length = Config.queueDepth
  countLe  : u.qcount.toNat ≤ 511
  noWrap   : u.qhead.toNat + u.qcount.toNat ≤ 512
  noBuffer : u.buf = []
  faulted  : u.latch.fault ≠ none → u.qcount = 0#10

/-- The invariant of the whole block. -/
structure State.Inv (s : State) : Prop where
  cfg  : s.cfg.wf = true
  byte : s.byte.Inv
  bit  : s.bit.Inv
  v1   : s.v1.Inv
  v2   : s.v2.Inv

/-- The source as it is `k` bytes further on. -/
def Source.skip (s : Source) (k : Nat) : Source := { s with pos := s.pos + k }

/-- A read at the position answers `End` (20_memory.md rule R43). -/
def Source.AtEnd (s : Source) : Prop := s.pos = s.len ∧ s.fail ≠ some s.pos

/-- A read at the position answers `IoErr` (20_memory.md rule R43). -/
def Source.AtFailure (s : Source) : Prop := s.fail = some s.pos

/-- The next bytes of the source are `bs`, and no read of them fails (20_memory.md rules R40, R41 and R43). -/
def Source.Offers (s : Source) (bs : List Byte) : Prop :=
  s.pos + bs.length ≤ s.len ∧ ∀ k, k < bs.length → s.fail ≠ some (s.pos + k) ∧ s.mem.read (s.pos + k) = bs.getD k 0

/-- The bytes of the source not read yet. -/
def Source.upcoming (s : Source) : List Byte := (List.range s.remaining).map fun k => s.mem.read (s.pos + k)

/-- The two sources hold the same bytes below position `p`, both reach it, and neither fails before it. -/
def Source.AgreeBelow (s s' : Source) (p : Nat) : Prop :=
  s'.pos = s.pos ∧ (∀ a, a < p → s'.mem.read a = s.mem.read a) ∧ p ≤ s.len ∧ p ≤ s'.len ∧
    (∀ a, a < p → s.fail ≠ some a ∧ s'.fail ≠ some a)

/-- The bytes of one varint: one to ten groups, every group but the last with its continuation flag set
(30_encoding.md rule R75). -/
def IsVarint (bs : List Byte) : Prop :=
  1 ≤ bs.length ∧ bs.length ≤ 10 ∧ ∀ k, k < bs.length → (bs.getD k 0).getLsbD 7 = decide (k + 1 < bs.length)

/-- The value of a varint: the sum of its groups' data bits, each at 7 times its place, modulo 2^64
(41_varint.md rule R108). -/
def varintValue (bs : List Byte) : Word :=
  BitVec.ofNat 64 ((List.range bs.length).map fun k => (bs.getD k 0).toNat % 128 * 2 ^ (7 * k)).sum

/-- The big-endian integer of some bytes (45_int_rle_v2.md rule R189). -/
def bigEndian (bs : List Byte) : Nat := bs.foldl (fun n b => 256 * n + b.toNat) 0

/-- The sum of a value and a delta, as mathematical integers, is outside the signed 64-bit range
(44_int_rle_v1.md rule R155). -/
def LeavesSigned (v : Word) (d : Byte) : Prop := v.toInt + d.toInt < -2 ^ 63 ∨ 2 ^ 63 ≤ v.toInt + d.toInt

/-- The eight booleans of a decoded byte, bit 7 first (43_bit_unpack.md rule R142). -/
def booleansOf (b : Byte) : List Bool := (List.range 8).map fun j => b.getLsbD (7 - j)

/-- One `NEXT` of a unit as a step of the machine: the host's one pending command. -/
def nextCall (u : UnitId) (s : State) : Host.Outcome State Fault Refusal := step { s with cmds := [.next u] }

/-- What `k` successive `NEXT` calls of a unit leave on its response port. -/
def outcomes {ρ : Type} (u : UnitId) (port : State → Option ρ) : Nat → State → List (Option ρ)
  | 0, _ => []
  | k + 1, s =>
    match nextCall u s with
    | .next t => port t :: outcomes u port k t
    | .fault _ => []
    | .refused _ => []

/-- The outcomes of a stream of values that ends cleanly: the values in order, then `Eos` for ever. -/
def valuesThenEos {α : Type} (vs : List α) (k : Nat) : List (Option (Result α)) :=
  (vs.map (fun v => some (Result.value v)) ++ List.replicate k (some Result.eos)).take k

/-- The outcomes of a stream of values that ends in an error: the values in order, then the same error for ever. -/
def valuesThenErr {α : Type} (vs : List α) (kind : ErrKind) (info : Byte) (k : Nat) : List (Option (Result α)) :=
  (vs.map (fun v => some (Result.value v)) ++ List.replicate k (some (Result.err kind info))).take k

end Sys2Proof.Machine
end

