-- ==== Sys2Proof/Certificates/Slice0/Obligations.lean ====
section
/-! DEFINITION. The statements about the model, from the numbered rules of the spec. -/

open Sys2Proof Sys2Proof.Machine

/-! ## Encodings -/

/-- Leading bytes written out from the patterns of the opcode map (30_encoding.md rule R83) decode to the rows they
stand for, with their fields. -/
def Obligations.LeadingBytesDecode : Prop :=
  decodeLead (.byteRle .unit) 0b01100001#8 = .byteRepeat .unit 0b1100001#7 ∧
  decodeLead (.byteRle .bitB) 0b10000010#8 = .byteLiteral .bitB 0b0000010#7 ∧
  decodeLead .bit 0b10100101#8 = .bitUnpack 0b10100101#8 ∧
  decodeLead .v1 0b01100001#8 = .v1Delta 0b1100001#7 ∧
  decodeLead .v1 0b10000101#8 = .v1Literal 0b0000101#7 ∧
  decodeLead .v2 0b00111111#8 = .v2ShortRepeat 0b111111#6 ∧
  decodeLead .v2 0b01011110#8 = .v2Direct 0b01111#5 0b0#1 ∧
  decodeLead .v2 0b01000001#8 = .v2Direct 0b00000#5 0b1#1 ∧
  decodeLead .v2 0b10000000#8 = .v2PatchedBase 0b000000#6 ∧
  decodeLead .v2 0b11000101#8 = .v2Delta 0b000101#6 ∧
  decodeLead .varint 0b10101100#8 = .varintCont 0b0101100#7 ∧
  decodeLead .varint 0b00000010#8 = .varintLast 0b0000010#7

/-- Decoding an encoded well-formed instruction, whatever bytes follow it, gives it back with every field at every
value. -/
def Obligations.DecodeOfEncode : Prop :=
  ∀ (i : Instr) (rest : List Byte), i.wellFormed = true → decode i.reader (encode i ++ rest) = .ok (i, rest)

/-- The other direction, and no overlap: every byte value given to every reader is one instruction of that reader, which
encodes to that byte, and it fits exactly one row of the reader's map, the row of that instruction. -/
def Obligations.EveryByteIsOneRow : Prop :=
  ∀ (r : Reader) (c : Byte),
    encode (decodeLead r c) = [c] ∧ (decodeLead r c).reader = r ∧
      ((opcodeRows r).filter fun row => row.fits c).map OpcodeRow.mnemonic = [(decodeLead r c).mnemonic]

/-- `VARINT(v)` is a varint of one to ten groups with the value `v`, and no shorter varint has that value
(30_encoding.md rule R89). -/
def Obligations.VarintSpellingIsShortest : Prop :=
  ∀ v : Word,
    IsVarint (varintBytes v) ∧ varintValue (varintBytes v) = v ∧
      ∀ bs, IsVarint bs → varintValue bs = v → (varintBytes v).length ≤ bs.length

/-- The run length of a control byte `c`: `c + 3` when `c < 128`, else `c − 128` (30_encoding.md rule R78); the delta of
an operand byte: `byte` when `byte < 128`, else `byte − 256` (rule R79). -/
def Obligations.RunLengthsAndDelta : Prop :=
  (∀ c : Byte, c.toNat < 128 → (repeatLength (c.extractLsb' 0 7)).toNat = c.toNat + 3) ∧
  (∀ c : Byte, 128 ≤ c.toNat → (literalLength (c.extractLsb' 0 7)).toNat = c.toNat - 128) ∧
  (∀ d : Byte, asI64 (deltaOperand d) = if d.toNat < 128 then (d.toNat : Int) else (d.toNat : Int) - 256)

/-- The two header bytes of a Direct run (30_encoding.md rules R80 and R81): for a header `h` with tag 01, length byte
`b1` and a legal table, the width is the table's entry for `h[5:1]`, from 1 to 64, `L = ((h[0] << 8) | b1) + 1`, from 1
to 512, and `N` is the least whole number of bytes that covers `W × L` bits, from 1 to 4096. -/
def Obligations.DirectHeaderFields : Prop :=
  ∀ (cfg : Config) (h b1 : Byte) (w : BitVec 5) (l8 : BitVec 1), cfg.wf = true → decodeLead .v2 h = .v2Direct w l8 →
    directWidth cfg w = (cfg.bwt.getD (h.toNat / 2 % 32) 0).toNat ∧
    1 ≤ directWidth cfg w ∧ directWidth cfg w ≤ 64 ∧
    directLength l8 b1 = (h.toNat % 2 * 256 + b1.toNat) + 1 ∧
    directLength l8 b1 ≤ 512 ∧
    directWidth cfg w * directLength l8 b1 ≤ 8 * payloadBytes (directWidth cfg w) (directLength l8 b1) ∧
    8 * payloadBytes (directWidth cfg w) (directLength l8 b1) < directWidth cfg w * directLength l8 b1 + 8 ∧
    1 ≤ payloadBytes (directWidth cfg w) (directLength l8 b1) ∧
    payloadBytes (directWidth cfg w) (directLength l8 b1) ≤ 4096

/-- The bit-width table: a listed code has the listed width, every other code has `code + 1`, and every code has a width
from 1 to 64 (46_bitwidth_table.md rules R200 and R201). The entry `7 → 15` is the document's. -/
def Obligations.BitWidthTableEntries : Prop :=
  Config.standard.bwt.length = 32 ∧
  (∀ code : Fin 32, (Config.standard.bwt.getD code.val 0).toNat =
    if code.val = 7 then 15 else if code.val = 15 then 16 else if code.val = 23 then 24 else if code.val = 24 then 26
    else if code.val = 25 then 28 else if code.val = 26 then 30 else if code.val = 27 then 32
    else if code.val = 28 then 40 else if code.val = 29 then 48 else if code.val = 30 then 56
    else if code.val = 31 then 64 else code.val + 1) ∧
  Config.standard.wf = true

/-! ## Sources -/

/-- `SrcRead` (20_memory.md rule R43): a failure at the position wins, the end of input is sticky and only a byte moves
the position, by one. -/
def Obligations.SourceReadAnswers : Prop :=
  ∀ s : Source,
    (s.fail = some s.pos → srcRead s = (.ioErr, s)) ∧
    (s.fail ≠ some s.pos → s.pos = s.len → srcRead s = (.endOfInput, s)) ∧
    (s.fail ≠ some s.pos → s.pos < s.len →
      srcRead s = (.byte (s.mem.read s.pos), { s with pos := s.pos + 1 })) ∧
    (∀ s', srcRead s = (.endOfInput, s') → srcRead s' = (.endOfInput, s'))

/-- Binding a byte sequence (20_memory.md rule R40): position `i` of the source holds byte `i` of the sequence, and the
source meets its invariant. That a position at or past the length reads as zero, and the canonical form in the
invariant, are the form of the memory (assumption 7). -/
def Obligations.BoundSourceHoldsItsBytes : Prop :=
  ∀ (bytes : List Byte) (fail : Option Nat), legalFail bytes fail = true →
    (Source.bind bytes fail).Inv ∧ (Source.bind bytes fail).len = bytes.length ∧ (Source.bind bytes fail).pos = 0 ∧
      (Source.bind bytes fail).fail = fail ∧ ∀ i, (Source.bind bytes fail).mem.read i = bytes.getD i 0

/-- Reading a bound source (20_memory.md rules R40, R41 and R43): at each position up to its end the read answers
`IoErr` if the source was bound to fail there, else the byte of that place in the sequence and the position one further
on, and `End` once the sequence is read. -/
def Obligations.BoundSourceReadsInOrder : Prop :=
  ∀ (bytes : List Byte) (fail : Option Nat) (k : Nat),
    (fail = some k →
      srcRead ((Source.bind bytes fail).skip k) = (.ioErr, (Source.bind bytes fail).skip k)) ∧
    (fail ≠ some k → ∀ h : k < bytes.length,
      srcRead ((Source.bind bytes fail).skip k) = (.byte bytes[k], (Source.bind bytes fail).skip (k + 1))) ∧
    (fail ≠ some bytes.length →
      srcRead ((Source.bind bytes fail).skip bytes.length) = (.endOfInput, (Source.bind bytes fail).skip bytes.length))

/-! ## BYTE and `BIT.B` -/

/-- `BYTE.REPEAT` (42_byte_rle.md rules R122 and R130): the value byte is read, the run's first copy of it is delivered
and `c + 2` are left, in repeat-mode; nothing else changes. -/
def Obligations.ByteRepeatDeliversFirst : Prop :=
  ∀ (who : ByteInst) (n : BitVec 7) (s : State) (v : Byte), (s.byteDec who).src.Offers [v] →
    exec (.byteRepeat who n) s = .next (s.setByteDec who { s.byteDec who with
      mode := .repeatRun
      cnt := BitVec.ofNat 8 (n.toNat + 2)
      val := v
      src := (s.byteDec who).src.skip 1
      port := some (.value v) })

/-- `BYTE.LITERAL` with at least one literal (42_byte_rle.md rules R123 and R130): the first literal is read and
delivered, `c − 129` are left, and a run of one is over; nothing else changes. -/
def Obligations.ByteLiteralDeliversFirst : Prop :=
  ∀ (who : ByteInst) (n : BitVec 7) (s : State) (b : Byte), n ≠ 0#7 → (s.byteDec who).src.Offers [b] →
    exec (.byteLiteral who n) s = .next (s.setByteDec who { s.byteDec who with
      mode := if n = 1#7 then .idle else .literalRun
      cnt := BitVec.ofNat 8 (n.toNat - 1)
      src := (s.byteDec who).src.skip 1
      port := some (.value b) })

/-- The empty literal run (42_byte_rle.md rule R124): in an idle decoder with no error latched it delivers nothing and
goes on exactly as a call that reads the next control byte. -/
def Obligations.EmptyByteLiteralFallsThrough : Prop :=
  ∀ (who : ByteInst) (s : State), (s.byteDec who).latch.fault = none → (s.byteDec who).mode = .idle →
    exec (.byteLiteral who 0) s = nextByteRle who s

/-- Any number of 0x80 control bytes in a row are consumed by one call (42_byte_rle.md rule R124): the byte after them
is read as a control byte. Before a repeat run's control and value byte, the call delivers that value; before a
non-empty literal run's control byte and first literal, it delivers that literal; before the end of the input, it is the
clean end of the stream and only the position has moved; a failed read there is `IoFailure`. -/
def Obligations.EmptyByteLiteralsInOneCall : Prop :=
  ∀ (who : ByteInst) (s : State) (z : Nat), (s.byteDec who).src.Offers (List.replicate z 0x80) →
    (∀ (c v : Byte), c.toNat < 128 → (s.byteDec who).src.Offers (List.replicate z 0x80 ++ [c, v]) →
      exec (.byteLiteral who 0) s = .next (s.setByteDec who { s.byteDec who with
        mode := .repeatRun
        cnt := BitVec.ofNat 8 (c.toNat + 2)
        val := v
        src := (s.byteDec who).src.skip (z + 2)
        port := some (.value v) })) ∧
    (∀ (c b : Byte), 128 < c.toNat → (s.byteDec who).src.Offers (List.replicate z 0x80 ++ [c, b]) →
      exec (.byteLiteral who 0) s = .next (s.setByteDec who { s.byteDec who with
        mode := if c.toNat = 129 then .idle else .literalRun
        cnt := BitVec.ofNat 8 (c.toNat - 129)
        src := (s.byteDec who).src.skip (z + 2)
        port := some (.value b) })) ∧
    (((s.byteDec who).src.skip z).AtEnd →
      exec (.byteLiteral who 0) s = .next (s.setByteDec who { s.byteDec who with
        src := (s.byteDec who).src.skip z
        port := some .eos })) ∧
    (((s.byteDec who).src.skip z).AtFailure →
      ∃ d, exec (.byteLiteral who 0) s = .next (s.setByteDec who d) ∧ d.latch = ⟨some .ioFailure, 0⟩ ∧
        d.port = some (.err .ioFailure 0) ∧ d.src = (s.byteDec who).src.skip z)

/-- Delivery in repeat-mode (42_byte_rle.md rule R125): a call that finds repeat-mode delivers the run's value, nothing
is read, `val` is unchanged, and the unit is back to idle exactly when the counter reaches zero; and the call that has
just entered repeat-mode, its value byte read, delivers just as one that finds it. -/
def Obligations.ByteDeliveryInRepeatMode : Prop :=
  ∀ (who : ByteInst) (s : State), (s.byteDec who).latch.fault = none →
    ((s.byteDec who).mode = .repeatRun →
      nextByteRle who s = .next (s.setByteDec who { s.byteDec who with
        mode := if (s.byteDec who).cnt = 1#8 then .idle else .repeatRun
        cnt := (s.byteDec who).cnt - 1#8
        port := some (.value (s.byteDec who).val) })) ∧
    (∀ (n : BitVec 7) (v : Byte), (s.byteDec who).src.Offers [v] →
      exec (.byteRepeat who n) s = nextByteRle who (s.setByteDec who { s.byteDec who with
        mode := .repeatRun
        cnt := BitVec.ofNat 8 (n.toNat + 3)
        val := v
        src := (s.byteDec who).src.skip 1 }))

/-- Delivery in literal-mode (42_byte_rle.md rule R126): a call that finds literal-mode reads one source byte and
delivers it, back to idle exactly when the counter reaches zero; a byte that is not there is `Truncation` and a failed
read `IoFailure`; and the call that has just entered literal-mode goes on just as one that finds it. -/
def Obligations.ByteDeliveryInLiteralMode : Prop :=
  ∀ (who : ByteInst) (s : State), (s.byteDec who).latch.fault = none →
    ((s.byteDec who).mode = .literalRun →
      (∀ b, (s.byteDec who).src.Offers [b] →
        nextByteRle who s = .next (s.setByteDec who { s.byteDec who with
          mode := if (s.byteDec who).cnt = 1#8 then .idle else .literalRun
          cnt := (s.byteDec who).cnt - 1#8
          src := (s.byteDec who).src.skip 1
          port := some (.value b) })) ∧
      ((s.byteDec who).src.AtEnd → ∃ d, nextByteRle who s = .next (s.setByteDec who d) ∧
        d.port = some (.err .truncation 0) ∧ d.src = (s.byteDec who).src) ∧
      ((s.byteDec who).src.AtFailure → ∃ d, nextByteRle who s = .next (s.setByteDec who d) ∧
        d.port = some (.err .ioFailure 0) ∧ d.src = (s.byteDec who).src)) ∧
    (∀ n : BitVec 7, n ≠ 0#7 →
      exec (.byteLiteral who n) s = nextByteRle who (s.setByteDec who { s.byteDec who with
        mode := .literalRun
        cnt := BitVec.ofNat 8 n.toNat }))

/-- The end of the stream of a byte-RLE decoder (42_byte_rle.md rule R127): `Eos` is answered exactly when no error is
latched, the decoder is idle and only empty runs are left before the end; the call changes no register, and the next
call does the same. -/
def Obligations.ByteCleanEnd : Prop :=
  ∀ (who : ByteInst) (s : State), (s.byteDec who).src.Inv →
    ((∃ t, nextByteRle who s = .next t ∧ (t.byteDec who).port = some .eos) ↔
      ((s.byteDec who).latch.fault = none ∧ (s.byteDec who).mode = .idle ∧
        ∃ z, (s.byteDec who).src.Offers (List.replicate z 0x80) ∧ ((s.byteDec who).src.skip z).AtEnd)) ∧
    (∀ t, nextByteRle who s = .next t → (t.byteDec who).port = some .eos →
      t = s.setByteDec who { s.byteDec who with
        src := { (s.byteDec who).src with pos := (s.byteDec who).src.len }
        port := some .eos } ∧
      nextByteRle who t = .next t)

/-- The errors of a byte-RLE decoder (42_byte_rle.md rule R128, 60_exceptions.md rules R212 to R214): a promised byte
that is past the end is `Truncation`, a failed read is `IoFailure`, both with information 0; the latch is set, no value
is delivered, the failing read consumes nothing, and no other unit changes. The run registers are unspecified and
nothing is said of them. -/
def Obligations.ByteErrorsLatch : Prop :=
  ∀ (who : ByteInst) (s : State) (k : ErrKind),
    (((s.byteDec who).src.AtEnd ∧ k = .truncation) ∨ ((s.byteDec who).src.AtFailure ∧ k = .ioFailure)) →
    (∀ n, ∃ d, exec (.byteRepeat who n) s = .next (s.setByteDec who d) ∧ d.latch = ⟨some k, 0⟩ ∧
      d.port = some (.err k 0) ∧ d.src = (s.byteDec who).src) ∧
    (∀ n, n ≠ 0#7 → ∃ d, exec (.byteLiteral who n) s = .next (s.setByteDec who d) ∧ d.latch = ⟨some k, 0⟩ ∧
      d.port = some (.err k 0) ∧ d.src = (s.byteDec who).src) ∧
    ((s.byteDec who).latch.fault = none → (s.byteDec who).mode = .literalRun →
      ∃ d, nextByteRle who s = .next (s.setByteDec who d) ∧ d.latch = ⟨some k, 0⟩ ∧
        d.port = some (.err k 0) ∧ d.src = (s.byteDec who).src)

/-- An I/O failure where a control or header byte is due is `IoFailure`, not `Eos` (60_exceptions.md rule R212), for
BYTE, V1 and V2 alike: the failure wins over the clean end. -/
def Obligations.FailureWinsOverCleanEnd : Prop :=
  ∀ s : State,
    (s.byte.src.AtFailure → s.byte.latch.fault = none → s.byte.mode = .idle →
      ∃ d, nextUnit .byte s = .next { s with byte := d } ∧ d.latch = ⟨some .ioFailure, 0⟩ ∧
        d.port = some (.err .ioFailure 0) ∧ d.src = s.byte.src) ∧
    (s.v1.src.AtFailure → s.v1.latch.fault = none → s.v1.mode = .idle →
      ∃ d, nextUnit .v1 s = .next { s with v1 := d } ∧ d.latch = ⟨some .ioFailure, 0⟩ ∧
        d.port = some (.err .ioFailure 0) ∧ d.src = s.v1.src) ∧
    (s.v2.src.AtFailure → s.v2.latch.fault = none → s.v2.qcount = 0#10 →
      ∃ d, nextUnit .v2 s = .next { s with v2 := d } ∧ d.latch = ⟨some .ioFailure, 0⟩ ∧
        d.port = some (.err .ioFailure 0) ∧ d.src = s.v2.src ∧ d.qcount = 0#10)

/-- The round trip of the byte stream (42_byte_rle.md rule R131): for any list of legal lines bound to BYTE, successive
`NEXT(BYTE)` calls deliver `n` copies of `v` for each `B.REP` and the listed bytes for each `B.LIT`, in order, then
`Eos`. -/
def Obligations.ByteStreamRoundTrip : Prop :=
  ∀ (lines : List ByteLine) (s t : State) (k : Nat), (∀ l ∈ lines, l.wellFormed = true) →
    step { s with cmds := [.reset .byte (lines.flatMap ByteLine.bytes) none] } = .next t →
    outcomes .byte (fun t => t.byte.port) k t = valuesThenEos (lines.flatMap ByteLine.values) k

/-! ## BIT -/

/-- `BIT.UNPACK` and the whole of `NEXT(BIT)` (43_bit_unpack.md rule R141): a pulled byte is loaded, bit 7 is delivered
and the byte is shifted left by one; a loaded byte gives its next bit with nothing pulled; with none loaded, `Eos` and
every error of `BIT.B` pass through and change no register of BIT. After the eighth boolean of a byte no bit of it is
left. -/
def Obligations.BitNextRule : Prop :=
  (∀ (b : Byte) (s : State), exec (.bitUnpack b) s = .next { s with bit := { s.bit with
      cur := b <<< 1
      nbits := 7
      port := some (.value (b[7])) } }) ∧
  (∀ s : State, s.bit.nbits ≠ 0#4 → nextUnit .bit s = .next { s with bit := { s.bit with
      cur := s.bit.cur <<< 1
      nbits := s.bit.nbits - 1#4
      port := some (.value (s.bit.cur[7])) } }) ∧
  (∀ s t : State, s.bit.nbits = 0#4 → nextByteRle .bitB s = .next t →
    (∀ b, t.bit.b.port = some (.value b) → nextUnit .bit s = exec (.bitUnpack b) t) ∧
    (t.bit.b.port = some .eos → nextUnit .bit s = .next { t with bit := { t.bit with port := some .eos } }) ∧
    (∀ k info, t.bit.b.port = some (.err k info) →
      nextUnit .bit s = .next { t with bit := { t.bit with port := some (.err k info) } })) ∧
  (∀ s : State, s.bit.nbits = 1#4 → (∀ j, j < 7 → s.bit.cur.getLsbD j = false) →
    ∃ t, nextUnit .bit s = .next t ∧ t.bit.nbits = 0#4 ∧ t.bit.cur = 0#8)

/-- The k-th boolean delivered after reset is bit `7 − (k mod 8)` of decoded byte number `k div 8`, and every decoded
byte yields exactly eight (43_bit_unpack.md rule R142): for any list of legal byte-RLE lines bound to BIT, the outcomes
are the eight booleans of each byte the lines stand for, in order, then `Eos`. -/
def Obligations.BitStreamDeliversBits : Prop :=
  ∀ (lines : List ByteLine) (s t : State) (k : Nat), (∀ l ∈ lines, l.wellFormed = true) →
    step { s with cmds := [.reset .bit (lines.flatMap ByteLine.bytes) none] } = .next t →
    outcomes .bit (fun t => t.bit.port) k t = valuesThenEos ((lines.flatMap ByteLine.values).flatMap booleansOf) k

/-! ## VARINT -/

/-- `VARINT.LAST` (41_varint.md rules R101 and R104): the group's bits are OR-ed in at the shift and the accumulator is
returned; only under `VARINT_G10_HIGH = fault` is a tenth group with a bit 6 to 1 set malformed. Nothing else changes.
The return stands in the model's place for it (assumption 5). -/
def Obligations.VarintLastGroup : Prop :=
  ∀ (d : BitVec 7) (s : State),
    ((s.cfg.g10High = .discard ∨ s.v1.vi.shift.toNat < 63 ∨ d.toNat < 2) →
      exec (.varintLast d) s = .next { s with v1 := { s.v1 with vi := {
        acc := s.v1.vi.acc ||| (d.setWidth 64 <<< s.v1.vi.shift.toNat)
        shift := s.v1.vi.shift + 7#7
        ret := .value (s.v1.vi.acc ||| (d.setWidth 64 <<< s.v1.vi.shift.toNat)) } } }) ∧
    (s.cfg.g10High = .fault → 63 ≤ s.v1.vi.shift.toNat → 2 ≤ d.toNat →
      exec (.varintLast d) s = .next { s with v1 := { s.v1 with vi := {
        acc := s.v1.vi.acc ||| (d.setWidth 64 <<< s.v1.vi.shift.toNat)
        shift := s.v1.vi.shift + 7#7
        ret := .err .malformedVarint } } })

/-- `VARINT.CONT` (41_varint.md rule R102): the group's bits are OR-ed in at the shift and the shift grows by 7; as the
tenth group it returns `MalformedVarint` with nothing more read; before that the next group is read and carried out (so
that with a last group next, under the default `discard`, the value of the two is returned), the end of input is
`Truncation` and a failed read `IoFailure`, neither setting a fault latch. The return stands in the model's place for it
(assumption 5). -/
def Obligations.VarintContGroup : Prop :=
  ∀ (d : BitVec 7) (s : State) (g : Nat), g ≤ 9 → s.v1.vi.shift = BitVec.ofNat 7 (7 * g) →
    (g = 9 → exec (.varintCont d) s = .next { s with v1 := { s.v1 with vi := {
      acc := s.v1.vi.acc ||| (d.setWidth 64 <<< (7 * g))
      shift := BitVec.ofNat 7 (7 * g + 7)
      ret := .err .malformedVarint } } }) ∧
    (g < 9 → ∀ b : Byte, s.v1.src.Offers [b] →
      exec (.varintCont d) s = exec (decodeLead .varint b) { s with v1 := { s.v1 with
        src := s.v1.src.skip 1
        vi := { s.v1.vi with
          acc := s.v1.vi.acc ||| (d.setWidth 64 <<< (7 * g))
          shift := BitVec.ofNat 7 (7 * g + 7) } } }) ∧
    (g < 9 → s.cfg.g10High = .discard → ∀ b : Byte, s.v1.src.Offers [b] → b.toNat < 128 →
      exec (.varintCont d) s = .next { s with v1 := { s.v1 with
        src := s.v1.src.skip 1
        vi := {
          acc := s.v1.vi.acc ||| (d.setWidth 64 <<< (7 * g)) ||| (b.setWidth 64 <<< (7 * g + 7))
          shift := BitVec.ofNat 7 (7 * g + 14)
          ret := .value (s.v1.vi.acc ||| (d.setWidth 64 <<< (7 * g)) ||| (b.setWidth 64 <<< (7 * g + 7))) } } }) ∧
    (g < 9 → s.v1.src.AtEnd → exec (.varintCont d) s = .next { s with v1 := { s.v1 with vi := {
      acc := s.v1.vi.acc ||| (d.setWidth 64 <<< (7 * g))
      shift := BitVec.ofNat 7 (7 * g + 7)
      ret := .err .truncation } } }) ∧
    (g < 9 → s.v1.src.AtFailure → exec (.varintCont d) s = .next { s with v1 := { s.v1 with vi := {
      acc := s.v1.vi.acc ||| (d.setWidth 64 <<< (7 * g))
      shift := BitVec.ofNat 7 (7 * g + 7)
      ret := .err .ioFailure } } })

/-- The value law, under the default `discard` (41_varint.md rule R108): a varint of `g` bytes that ends normally
returns the sum of its groups' data bits, each at seven times its place, modulo 2^64, and the position has grown by `g`.
Non-minimal varints and a tenth group with bits 6 to 1 set are among them. The return stands in the model's place for it
(assumption 5). -/
def Obligations.VarintValueLaw : Prop :=
  ∀ (c : Config) (u : V1Unit) (bs : List Byte), c.g10High = .discard → IsVarint bs → u.src.Offers bs →
    (u.varintDecode c) = { u with
      src := u.src.skip bs.length
      vi := { acc := varintValue bs, shift := BitVec.ofNat 7 (7 * bs.length), ret := .value (varintValue bs) } }

/-- The end of the input in a varint (41_varint.md rule R106): before any byte it is the clean end with the position
unchanged, after a byte with its continuation flag set it is `Truncation`; and ten such bytes are `MalformedVarint` with
no eleventh byte read (rule R103). The return stands in the model's place for it (assumption 5). -/
def Obligations.VarintEndAndCap : Prop :=
  ∀ (c : Config) (u : V1Unit) (bs : List Byte), (∀ b ∈ bs, b[7] = true) → u.src.Offers bs →
    (bs.length ≤ 9 → (u.src.skip bs.length).AtEnd →
      (u.varintDecode c).src = u.src.skip bs.length ∧
        (u.varintDecode c).vi.ret = if bs = [] then .eos else .err .truncation) ∧
    (bs.length = 10 →
      (u.varintDecode c).src = u.src.skip 10 ∧ (u.varintDecode c).vi.ret = .err .malformedVarint)

/-! ## V1 -/

/-- `V1.DELTA` (44_int_rle_v1.md rules R152, R155 and R161), under the default parameters: the delta byte and the base
varint are read in that order, the base is delivered, and it is advanced by the sign-extended delta modulo 2^64, with `c
+ 2` values left; nothing else changes. -/
def Obligations.V1DeltaDeliversBase : Prop :=
  ∀ (n : BitVec 7) (s : State) (d : Byte) (bs : List Byte), s.cfg.v1Add = .wrap → s.cfg.g10High = .discard →
    IsVarint bs → s.v1.src.Offers (d :: bs) →
    exec (.v1Delta n) s = .next { s with v1 := { s.v1 with
      mode := .deltaRun
      cnt := BitVec.ofNat 8 (n.toNat + 2)
      val := varintValue bs + d.signExtend 64
      delta := d
      src := s.v1.src.skip (1 + bs.length)
      vi := VarintRegs.start
      port := some (.value (varintValue bs)) } }

/-- `V1.LITERAL` with at least one literal, under the default `discard` (44_int_rle_v1.md rules R153, R156 and R161):
one varint is read and delivered, `c − 129` are left, and a run of one is over; nothing else changes. -/
def Obligations.V1LiteralDeliversFirst : Prop :=
  ∀ (n : BitVec 7) (s : State) (bs : List Byte), n ≠ 0#7 → s.cfg.g10High = .discard → IsVarint bs → s.v1.src.Offers bs →
    exec (.v1Literal n) s = .next { s with v1 := { s.v1 with
      mode := if n = 1#7 then .idle else .literalRun
      cnt := BitVec.ofNat 8 (n.toNat - 1)
      src := s.v1.src.skip bs.length
      vi := VarintRegs.start
      port := some (.value (varintValue bs)) } }

/-- The empty literal run of V1 (44_int_rle_v1.md rule R154): in V1 idle with no error latched it delivers nothing and
goes on exactly as a call that reads the next control byte; before the end of the input, that is the clean end. -/
def Obligations.EmptyV1LiteralFallsThrough : Prop :=
  ∀ s : State, s.v1.latch.fault = none → s.v1.mode = .idle →
    exec (.v1Literal 0) s = nextUnit .v1 s ∧
    (s.v1.src.AtEnd → exec (.v1Literal 0) s = .next { s with v1 := { s.v1 with port := some .eos } })

/-- The values of a delta run under the default `wrap` (44_int_rle_v1.md rule R155): from a state with `cnt` values
left, the `j`-th of them, delivered by the `j`-th of as many calls, is `val + j × delta` modulo 2^64. -/
def Obligations.V1DeltaRunValues : Prop :=
  ∀ s : State, s.cfg.v1Add = .wrap → s.v1.latch.fault = none → s.v1.mode = .deltaRun →
    outcomes .v1 (fun t => t.v1.port) s.v1.cnt.toNat s =
      (List.range s.v1.cnt.toNat).map fun j => some (.value (s.v1.val + BitVec.ofNat 64 j * s.v1.delta.signExtend 64))

/-- One delivery of a delta run, under the default `wrap` (44_int_rle_v1.md rules R155 and R161): the current value,
then the advance, back to idle exactly when the counter reaches zero; nothing is read and nothing else changes. -/
def Obligations.V1DeliveryInDeltaMode : Prop :=
  ∀ s : State, s.cfg.v1Add = .wrap → s.v1.latch.fault = none → s.v1.mode = .deltaRun →
    nextUnit .v1 s = .next { s with v1 := { s.v1 with
      mode := if s.v1.cnt = 1#8 then .idle else .deltaRun
      cnt := s.v1.cnt - 1#8
      val := s.v1.val + s.v1.delta.signExtend 64
      port := some (.value s.v1.val) } }

/-- Delivery in literal-run mode, under the default `discard` (44_int_rle_v1.md rules R156 and R161): one fresh varint
is read and delivered, back to idle exactly when the counter reaches zero, and nothing else changes. -/
def Obligations.V1DeliveryInLiteralMode : Prop :=
  ∀ (s : State) (bs : List Byte), s.cfg.g10High = .discard → s.v1.latch.fault = none → s.v1.mode = .literalRun →
    IsVarint bs → s.v1.src.Offers bs →
    nextUnit .v1 s = .next { s with v1 := { s.v1 with
      mode := if s.v1.cnt = 1#8 then .idle else .literalRun
      cnt := s.v1.cnt - 1#8
      src := s.v1.src.skip bs.length
      vi := VarintRegs.start
      port := some (.value (varintValue bs)) } }

/-- The end of a V1 stream (44_int_rle_v1.md rule R159): `Eos` is answered exactly when no error is latched, V1 is idle
and only empty runs are left before the end; the call changes no register, and the next call does the same. -/
def Obligations.V1CleanEnd : Prop :=
  ∀ s : State, s.v1.src.Inv →
    ((∃ t, nextUnit .v1 s = .next t ∧ t.v1.port = some .eos) ↔
      (s.v1.latch.fault = none ∧ s.v1.mode = .idle ∧
        ∃ z, s.v1.src.Offers (List.replicate z 0x80) ∧ (s.v1.src.skip z).AtEnd)) ∧
    (∀ t, nextUnit .v1 s = .next t → t.v1.port = some .eos →
      t = { s with v1 := { s.v1 with src := { s.v1.src with pos := s.v1.src.len }, port := some .eos } } ∧
      nextUnit .v1 t = .next t)

/-- The parameter `V1_ADD = refuse` (44_int_rle_v1.md rule R155). A call that finds delta-run mode has no step exactly
when more than one value is left and the mathematical sum of the value and the delta leaves the signed 64-bit range, and
else delivers as under `wrap`. The call that enters the run, which owes at least three values, has no step when the sum
of the base and the delta leaves the range, and else delivers the base and advances as under `wrap` (the varint under
the default `discard`). That such a call stops the machine by a fault is the form assumption 11 gives to having no
step. -/
def Obligations.V1AddRefuseStops : Prop :=
  ∀ s : State, s.cfg.v1Add = .refuse →
    (s.v1.latch.fault = none → s.v1.mode = .deltaRun →
      (nextUnit .v1 s = .fault .v1AddNoStep ↔ 1 < s.v1.cnt.toNat ∧ LeavesSigned s.v1.val s.v1.delta) ∧
      (¬ (1 < s.v1.cnt.toNat ∧ LeavesSigned s.v1.val s.v1.delta) →
        nextUnit .v1 s = .next { s with v1 := { s.v1 with
          mode := if s.v1.cnt = 1#8 then .idle else .deltaRun
          cnt := s.v1.cnt - 1#8
          val := s.v1.val + s.v1.delta.signExtend 64
          port := some (.value s.v1.val) } })) ∧
    (∀ (n : BitVec 7) (d : Byte) (bs : List Byte), s.cfg.g10High = .discard → IsVarint bs → s.v1.src.Offers (d :: bs) →
      (LeavesSigned (varintValue bs) d → exec (.v1Delta n) s = .fault .v1AddNoStep) ∧
      (¬ LeavesSigned (varintValue bs) d → exec (.v1Delta n) s = .next { s with v1 := { s.v1 with
        mode := .deltaRun
        cnt := BitVec.ofNat 8 (n.toNat + 2)
        val := varintValue bs + d.signExtend 64
        delta := d
        src := s.v1.src.skip (1 + bs.length)
        vi := VarintRegs.start
        port := some (.value (varintValue bs)) } }))

/-- The errors of V1 at a read (44_int_rle_v1.md rules R156 and R158, 60_exceptions.md rule R213): the end where the
delta byte, the base or a literal is promised is `Truncation`, also where VARINT itself answers a clean end, and so is
the end inside a base or literal varint, after any number of groups with the continuation flag set; a failed read in any
of these places is `IoFailure`; both with information 0. It is so in the call that enters a run and in a call that finds
literal-run mode. The latch is set, no value is delivered, the bytes read before stay consumed and no other unit
changes; the run registers are unspecified and nothing is said of them. -/
def Obligations.V1ErrorsLatch : Prop :=
  ∀ (s : State) (k : ErrKind),
    ((s.v1.src.AtEnd ∧ k = .truncation) ∨ (s.v1.src.AtFailure ∧ k = .ioFailure) →
      (∀ n, ∃ d, exec (.v1Delta n) s = .next { s with v1 := d } ∧ d.latch = ⟨some k, 0⟩ ∧
        d.port = some (.err k 0) ∧ d.src = s.v1.src) ∧
      (∀ n, n ≠ 0#7 → ∃ d, exec (.v1Literal n) s = .next { s with v1 := d } ∧ d.latch = ⟨some k, 0⟩ ∧
        d.port = some (.err k 0) ∧ d.src = s.v1.src) ∧
      (s.v1.latch.fault = none → s.v1.mode = .literalRun →
        ∃ d, nextUnit .v1 s = .next { s with v1 := d } ∧ d.latch = ⟨some k, 0⟩ ∧
          d.port = some (.err k 0) ∧ d.src = s.v1.src)) ∧
    (∀ groups : List Byte, groups.length ≤ 9 → (∀ b ∈ groups, b[7] = true) →
      (s.v1.src.Offers groups →
        ((s.v1.src.skip groups.length).AtEnd ∧ k = .truncation) ∨
          ((s.v1.src.skip groups.length).AtFailure ∧ k = .ioFailure) →
        (∀ n, n ≠ 0#7 → ∃ d, exec (.v1Literal n) s = .next { s with v1 := d } ∧ d.latch = ⟨some k, 0⟩ ∧
          d.port = some (.err k 0) ∧ d.src = s.v1.src.skip groups.length) ∧
        (s.v1.latch.fault = none → s.v1.mode = .literalRun →
          ∃ d, nextUnit .v1 s = .next { s with v1 := d } ∧ d.latch = ⟨some k, 0⟩ ∧
            d.port = some (.err k 0) ∧ d.src = s.v1.src.skip groups.length)) ∧
      (∀ delta, s.v1.src.Offers (delta :: groups) →
        ((s.v1.src.skip (1 + groups.length)).AtEnd ∧ k = .truncation) ∨
          ((s.v1.src.skip (1 + groups.length)).AtFailure ∧ k = .ioFailure) →
        ∀ n, ∃ d, exec (.v1Delta n) s = .next { s with v1 := d } ∧ d.latch = ⟨some k, 0⟩ ∧
          d.port = some (.err k 0) ∧ d.src = s.v1.src.skip (1 + groups.length)))

/-- A literal or a base of ten groups that promises an eleventh latches `MalformedVarint` with information 0, its ten
bytes consumed (60_exceptions.md rule R216): the first literal of a run, a literal read by a call that finds literal-run
mode (44_int_rle_v1.md rules R156 and R158), and the base of a delta run, whose delta byte is consumed too. -/
def Obligations.V1MalformedVarintLatches : Prop :=
  ∀ (s : State) (bs : List Byte), bs.length = 10 → (∀ b ∈ bs, b[7] = true) →
    (s.v1.src.Offers bs →
      (∀ n, n ≠ 0#7 →
        ∃ d, exec (.v1Literal n) s = .next { s with v1 := d } ∧ d.latch = ⟨some .malformedVarint, 0⟩ ∧
          d.port = some (.err .malformedVarint 0) ∧ d.src = s.v1.src.skip 10) ∧
      (s.v1.latch.fault = none → s.v1.mode = .literalRun →
        ∃ d, nextUnit .v1 s = .next { s with v1 := d } ∧ d.latch = ⟨some .malformedVarint, 0⟩ ∧
          d.port = some (.err .malformedVarint 0) ∧ d.src = s.v1.src.skip 10)) ∧
    (∀ delta, s.v1.src.Offers (delta :: bs) → ∀ n,
      ∃ d, exec (.v1Delta n) s = .next { s with v1 := d } ∧ d.latch = ⟨some .malformedVarint, 0⟩ ∧
        d.port = some (.err .malformedVarint 0) ∧ d.src = s.v1.src.skip 11)

/-- The V1 stream under the default `wrap`: for any list of legal `V1.DELTA` and `V1.LIT` lines bound to V1, successive
calls deliver the values of each line in order, wrapped modulo 2^64, then `Eos` (44_int_rle_v1.md rules R152 to
R159). -/
def Obligations.V1StreamRoundTrip : Prop :=
  ∀ (lines : List V1Line) (s t : State) (k : Nat), s.cfg.v1Add = .wrap → (∀ l ∈ lines, l.wellFormed = true) →
    step { s with cmds := [.reset .v1 (lines.flatMap V1Line.bytes) none] } = .next t →
    outcomes .v1 (fun t => t.v1.port) k t = valuesThenEos (lines.flatMap V1Line.values) k

/-! ## V2 -/

/-- `V2.SHORT_REPEAT`, `V2.PATCHED_BASE` and `V2.DELTA` (45_int_rle_v2.md rule R176): every header byte with tag 00, 10
or 11 latches `UnsupportedEncoding` with the header byte; nothing more is read and nothing is staged, and as a call that
one byte is consumed. That `qhead` and the entries of `q` keep what they held is assumption 17. -/
def Obligations.V2UnsupportedTagsRaise : Prop :=
  (∀ (x : BitVec 6) (s : State), exec (.v2ShortRepeat x) s = .next { s with v2 := { s.v2 with
    latch := ⟨some .unsupportedEncoding, BitVec.ofNat 8 x.toNat⟩, buf := [],
    port := some (.err .unsupportedEncoding (BitVec.ofNat 8 x.toNat)) } }) ∧
  (∀ (x : BitVec 6) (s : State), exec (.v2PatchedBase x) s = .next { s with v2 := { s.v2 with
    latch := ⟨some .unsupportedEncoding, BitVec.ofNat 8 (0x80 + x.toNat)⟩, buf := [],
    port := some (.err .unsupportedEncoding (BitVec.ofNat 8 (0x80 + x.toNat))) } }) ∧
  (∀ (x : BitVec 6) (s : State), exec (.v2Delta x) s = .next { s with v2 := { s.v2 with
    latch := ⟨some .unsupportedEncoding, BitVec.ofNat 8 (0xC0 + x.toNat)⟩, buf := [],
    port := some (.err .unsupportedEncoding (BitVec.ofNat 8 (0xC0 + x.toNat))) } }) ∧
  (∀ (h : Byte) (s : State), h.toNat / 64 ≠ 1 → s.v2.latch.fault = none → s.v2.qcount = 0#10 → s.v2.src.Offers [h] →
    nextUnit .v2 s = .next { s with v2 := { s.v2 with
      latch := ⟨some .unsupportedEncoding, h⟩, buf := [], src := s.v2.src.skip 1,
      port := some (.err .unsupportedEncoding h) } })

/-- `V2.DIRECT` (45_int_rle_v2.md rules R177 to R182): with the length byte and the whole payload there, the queue holds
the `L` values whose bits are the payload's, most significant first, the entries above them keep what they held, the
first value is delivered and `L − 1` are left; the pad bits may be anything and nothing else changes. That the entries
no value was written to keep theirs is assumption 16. -/
def Obligations.V2DirectStagesAndDelivers : Prop :=
  ∀ (w : BitVec 5) (l8 : BitVec 1) (s : State) (b1 : Byte) (payload : List Byte) (W L : Nat) (vals : List Word),
    s.cfg.wf = true →
    W = (s.cfg.bwt.getD w.toNat 0).toNat → L = (l8.toNat * 256 + b1.toNat) + 1 →
    payload.length = (W * L + 7) / 8 → s.v2.src.Offers (b1 :: payload) →
    vals.length = L →
    (∀ i, i < L → (vals.getD i 0).toNat < 2 ^ W ∧
      ∀ j, j < W → (vals.getD i 0).getLsbD (W - 1 - j) =
        (payload.getD ((i * W + j) / 8) 0).getLsbD (7 - (i * W + j) % 8)) →
    exec (.v2Direct w l8) s = .next { s with v2 := { s.v2 with
      q := vals ++ s.v2.q.drop L
      qhead := 1
      qcount := BitVec.ofNat 10 (L - 1)
      buf := []
      src := s.v2.src.skip (1 + payload.length)
      port := some (.value (vals.getD 0 0)) } }

/-- A Direct run cut short (45_int_rle_v2.md rule R183): the source ends or fails before the length byte or before the
last payload byte; the error latches with information 0, nothing is staged, and the position is where the failing read
found it. That `qhead` and the entries of `q` keep what they held is assumption 17. -/
def Obligations.V2DirectCutShortStagesNothing : Prop :=
  ∀ (w : BitVec 5) (l8 : BitVec 1) (s : State) (got : List Byte) (k : ErrKind),
    s.v2.src.Offers got →
    (((s.v2.src.skip got.length).AtEnd ∧ k = .truncation) ∨ ((s.v2.src.skip got.length).AtFailure ∧ k = .ioFailure)) →
    (got = [] ∨ got.length < 1 + payloadBytes (directWidth s.cfg w) (directLength l8 (got.getD 0 0))) →
    exec (.v2Direct w l8) s = .next { s with v2 := { s.v2 with
      latch := ⟨some k, 0⟩
      buf := []
      src := s.v2.src.skip got.length
      port := some (.err k 0) } }

/-- `Pop()` (45_int_rle_v2.md rule R171): a call that finds the queue non-empty delivers the front element, reads
nothing and changes nothing but the two pointers. That the popped entry keeps its bits is assumption 16, and that the
front of a drained queue may be 512 is assumption 15. -/
def Obligations.V2PopDeliversFront : Prop :=
  ∀ s : State, s.v2.latch.fault = none → s.v2.qcount ≠ 0#10 →
    nextUnit .v2 s = .next { s with v2 := { s.v2 with
      qhead := s.v2.qhead + 1#10
      qcount := s.v2.qcount - 1#10
      port := some (.value (s.v2.q.getD s.v2.qhead.toNat 0)) } }

/-- The two descriptions of extraction agree (45_int_rle_v2.md rule R189): the sum of the value's payload bits is the
big-endian integer of the bytes it touches, shifted right past the following value's bits, modulo `2^W`. -/
def Obligations.ExtractionByByteWindow : Prop :=
  ∀ (buf : List Byte) (W i : Nat), 1 ≤ W → i * W + W ≤ 8 * buf.length →
    extractNat buf W i =
      (bigEndian ((buf.drop (i * W / 8)).take ((i * W + W - 1) / 8 + 1 - i * W / 8)) >>>
        (8 * ((i * W + W - 1) / 8 + 1) - (i * W + W))) % 2 ^ W

/-- The end of a V2 stream (45_int_rle_v2.md rule R187): `Eos` exactly when no error is latched, the queue is empty and
the source is at its end where a header is due; no register changes, and the outcome repeats. -/
def Obligations.V2CleanEnd : Prop :=
  ∀ s : State, s.v2.src.Inv →
    ((∃ t, nextUnit .v2 s = .next t ∧ t.v2.port = some .eos) ↔
      (s.v2.latch.fault = none ∧ s.v2.qcount = 0#10 ∧ s.v2.src.AtEnd)) ∧
    (∀ t, nextUnit .v2 s = .next t → t.v2.port = some .eos →
      t = { s with v2 := { s.v2 with port := some .eos } } ∧ nextUnit .v2 t = .next t)

/-- The V2 stream, for any legal table (46_bitwidth_table.md rule R202): for any list of legal Direct runs bound to V2,
successive calls deliver their values in order, then `Eos`; and when a header byte with tag 00, 10 or 11 follows them,
whatever bytes follow it, the values before it stand and then `UnsupportedEncoding` with that header byte is answered
for ever (60_exceptions.md rules R219 and R225). -/
def Obligations.V2StreamRoundTrip : Prop :=
  ∀ (runs : List (BitVec 5 × List Word)) (s t : State) (k : Nat) (h : Byte) (more : List Byte), s.cfg.wf = true →
    (∀ r ∈ runs, (V2Line.direct r.1 r.2).wellFormed s.cfg.bwt = true) →
    (step { s with cmds := [.reset .v2 (runs.flatMap fun r => (V2Line.direct r.1 r.2).bytes s.cfg.bwt) none] } = .next t →
      outcomes .v2 (fun t => t.v2.port) k t = valuesThenEos (runs.flatMap Prod.snd) k) ∧
    (h.toNat / 64 ≠ 1 →
      step { s with cmds :=
        [.reset .v2 ((runs.flatMap fun r => (V2Line.direct r.1 r.2).bytes s.cfg.bwt) ++ h :: more) none] } = .next t →
      outcomes .v2 (fun t => t.v2.port) k t = valuesThenErr (runs.flatMap Prod.snd) .unsupportedEncoding h k)

/-! ## Commands, reset and the whole machine -/

/-- The fault latch is sticky (60_exceptions.md rule R219): a call of a faulted unit answers the latched error, reads
nothing and changes nothing but the response port; for BIT, with no byte loaded, the test is `BIT.B`'s. -/
def Obligations.FaultLatchIsSticky : Prop :=
  ∀ (s : State) (k : ErrKind),
    (s.byte.latch.fault = some k →
      nextUnit .byte s = .next { s with byte := { s.byte with port := some (.err k s.byte.latch.finfo) } }) ∧
    (s.bit.b.latch.fault = some k → s.bit.nbits = 0#4 →
      nextUnit .bit s = .next { s with bit := { s.bit with
        port := some (.err k s.bit.b.latch.finfo)
        b := { s.bit.b with port := some (.err k s.bit.b.latch.finfo) } } }) ∧
    (s.v1.latch.fault = some k →
      nextUnit .v1 s = .next { s with v1 := { s.v1 with port := some (.err k s.v1.latch.finfo) } }) ∧
    (s.v2.latch.fault = some k →
      nextUnit .v2 s = .next { s with v2 := { s.v2 with port := some (.err k s.v2.latch.finfo) } })

/-- `RESET(U)` in any state, with a source whose failure position, if any, is within it (70_reset_and_hazards.md rule
R240): the unit has the new source at position 0 and its registers at the values the spec gives; no other unit changes.
Of `val`, `delta`, `cur` and `q`, which the spec leaves unspecified, nothing is said. A source that is none is
assumption 8. -/
def Obligations.ResetBindsAndClears : Prop :=
  ∀ (s : State) (bytes : List Byte) (fail : Option Nat), legalFail bytes fail = true →
    (∃ d, resetUnit .byte bytes fail s = .next { s with byte := d } ∧ d.src = Source.bind bytes fail ∧ d.mode = .idle ∧
      d.cnt = 0#8 ∧ d.latch = ⟨none, 0⟩) ∧
    (∃ d, resetUnit .bit bytes fail s = .next { s with bit := d } ∧ d.b.src = Source.bind bytes fail ∧ d.b.mode = .idle ∧
      d.b.cnt = 0#8 ∧ d.b.latch = ⟨none, 0⟩ ∧ d.nbits = 0#4) ∧
    (∃ d, resetUnit .v1 bytes fail s = .next { s with v1 := d } ∧ d.src = Source.bind bytes fail ∧ d.mode = .idle ∧
      d.cnt = 0#8 ∧ d.latch = ⟨none, 0⟩) ∧
    (∃ d, resetUnit .v2 bytes fail s = .next { s with v2 := d } ∧ d.src = Source.bind bytes fail ∧ d.qhead = 0#10 ∧
      d.qcount = 0#10 ∧ d.latch = ⟨none, 0⟩)

/-- What reset leaves, the values the spec gives (10_state.md rule R34): every mode idle, every counter and pointer
zero, every latch clear, every position zero, no invocation of VARINT begun. That VARINT's registers stand between calls
is assumption 5. -/
def Obligations.ResetStateValues : Prop :=
  (∀ who, (State.reset.byteDec who).mode = .idle ∧ (State.reset.byteDec who).cnt = 0#8 ∧
    (State.reset.byteDec who).latch = ⟨none, 0⟩ ∧ (State.reset.byteDec who).src.pos = 0) ∧
  State.reset.bit.nbits = 0#4 ∧
  State.reset.v1.mode = .idle ∧ State.reset.v1.cnt = 0#8 ∧ State.reset.v1.latch = ⟨none, 0⟩ ∧
  State.reset.v1.src.pos = 0 ∧ State.reset.v1.vi.acc = 0#64 ∧ State.reset.v1.vi.shift = 0#7 ∧
  State.reset.v2.qhead = 0#10 ∧ State.reset.v2.qcount = 0#10 ∧ State.reset.v2.latch = ⟨none, 0⟩ ∧ State.reset.v2.src.pos = 0

/-- The state after reset meets the invariant of the block: what 10_state.md rules R12, R14, R16, R22, R23 and R26 and
20_memory.md rule R41 ask, and with it the model's own forms: BIT's byte is zero at reset (assumption 4), VARINT's
registers stand at their start (assumption 5), the packed buffer is empty (assumption 6), and sources are canonical
(assumption 7). -/
def Obligations.ResetMeetsInvariant : Prop := State.reset.Inv

/-- Every step keeps the invariant: the counters stay within their bounds and are zero exactly in the idle modes, the
low bits of BIT's byte stay zero, the queue keeps its entries and never wraps, positions and failure positions stay
within their sources, each unit latches only the kinds it can raise with the information it records, and an error leaves
V2's queue empty and no bit of BIT loaded (10_state.md rules R12, R14, R16, R18, R22, R23 and R26, 20_memory.md rule
R41, 43_bit_unpack.md rule R143, 60_exceptions.md rule R214). The model's own forms in it: the low bits of BIT's byte
are zero also after a `RESET`, which puts zero there (assumption 4), VARINT's registers stand at their start (assumption
5), the packed buffer is empty between calls (assumption 6), sources stay canonical (assumption 7), and the front of an
empty queue may be 512 (assumption 15). -/
def Obligations.StepKeepsInvariant : Prop := ∀ s t : State, s.Inv → step s = .next t → t.Inv

/-- A step runs the decoded instruction: where the unit commanded is about to read a leading byte, and the bytes left in
its source (for BIT, the byte its pipeline has delivered) decode to `i`, the step is `exec i` at the state with the
command taken and that byte consumed. An invocation of VARINT runs the group it reads, from a fresh accumulator. -/
def Obligations.StepRunsDecoded : Prop :=
  ∀ (s : State) (rest : List Command) (i : Instr) (more : List Byte),
    (s.cmds = .next .byte :: rest → s.byte.latch.fault = none → s.byte.mode = .idle → ¬ s.byte.src.AtFailure →
      decode (.byteRle .unit) s.byte.src.upcoming = .ok (i, more) →
      step s = exec i { s with cmds := rest, byte := { s.byte with src := s.byte.src.skip 1 } }) ∧
    (s.bit.b.latch.fault = none → s.bit.b.mode = .idle → ¬ s.bit.b.src.AtFailure →
      decode (.byteRle .bitB) s.bit.b.src.upcoming = .ok (i, more) →
      nextByteRle .bitB s = exec i { s with bit := { s.bit with b := { s.bit.b with src := s.bit.b.src.skip 1 } } }) ∧
    (∀ t b, s.cmds = .next .bit :: rest → s.bit.nbits = 0#4 → nextByteRle .bitB { s with cmds := rest } = .next t →
      t.bit.b.port = some (.value b) → decode .bit [b] = .ok (i, more) → step s = exec i t) ∧
    (s.cmds = .next .v1 :: rest → s.v1.latch.fault = none → s.v1.mode = .idle → ¬ s.v1.src.AtFailure →
      decode .v1 s.v1.src.upcoming = .ok (i, more) →
      step s = exec i { s with cmds := rest, v1 := { s.v1 with src := s.v1.src.skip 1 } }) ∧
    (s.cmds = .next .v2 :: rest → s.v2.latch.fault = none → s.v2.qcount = 0#10 → ¬ s.v2.src.AtFailure →
      decode .v2 s.v2.src.upcoming = .ok (i, more) →
      step s = exec i { s with cmds := rest, v2 := { s.v2 with src := s.v2.src.skip 1 } }) ∧
    (¬ s.v1.src.AtFailure → decode .varint s.v1.src.upcoming = .ok (i, more) →
      exec i { s with v1 := { s.v1 with src := s.v1.src.skip 1, vi := VarintRegs.start } } =
        .next { s with v1 := s.v1.varintDecode s.cfg })

/-- With no command pending nothing moves; a pending command is taken and carried out on its unit (60_exceptions.md
rules R223 and R224; the queue of commands is the model's own, assumption 1). -/
def Obligations.StepTakesOneCommand : Prop :=
  ∀ s : State,
    (s.cmds = [] → step s = .next s) ∧
    (∀ u rest, s.cmds = .next u :: rest → step s = nextUnit u { s with cmds := rest }) ∧
    (∀ u bytes fail rest, s.cmds = .reset u bytes fail :: rest →
      step s = resetUnit u bytes fail { s with cmds := rest })

/-- Every instruction completes: under the default `wrap`, from every state, `exec` answers a next state. That it is so
in every state, also where the unit would not have fetched the instruction, is assumption 12; that every read is
answered is assumption 14 (70_reset_and_hazards.md rules R247 and R252). -/
def Obligations.ExecAlwaysAnswers : Prop :=
  ∀ (i : Instr) (s : State), s.cfg.v1Add = .wrap → ∃ t, exec i s = .next t

/-- Every `NEXT` answers, and with exactly one outcome on the unit's port (60_exceptions.md rule R210): under the
default `wrap`, from every state, the call ends in a next state whose port holds an outcome. That every read is answered
is assumption 14 (70_reset_and_hazards.md rules R247 and R252), and that the outcome stands on the port after the call
is assumption 9. -/
def Obligations.NextAlwaysAnswers : Prop :=
  ∀ (u : UnitId) (s : State), s.cfg.v1Add = .wrap →
    ∃ t, nextUnit u s = .next t ∧
      (match u with
        | .byte => t.byte.port ≠ none
        | .bit => t.bit.port ≠ none
        | .v1 => t.v1.port ≠ none
        | .v2 => t.v2.port ≠ none)

/-- The frame of every instruction: it changes nothing but the unit of its reader, and of that unit's source only the
position, which does not fall; every byte of every source reads as before (10_state.md rules R10 and R27, 20_memory.md
rules R42, R47 and R57). -/
def Obligations.ExecFrame : Prop :=
  ∀ (i : Instr) (s t : State), exec i s = .next t →
    match i.reader with
    | .byteRle .unit => t = { s with byte := t.byte } ∧
        t.byte.src = { s.byte.src with pos := t.byte.src.pos } ∧ s.byte.src.pos ≤ t.byte.src.pos
    | .byteRle .bitB => t = { s with bit := { s.bit with b := t.bit.b } } ∧
        t.bit.b.src = { s.bit.b.src with pos := t.bit.b.src.pos } ∧ s.bit.b.src.pos ≤ t.bit.b.src.pos
    | .bit => t = { s with bit := { s.bit with cur := t.bit.cur, nbits := t.bit.nbits, port := t.bit.port } }
    | .v1 => t = { s with v1 := t.v1 } ∧
        t.v1.src = { s.v1.src with pos := t.v1.src.pos } ∧ s.v1.src.pos ≤ t.v1.src.pos
    | .v2 => t = { s with v2 := t.v2 } ∧
        t.v2.src = { s.v2.src with pos := t.v2.src.pos } ∧ s.v2.src.pos ≤ t.v2.src.pos
    | .varint => t = { s with v1 := { s.v1 with src := t.v1.src, vi := t.v1.vi } } ∧
        t.v1.src = { s.v1.src with pos := t.v1.src.pos } ∧ s.v1.src.pos ≤ t.v1.src.pos

/-- A call of one unit touches no other unit, no configuration and no pending command (10_state.md rules R10 and
R29). -/
def Obligations.NextTouchesOneUnit : Prop :=
  ∀ (u : UnitId) (s t : State), nextUnit u s = .next t →
    t.cfg = s.cfg ∧ t.cmds = s.cmds ∧ (u ≠ .byte → t.byte = s.byte) ∧ (u ≠ .bit → t.bit = s.bit) ∧
      (u ≠ .v1 → t.v1 = s.v1) ∧ (u ≠ .v2 → t.v2 = s.v2)

/-- Steps of different units commute (10_state.md rule R33, 60_exceptions.md rule R224): two pending commands to
different units may be exchanged without changing the state after both. -/
def Obligations.UnitsCommute : Prop :=
  ∀ (c c' : Command) (s t : State), (∀ u, (c = .next u ∨ ∃ b f, c = .reset u b f) →
      ¬ (c' = .next u ∨ ∃ b f, c' = .reset u b f)) →
    Host.Core.run core 2 { s with cmds := [c, c'] } = .next t →
    Host.Core.run core 2 { s with cmds := [c', c] } = .next t

/-- A delivered value depends only on the bytes consumed (60_exceptions.md rule R225), for BYTE, BIT, V1 and V2: a call
that delivers a value delivers the same value, and leaves the same registers, over any source that agrees up to the
position the call ends at and does not fail before it. BIT's source is that of `BIT.B`. -/
def Obligations.ValuesDependOnConsumedBytes : Prop :=
  ∀ (s t : State) (src : Source),
    (∀ v, nextUnit .byte s = .next t → t.byte.port = some (.value v) → s.byte.src.AgreeBelow src t.byte.src.pos →
      nextUnit .byte { s with byte := { s.byte with src := src } } =
        .next { t with byte := { t.byte with src := { src with pos := t.byte.src.pos } } }) ∧
    (∀ v, nextUnit .bit s = .next t → t.bit.port = some (.value v) → s.bit.b.src.AgreeBelow src t.bit.b.src.pos →
      nextUnit .bit { s with bit := { s.bit with b := { s.bit.b with src := src } } } =
        .next { t with bit := { t.bit with b := { t.bit.b with src := { src with pos := t.bit.b.src.pos } } } }) ∧
    (∀ v, nextUnit .v1 s = .next t → t.v1.port = some (.value v) → s.v1.src.AgreeBelow src t.v1.src.pos →
      nextUnit .v1 { s with v1 := { s.v1 with src := src } } =
        .next { t with v1 := { t.v1 with src := { src with pos := t.v1.src.pos } } }) ∧
    (∀ v, nextUnit .v2 s = .next t → t.v2.port = some (.value v) → s.v2.src.AgreeBelow src t.v2.src.pos →
      nextUnit .v2 { s with v2 := { s.v2 with src := src } } =
        .next { t with v2 := { t.v2 with src := { src with pos := t.v2.src.pos } } })

/-- The wires of a response port (10_state.md rule R31): status 0, 1 or 2, the value on `data` with unused high bits
zero, and `data`, `err` and `info` zero where they carry nothing. -/
def Obligations.ResponseWires : Prop :=
  (∀ b : Byte, wires byteData (.value b) = ⟨0, BitVec.ofNat 64 b.toNat, 0, 0⟩) ∧
  (∀ b : Bool, wires bitData (.value b) = ⟨0, if b then 1 else 0, 0, 0⟩) ∧
  (∀ v : Word, wires wordData (.value v) = ⟨0, v, 0, 0⟩) ∧
  (∀ (α : Type) (data : α → BitVec 64), wires data .eos = ⟨1, 0, 0, 0⟩) ∧
  (∀ (α : Type) (data : α → BitVec 64) (k : ErrKind) (info : Byte), wires data (.err k info) = ⟨2, 0, errCode k, info⟩) ∧
  errCode .ioFailure = 1 ∧ errCode .truncation = 2 ∧ errCode .unsupportedEncoding = 3 ∧ errCode .malformedVarint = 4

/-- The signed view of a 64-bit value (00_scope.md rule R6, 10_state.md rule R36): the same bits, `u` when `u < 2^63`,
else `u − 2^64`. -/
def Obligations.SignedViewReinterprets : Prop :=
  ∀ u : Word, asI64 u = if u.toNat < 2 ^ 63 then (u.toNat : Int) else (u.toNat : Int) - 2 ^ 64
end

