-- ==== Sys2Proof/Laws/State.lean ====
section
/-! SUPPORT. One lemma per field for each update of the state, so that no later proof unfolds one. -/

namespace Sys2Proof.Machine

/-! The byte-RLE decoders of a state. -/

@[simp] theorem State.byteDec_unit (s : State) : s.byteDec .unit = s.byte := rfl
@[simp] theorem State.byteDec_bitB (s : State) : s.byteDec .bitB = s.bit.b := rfl
@[simp] theorem State.setByteDec_unit (s : State) (d : ByteDec) : s.setByteDec .unit d = { s with byte := d } := rfl
@[simp] theorem State.setByteDec_bitB (s : State) (d : ByteDec) :
    s.setByteDec .bitB d = { s with bit := { s.bit with b := d } } := rfl
@[simp] theorem State.byteDec_setByteDec (s : State) (who : ByteInst) (d : ByteDec) :
    (s.setByteDec who d).byteDec who = d := by cases who <;> rfl
@[simp] theorem State.setByteDec_setByteDec (s : State) (who : ByteInst) (d d' : ByteDec) :
    (s.setByteDec who d).setByteDec who d' = s.setByteDec who d' := by cases who <;> rfl
@[simp] theorem State.setByteDec_byteDec (s : State) (who : ByteInst) : s.setByteDec who (s.byteDec who) = s := by
  cases who <;> rfl
@[simp] theorem State.setByteDec_cfg (s : State) (who : ByteInst) (d : ByteDec) : (s.setByteDec who d).cfg = s.cfg := by
  cases who <;> rfl
@[simp] theorem State.setByteDec_v1 (s : State) (who : ByteInst) (d : ByteDec) : (s.setByteDec who d).v1 = s.v1 := by
  cases who <;> rfl
@[simp] theorem State.setByteDec_v2 (s : State) (who : ByteInst) (d : ByteDec) : (s.setByteDec who d).v2 = s.v2 := by
  cases who <;> rfl
@[simp] theorem State.setByteDec_cmds (s : State) (who : ByteInst) (d : ByteDec) : (s.setByteDec who d).cmds = s.cmds := by
  cases who <;> rfl

/-! What a part of V1's step makes of the state. -/

@[simp] theorem State.withV1_next (s : State) (u : V1Unit) : s.withV1 (.next u) = .next { s with v1 := u } := rfl
@[simp] theorem State.withV1_fault (s : State) (r : Fault) : s.withV1 (.fault r) = .fault r := rfl
@[simp] theorem State.withV1_refused (s : State) (r : Refusal) : s.withV1 (.refused r) = .refused r := rfl

/-! Moving a source on. -/
@[simp] theorem Source.skip_mem (k : Nat) (u : Source) : (u.skip k).mem = u.mem := rfl
@[simp] theorem Source.skip_len (k : Nat) (u : Source) : (u.skip k).len = u.len := rfl
@[simp] theorem Source.skip_pos (k : Nat) (u : Source) : (u.skip k).pos = u.pos + k := rfl
@[simp] theorem Source.skip_fail (k : Nat) (u : Source) : (u.skip k).fail = u.fail := rfl

/-! Answering a call of a ByteDec. -/
@[simp] theorem ByteDec.answer_mode (r : Result Byte) (u : ByteDec) : (u.answer r).mode = u.mode := rfl
@[simp] theorem ByteDec.answer_cnt (r : Result Byte) (u : ByteDec) : (u.answer r).cnt = u.cnt := rfl
@[simp] theorem ByteDec.answer_val (r : Result Byte) (u : ByteDec) : (u.answer r).val = u.val := rfl
@[simp] theorem ByteDec.answer_latch (r : Result Byte) (u : ByteDec) : (u.answer r).latch = u.latch := rfl
@[simp] theorem ByteDec.answer_src (r : Result Byte) (u : ByteDec) : (u.answer r).src = u.src := rfl
@[simp] theorem ByteDec.answer_port (r : Result Byte) (u : ByteDec) : (u.answer r).port = some r := rfl
@[simp] theorem ByteDec.answer_fresh (r : Result Byte) (u : ByteDec) : (u.answer r).fresh = u.fresh := rfl

/-! Answering a call of a BitUnit. -/
@[simp] theorem BitUnit.answer_b (r : Result Bool) (u : BitUnit) : (u.answer r).b = u.b := rfl
@[simp] theorem BitUnit.answer_cur (r : Result Bool) (u : BitUnit) : (u.answer r).cur = u.cur := rfl
@[simp] theorem BitUnit.answer_nbits (r : Result Bool) (u : BitUnit) : (u.answer r).nbits = u.nbits := rfl
@[simp] theorem BitUnit.answer_port (r : Result Bool) (u : BitUnit) : (u.answer r).port = some r := rfl

/-! Answering a call of a V1Unit. -/
@[simp] theorem V1Unit.answer_mode (r : Result Word) (u : V1Unit) : (u.answer r).mode = u.mode := rfl
@[simp] theorem V1Unit.answer_cnt (r : Result Word) (u : V1Unit) : (u.answer r).cnt = u.cnt := rfl
@[simp] theorem V1Unit.answer_val (r : Result Word) (u : V1Unit) : (u.answer r).val = u.val := rfl
@[simp] theorem V1Unit.answer_delta (r : Result Word) (u : V1Unit) : (u.answer r).delta = u.delta := rfl
@[simp] theorem V1Unit.answer_latch (r : Result Word) (u : V1Unit) : (u.answer r).latch = u.latch := rfl
@[simp] theorem V1Unit.answer_src (r : Result Word) (u : V1Unit) : (u.answer r).src = u.src := rfl
@[simp] theorem V1Unit.answer_vi (r : Result Word) (u : V1Unit) : (u.answer r).vi = u.vi := rfl
@[simp] theorem V1Unit.answer_port (r : Result Word) (u : V1Unit) : (u.answer r).port = some r := rfl
@[simp] theorem V1Unit.answer_fresh (r : Result Word) (u : V1Unit) : (u.answer r).fresh = u.fresh := rfl

/-! Answering a call of a V2Unit. -/
@[simp] theorem V2Unit.answer_q (r : Result Word) (u : V2Unit) : (u.answer r).q = u.q := rfl
@[simp] theorem V2Unit.answer_qhead (r : Result Word) (u : V2Unit) : (u.answer r).qhead = u.qhead := rfl
@[simp] theorem V2Unit.answer_qcount (r : Result Word) (u : V2Unit) : (u.answer r).qcount = u.qcount := rfl
@[simp] theorem V2Unit.answer_buf (r : Result Word) (u : V2Unit) : (u.answer r).buf = u.buf := rfl
@[simp] theorem V2Unit.answer_latch (r : Result Word) (u : V2Unit) : (u.answer r).latch = u.latch := rfl
@[simp] theorem V2Unit.answer_src (r : Result Word) (u : V2Unit) : (u.answer r).src = u.src := rfl
@[simp] theorem V2Unit.answer_port (r : Result Word) (u : V2Unit) : (u.answer r).port = some r := rfl

/-! Taking an error in a byte-RLE decoder. -/
@[simp] theorem ByteDec.raise_mode (who : ByteInst) (k : ErrKind) (info : Byte) (u : ByteDec) : (u.raise who k info).mode = Config.freeByteMode who u.fresh := rfl
@[simp] theorem ByteDec.raise_cnt (who : ByteInst) (k : ErrKind) (info : Byte) (u : ByteDec) : (u.raise who k info).cnt = Config.freeByteCnt who u.fresh := rfl
@[simp] theorem ByteDec.raise_val (who : ByteInst) (k : ErrKind) (info : Byte) (u : ByteDec) : (u.raise who k info).val = Config.freeByteVal who u.fresh := rfl
@[simp] theorem ByteDec.raise_latch (who : ByteInst) (k : ErrKind) (info : Byte) (u : ByteDec) : (u.raise who k info).latch = ⟨some k, info⟩ := rfl
@[simp] theorem ByteDec.raise_src (who : ByteInst) (k : ErrKind) (info : Byte) (u : ByteDec) : (u.raise who k info).src = u.src := rfl
@[simp] theorem ByteDec.raise_port (who : ByteInst) (k : ErrKind) (info : Byte) (u : ByteDec) : (u.raise who k info).port = some (.err k info) := rfl
@[simp] theorem ByteDec.raise_fresh (who : ByteInst) (k : ErrKind) (info : Byte) (u : ByteDec) : (u.raise who k info).fresh = u.fresh + 1 := rfl

/-! Taking an error in V1. -/
@[simp] theorem V1Unit.raise_mode (k : ErrKind) (info : Byte) (u : V1Unit) : (u.raise k info).mode = Config.freeV1Mode u.fresh := rfl
@[simp] theorem V1Unit.raise_cnt (k : ErrKind) (info : Byte) (u : V1Unit) : (u.raise k info).cnt = Config.freeV1Cnt u.fresh := rfl
@[simp] theorem V1Unit.raise_val (k : ErrKind) (info : Byte) (u : V1Unit) : (u.raise k info).val = Config.freeV1Val u.fresh := rfl
@[simp] theorem V1Unit.raise_delta (k : ErrKind) (info : Byte) (u : V1Unit) : (u.raise k info).delta = Config.freeV1Delta u.fresh := rfl
@[simp] theorem V1Unit.raise_latch (k : ErrKind) (info : Byte) (u : V1Unit) : (u.raise k info).latch = ⟨some k, info⟩ := rfl
@[simp] theorem V1Unit.raise_src (k : ErrKind) (info : Byte) (u : V1Unit) : (u.raise k info).src = u.src := rfl
@[simp] theorem V1Unit.raise_vi (k : ErrKind) (info : Byte) (u : V1Unit) : (u.raise k info).vi = VarintRegs.start := rfl
@[simp] theorem V1Unit.raise_port (k : ErrKind) (info : Byte) (u : V1Unit) : (u.raise k info).port = some (.err k info) := rfl
@[simp] theorem V1Unit.raise_fresh (k : ErrKind) (info : Byte) (u : V1Unit) : (u.raise k info).fresh = u.fresh + 1 := rfl

/-! Taking an error in V2. -/
@[simp] theorem V2Unit.raise_q (k : ErrKind) (info : Byte) (u : V2Unit) : (u.raise k info).q = u.q := rfl
@[simp] theorem V2Unit.raise_qhead (k : ErrKind) (info : Byte) (u : V2Unit) : (u.raise k info).qhead = u.qhead := rfl
@[simp] theorem V2Unit.raise_qcount (k : ErrKind) (info : Byte) (u : V2Unit) : (u.raise k info).qcount = u.qcount := rfl
@[simp] theorem V2Unit.raise_buf (k : ErrKind) (info : Byte) (u : V2Unit) : (u.raise k info).buf = [] := rfl
@[simp] theorem V2Unit.raise_latch (k : ErrKind) (info : Byte) (u : V2Unit) : (u.raise k info).latch = ⟨some k, info⟩ := rfl
@[simp] theorem V2Unit.raise_src (k : ErrKind) (info : Byte) (u : V2Unit) : (u.raise k info).src = u.src := rfl
@[simp] theorem V2Unit.raise_port (k : ErrKind) (info : Byte) (u : V2Unit) : (u.raise k info).port = some (.err k info) := rfl

/-! One value fewer in a byte-RLE decoder. -/
@[simp] theorem ByteDec.countDown_mode (u : ByteDec) : (u.countDown).mode = (if u.cnt - 1#8 = 0#8 then .idle else u.mode) := rfl
@[simp] theorem ByteDec.countDown_cnt (u : ByteDec) : (u.countDown).cnt = u.cnt - 1#8 := rfl
@[simp] theorem ByteDec.countDown_val (u : ByteDec) : (u.countDown).val = u.val := rfl
@[simp] theorem ByteDec.countDown_latch (u : ByteDec) : (u.countDown).latch = u.latch := rfl
@[simp] theorem ByteDec.countDown_src (u : ByteDec) : (u.countDown).src = u.src := rfl
@[simp] theorem ByteDec.countDown_port (u : ByteDec) : (u.countDown).port = u.port := rfl
@[simp] theorem ByteDec.countDown_fresh (u : ByteDec) : (u.countDown).fresh = u.fresh := rfl

/-! One value fewer in V1. -/
@[simp] theorem V1Unit.countDown_mode (u : V1Unit) : (u.countDown).mode = (if u.cnt - 1#8 = 0#8 then .idle else u.mode) := rfl
@[simp] theorem V1Unit.countDown_cnt (u : V1Unit) : (u.countDown).cnt = u.cnt - 1#8 := rfl
@[simp] theorem V1Unit.countDown_val (u : V1Unit) : (u.countDown).val = u.val := rfl
@[simp] theorem V1Unit.countDown_delta (u : V1Unit) : (u.countDown).delta = u.delta := rfl
@[simp] theorem V1Unit.countDown_latch (u : V1Unit) : (u.countDown).latch = u.latch := rfl
@[simp] theorem V1Unit.countDown_src (u : V1Unit) : (u.countDown).src = u.src := rfl
@[simp] theorem V1Unit.countDown_vi (u : V1Unit) : (u.countDown).vi = u.vi := rfl
@[simp] theorem V1Unit.countDown_port (u : V1Unit) : (u.countDown).port = u.port := rfl
@[simp] theorem V1Unit.countDown_fresh (u : V1Unit) : (u.countDown).fresh = u.fresh := rfl

/-! VARINT's return. -/
@[simp] theorem V1Unit.varintReturn_mode (r : VarintResult) (u : V1Unit) : (u.varintReturn r).mode = u.mode := rfl
@[simp] theorem V1Unit.varintReturn_cnt (r : VarintResult) (u : V1Unit) : (u.varintReturn r).cnt = u.cnt := rfl
@[simp] theorem V1Unit.varintReturn_val (r : VarintResult) (u : V1Unit) : (u.varintReturn r).val = u.val := rfl
@[simp] theorem V1Unit.varintReturn_delta (r : VarintResult) (u : V1Unit) : (u.varintReturn r).delta = u.delta := rfl
@[simp] theorem V1Unit.varintReturn_latch (r : VarintResult) (u : V1Unit) : (u.varintReturn r).latch = u.latch := rfl
@[simp] theorem V1Unit.varintReturn_src (r : VarintResult) (u : V1Unit) : (u.varintReturn r).src = u.src := rfl
@[simp] theorem V1Unit.varintReturn_vi (r : VarintResult) (u : V1Unit) : (u.varintReturn r).vi = ⟨u.vi.acc, u.vi.shift, r⟩ := rfl
@[simp] theorem V1Unit.varintReturn_port (r : VarintResult) (u : V1Unit) : (u.varintReturn r).port = u.port := rfl
@[simp] theorem V1Unit.varintReturn_fresh (r : VarintResult) (u : V1Unit) : (u.varintReturn r).fresh = u.fresh := rfl

/-! Taking in a varint group. -/
@[simp] theorem V1Unit.accumulate_mode (d : BitVec 7) (u : V1Unit) : (u.accumulate d).mode = u.mode := rfl
@[simp] theorem V1Unit.accumulate_cnt (d : BitVec 7) (u : V1Unit) : (u.accumulate d).cnt = u.cnt := rfl
@[simp] theorem V1Unit.accumulate_val (d : BitVec 7) (u : V1Unit) : (u.accumulate d).val = u.val := rfl
@[simp] theorem V1Unit.accumulate_delta (d : BitVec 7) (u : V1Unit) : (u.accumulate d).delta = u.delta := rfl
@[simp] theorem V1Unit.accumulate_latch (d : BitVec 7) (u : V1Unit) : (u.accumulate d).latch = u.latch := rfl
@[simp] theorem V1Unit.accumulate_src (d : BitVec 7) (u : V1Unit) : (u.accumulate d).src = u.src := rfl
@[simp] theorem V1Unit.accumulate_vi (d : BitVec 7) (u : V1Unit) : (u.accumulate d).vi = ⟨u.vi.acc ||| groupBits d u.vi.shift, u.vi.shift + 7#7, u.vi.ret⟩ := rfl
@[simp] theorem V1Unit.accumulate_port (d : BitVec 7) (u : V1Unit) : (u.accumulate d).port = u.port := rfl
@[simp] theorem V1Unit.accumulate_fresh (d : BitVec 7) (u : V1Unit) : (u.accumulate d).fresh = u.fresh := rfl

/-! Filling the staging queue. -/
@[simp] theorem V2Unit.stage_q (vals : List Word) (u : V2Unit) : (u.stage vals).q = vals ++ u.q.drop vals.length := rfl
@[simp] theorem V2Unit.stage_qhead (vals : List Word) (u : V2Unit) : (u.stage vals).qhead = 0#10 := rfl
@[simp] theorem V2Unit.stage_qcount (vals : List Word) (u : V2Unit) : (u.stage vals).qcount = BitVec.ofNat 10 vals.length := rfl
@[simp] theorem V2Unit.stage_buf (vals : List Word) (u : V2Unit) : (u.stage vals).buf = u.buf := rfl
@[simp] theorem V2Unit.stage_latch (vals : List Word) (u : V2Unit) : (u.stage vals).latch = u.latch := rfl
@[simp] theorem V2Unit.stage_src (vals : List Word) (u : V2Unit) : (u.stage vals).src = u.src := rfl
@[simp] theorem V2Unit.stage_port (vals : List Word) (u : V2Unit) : (u.stage vals).port = u.port := rfl

/-! Popping the staging queue. -/
@[simp] theorem V2Unit.pop_q (u : V2Unit) : (u.pop).q = u.q := rfl
@[simp] theorem V2Unit.pop_qhead (u : V2Unit) : (u.pop).qhead = u.qhead + 1#10 := rfl
@[simp] theorem V2Unit.pop_qcount (u : V2Unit) : (u.pop).qcount = u.qcount - 1#10 := rfl
@[simp] theorem V2Unit.pop_buf (u : V2Unit) : (u.pop).buf = u.buf := rfl
@[simp] theorem V2Unit.pop_latch (u : V2Unit) : (u.pop).latch = u.latch := rfl
@[simp] theorem V2Unit.pop_src (u : V2Unit) : (u.pop).src = u.src := rfl
@[simp] theorem V2Unit.pop_port (u : V2Unit) : (u.pop).port = some (.value (u.q.getD u.qhead.toNat 0)) := rfl

/-! Delivering one boolean. -/
@[simp] theorem BitUnit.deliver_b (u : BitUnit) : (u.deliver).b = u.b := rfl
@[simp] theorem BitUnit.deliver_cur (u : BitUnit) : (u.deliver).cur = u.cur <<< 1 := rfl
@[simp] theorem BitUnit.deliver_nbits (u : BitUnit) : (u.deliver).nbits = u.nbits - 1#4 := rfl
@[simp] theorem BitUnit.deliver_port (u : BitUnit) : (u.deliver).port = some (.value (u.cur[7])) := rfl

end Sys2Proof.Machine
end

