-- ==== Sys2Proof/Laws/Ops.lean ====
section
/-! SUPPORT. What each shared operation can do, said once: the read primitives, the memory's canonical form, passing over
empty runs, ending a call, and reading a payload. -/

namespace Sys2Proof.Machine

/-! The canonical form of a memory. -/

theorem Memory.wfFrom_mono {lo lo' : Nat} (h : lo' ≤ lo) : ∀ {m : Memory}, wfFrom lo m = true → wfFrom lo' m = true
  | [], _ => rfl
  | (a, b) :: m, hm => by
    simp only [wfFrom, Bool.and_eq_true, decide_eq_true_eq] at hm ⊢
    exact ⟨⟨by omega, hm.1.2⟩, hm.2⟩

/-- The memory of a byte sequence is canonical. -/
theorem Memory.ofBytesFrom_wfFrom : ∀ (bs : List Byte) (a : Nat), wfFrom a (ofBytesFrom a bs) = true
  | [], _ => rfl
  | b :: bs, a => by
    have h := ofBytesFrom_wfFrom bs (a + 1)
    by_cases hb : b = unlisted
    · simpa [ofBytesFrom, hb] using wfFrom_mono (by omega) h
    · simp [ofBytesFrom, hb, wfFrom, h]

theorem Memory.ofBytes_wf (bs : List Byte) : (ofBytes bs).wf = true := ofBytesFrom_wfFrom bs 0

/-- What the memory of a byte sequence reads as: its bytes from the first position on, zero everywhere else. -/
theorem Memory.read_ofBytesFrom : ∀ (bs : List Byte) (p a : Nat),
    (ofBytesFrom p bs).read a = if p ≤ a then bs.getD (a - p) unlisted else unlisted
  | [], p, a => by simp [ofBytesFrom, read]
  | b :: bs, p, a => by
    have ih := read_ofBytesFrom bs (p + 1) a
    rcases Nat.lt_trichotomy a p with h | h | h
    · have h1 : ¬ p ≤ a := by omega
      have h2 : ¬ p + 1 ≤ a := by omega
      have h3 : a ≠ p := by omega
      by_cases hb : b = unlisted <;> simp [ofBytesFrom, read, hb, ih, h1, h2, h3]
    · subst h
      have h2 : ¬ a + 1 ≤ a := by omega
      by_cases hb : b = unlisted <;> simp [ofBytesFrom, read, hb, ih, h2]
    · have h1 : p ≤ a := by omega
      have h2 : p + 1 ≤ a := by omega
      have h3 : a ≠ p := by omega
      have h4 : a - p = (a - (p + 1)) + 1 := by omega
      by_cases hb : b = unlisted <;> simp [ofBytesFrom, read, hb, ih, h1, h2, h3, h4]

/-- The part of a memory below a position, followed by a byte sequence from there on, is canonical. -/
theorem Memory.splice_wfFrom (p : Nat) (bs : List Byte) : ∀ {m : Memory} {lo : Nat}, wfFrom lo m = true → lo ≤ p →
    wfFrom lo (m.filter (fun cell => cell.1 < p) ++ ofBytesFrom p bs) = true
  | [], lo, _, h => by simpa using wfFrom_mono h (ofBytesFrom_wfFrom bs p)
  | (a, b) :: m, lo, hm, h => by
    have hm' := hm
    simp only [wfFrom, Bool.and_eq_true, decide_eq_true_eq] at hm'
    obtain ⟨⟨hlo, hb⟩, hrest⟩ := hm'
    by_cases ha : a < p
    · have := splice_wfFrom p bs hrest (by omega)
      simp [ha, wfFrom, hlo, hb, this]
    · have := splice_wfFrom p bs (wfFrom_mono (lo' := lo) (by omega) hrest) h
      simpa [List.filter_cons, ha] using this

/-- Feeding a source keeps its memory canonical. -/
theorem Source.feed_wf (bytes : List Byte) (room : Nat) {s : Source} (h : s.mem.wf = true) :
    (s.feed bytes room).mem.wf = true := Memory.splice_wfFrom s.pos bytes h (Nat.zero_le _)

/-! The read primitives. -/

/-- Everything `srcRead` can answer, with the condition for each. -/
theorem srcRead_cases (s : Source) :
    (s.AtFailure ∧ srcRead s = (.ioErr, s)) ∨
    (¬ s.AtFailure ∧ s.len ≤ s.pos ∧ srcRead s = (.endOfInput, s)) ∨
    (¬ s.AtFailure ∧ s.pos < s.len ∧ srcRead s = (.byte (s.mem.read s.pos), s.skip 1)) := by
  by_cases hf : s.fail = some s.pos
  · exact .inl ⟨hf, by simp [srcRead, hf]⟩
  · by_cases hl : s.len ≤ s.pos
    · exact .inr (.inl ⟨hf, hl, by simp [srcRead, hf, hl]⟩)
    · exact .inr (.inr ⟨hf, by omega, by simp [srcRead, hf, hl, Source.skip]⟩)

/-- Everything `readFirst` can answer. -/
theorem readFirst_cases (s : Source) :
    (s.AtFailure ∧ readFirst s = .error (.raise .ioFailure 0)) ∨
    (¬ s.AtFailure ∧ s.len ≤ s.pos ∧ readFirst s = .error .eos) ∨
    (¬ s.AtFailure ∧ s.pos < s.len ∧ readFirst s = .ok (s.mem.read s.pos, s.skip 1)) := by
  obtain ⟨hf, h⟩ | ⟨hf, hl, h⟩ | ⟨hf, hl, h⟩ := srcRead_cases s
  · exact .inl ⟨hf, by simp [readFirst, h]⟩
  · exact .inr (.inl ⟨hf, hl, by simp [readFirst, h]⟩)
  · exact .inr (.inr ⟨hf, hl, by simp [readFirst, h]⟩)

/-- Everything `readMore` can answer. -/
theorem readMore_cases (s : Source) :
    (s.AtFailure ∧ readMore s = .error (.raise .ioFailure 0)) ∨
    (¬ s.AtFailure ∧ s.len ≤ s.pos ∧ readMore s = .error (.raise .truncation 0)) ∨
    (¬ s.AtFailure ∧ s.pos < s.len ∧ readMore s = .ok (s.mem.read s.pos, s.skip 1)) := by
  obtain ⟨hf, h⟩ | ⟨hf, hl, h⟩ | ⟨hf, hl, h⟩ := srcRead_cases s
  · exact .inl ⟨hf, by simp [readMore, h]⟩
  · exact .inr (.inl ⟨hf, hl, by simp [readMore, h]⟩)
  · exact .inr (.inr ⟨hf, hl, by simp [readMore, h]⟩)

theorem srcRead_offers {s : Source} {b : Byte} (h : s.Offers [b]) : srcRead s = (.byte b, s.skip 1) := by
  have h0 := h.2 0 (by simp)
  simp only [Nat.add_zero, List.getD_cons_zero] at h0
  have hl : s.pos < s.len := by have := h.1; simp at this; omega
  have hl' : ¬ s.len ≤ s.pos := by omega
  simp [srcRead, h0.1, hl', h0.2, Source.skip]

theorem readFirst_offers {s : Source} {b : Byte} (h : s.Offers [b]) : readFirst s = .ok (b, s.skip 1) := by
  simp [readFirst, srcRead_offers h]

theorem readMore_offers {s : Source} {b : Byte} (h : s.Offers [b]) : readMore s = .ok (b, s.skip 1) := by
  simp [readMore, srcRead_offers h]

theorem srcRead_atEnd {s : Source} (h : s.AtEnd) : srcRead s = (.endOfInput, s) := by
  have hl : s.len ≤ s.pos := by simp [h.1]
  simp [srcRead, h.2, hl]

theorem readFirst_atEnd {s : Source} (h : s.AtEnd) : readFirst s = .error .eos := by
  simp [readFirst, srcRead_atEnd h]

theorem readMore_atEnd {s : Source} (h : s.AtEnd) : readMore s = .error (.raise .truncation 0) := by
  simp [readMore, srcRead_atEnd h]

theorem srcRead_atFailure {s : Source} (h : s.AtFailure) : srcRead s = (.ioErr, s) := by
  simp [srcRead, show s.fail = some s.pos from h]

theorem readFirst_atFailure {s : Source} (h : s.AtFailure) : readFirst s = .error (.raise .ioFailure 0) := by
  simp [readFirst, srcRead_atFailure h]

theorem readMore_atFailure {s : Source} (h : s.AtFailure) : readMore s = .error (.raise .ioFailure 0) := by
  simp [readMore, srcRead_atFailure h]

@[simp] theorem Source.skip_zero (s : Source) : s.skip 0 = s := rfl
@[simp] theorem Source.skip_skip (s : Source) (j k : Nat) : (s.skip j).skip k = s.skip (j + k) := by
  simp [Source.skip, Nat.add_assoc]

@[simp] theorem Source.offers_nil {s : Source} : s.Offers [] ↔ s.pos ≤ s.len := by simp [Source.Offers]

/-- What a source offers is its first byte, and the rest from the next position on. -/
theorem Source.offers_cons {s : Source} {b : Byte} {bs : List Byte} :
    s.Offers (b :: bs) ↔ s.Offers [b] ∧ (s.skip 1).Offers bs := by
  constructor
  · rintro ⟨hl, h⟩
    simp only [List.length_cons] at hl
    refine ⟨⟨by simp; omega, fun k hk => ?_⟩, ⟨by simp; omega, fun k hk => ?_⟩⟩
    · obtain rfl : k = 0 := by simpa using hk
      simpa using h 0 (by simp)
    · have := h (k + 1) (by simp; omega)
      simpa [Nat.add_assoc, Nat.add_comm 1 k] using this
  · rintro ⟨⟨_, h0⟩, ⟨hl, h⟩⟩
    simp only [skip_pos, skip_len] at hl
    refine ⟨by simp; omega, fun k hk => ?_⟩
    cases k with
    | zero => simpa using h0 0 (by simp)
    | succ k =>
      have := h k (by simpa using hk)
      simpa [Nat.add_assoc, Nat.add_comm 1 k] using this

theorem Source.offers_append {s : Source} {bs cs : List Byte} :
    s.Offers (bs ++ cs) ↔ s.Offers bs ∧ (s.skip bs.length).Offers cs := by
  induction bs generalizing s with
  | nil =>
    constructor
    · intro h
      exact ⟨by simpa using (Nat.le_trans (Nat.le_add_right _ _) h.1), by simpa using h⟩
    · rintro ⟨_, h⟩
      simpa using h
  | cons b bs ih =>
    rw [List.cons_append, offers_cons, ih, offers_cons (bs := bs), and_assoc]
    simp [Nat.add_comm 1]

/-! Passing over empty literal runs. -/

/-- `skipEmptyFrom` moves past some 0x80 bytes, every one of them there. -/
theorem skipEmptyFrom_spec : ∀ (fuel : Nat) (s : Source), s.pos ≤ s.len →
    ∃ z, z ≤ fuel ∧ skipEmptyFrom fuel s = s.skip z ∧ s.Offers (List.replicate z emptyRunControl)
  | 0, s, h => ⟨0, by simp [skipEmptyFrom, Source.offers_nil, h]⟩
  | fuel + 1, s, h => by
    obtain ⟨_, hr⟩ | ⟨_, _, hr⟩ | ⟨hf, hl, hr⟩ := srcRead_cases s
    · exact ⟨0, by simp [skipEmptyFrom, hr, Source.offers_nil, h]⟩
    · exact ⟨0, by simp [skipEmptyFrom, hr, Source.offers_nil, h]⟩
    · by_cases hb : s.mem.read s.pos = emptyRunControl
      · obtain ⟨z, hz, heq, ho⟩ := skipEmptyFrom_spec fuel (s.skip 1) (by simp; omega)
        refine ⟨z + 1, by omega, ?_, ?_⟩
        · simp [skipEmptyFrom, hr, hb, heq, Nat.add_comm 1]
        · rw [List.replicate_succ, Source.offers_cons]
          refine ⟨⟨by simp; omega, fun k hk => ?_⟩, ho⟩
          obtain rfl : k = 0 := by simpa using hk
          exact ⟨by simpa [Source.AtFailure] using hf, by simpa using hb⟩
      · exact ⟨0, by simp [skipEmptyFrom, hr, hb, Source.offers_nil, h]⟩

/-- Passing over empty runs moves the position only, and never back. -/
theorem skipEmptyFrom_skip : ∀ (fuel : Nat) (s : Source), ∃ z, skipEmptyFrom fuel s = s.skip z
  | 0, s => ⟨0, rfl⟩
  | fuel + 1, s => by
    obtain ⟨_, hr⟩ | ⟨_, _, hr⟩ | ⟨_, _, hr⟩ := srcRead_cases s
    · exact ⟨0, by simp [skipEmptyFrom, hr]⟩
    · exact ⟨0, by simp [skipEmptyFrom, hr]⟩
    · by_cases hb : s.mem.read s.pos = emptyRunControl
      · obtain ⟨z, hz⟩ := skipEmptyFrom_skip fuel (s.skip 1)
        exact ⟨1 + z, by simp [skipEmptyFrom, hr, hb, hz]⟩
      · exact ⟨0, by simp [skipEmptyFrom, hr, hb]⟩

/-- At an empty run, passing over it and going on is the same as passing over all. -/
theorem skipEmptyRuns_cons {s : Source} (h : s.Offers [emptyRunControl]) :
    skipEmptyRuns s = skipEmptyRuns (s.skip 1) := by
  have hl : s.pos + 1 ≤ s.len := h.1
  have hr : s.remaining = (s.skip 1).remaining + 1 := by simp [Source.remaining]; omega
  rw [skipEmptyRuns, skipEmptyRuns, hr, skipEmptyFrom, srcRead_offers h]
  simp

/-- With no empty run at the position, nothing is passed over. -/
theorem skipEmptyRuns_none {s : Source} (h : ¬ s.Offers [emptyRunControl]) : skipEmptyRuns s = s := by
  unfold skipEmptyRuns
  cases hfuel : s.remaining with
  | zero => rfl
  | succ n =>
    obtain ⟨_, hr⟩ | ⟨_, _, hr⟩ | ⟨hf, hl, hr⟩ := srcRead_cases s
    · simp [skipEmptyFrom, hr]
    · simp [skipEmptyFrom, hr]
    · have hb : s.mem.read s.pos ≠ emptyRunControl := by
        intro hb
        refine h ⟨by simp; omega, fun k hk => ?_⟩
        obtain rfl : k = 0 := by simpa using hk
        exact ⟨by simpa [Source.AtFailure] using hf, by simpa using hb⟩
      simp [skipEmptyFrom, hr, hb]

/-! Ending a call. -/

@[simp] theorem ByteDec.stop_eos (who : ByteInst) (u : ByteDec) : u.stop who .eos = u.answer .eos := rfl
@[simp] theorem ByteDec.stop_raise (who : ByteInst) (k : ErrKind) (info : Byte) (u : ByteDec) :
    u.stop who (.raise k info) = u.raise who k info := rfl
@[simp] theorem V1Unit.stop_eos (u : V1Unit) : u.stop .eos = u.answer .eos := rfl
@[simp] theorem V1Unit.stop_raise (k : ErrKind) (info : Byte) (u : V1Unit) : u.stop (.raise k info) = u.raise k info := rfl
@[simp] theorem V2Unit.stop_eos (u : V2Unit) : u.stop .eos = u.answer .eos := rfl
@[simp] theorem V2Unit.stop_raise (k : ErrKind) (info : Byte) (u : V2Unit) : u.stop (.raise k info) = u.raise k info := rfl

/-- Ending a call leaves the source where the reads have left it. -/
@[simp] theorem ByteDec.stop_src (who : ByteInst) (st : Stop) (u : ByteDec) : (u.stop who st).src = u.src := by
  cases st <;> rfl
@[simp] theorem V1Unit.stop_src (st : Stop) (u : V1Unit) : (u.stop st).src = u.src := by cases st <;> rfl
@[simp] theorem V2Unit.stop_src (st : Stop) (u : V2Unit) : (u.stop st).src = u.src := by cases st <;> rfl

/-! Reading a varint. -/

/-- V1 after taking in a list of groups that all have the continuation flag set. -/
def V1Unit.takeGroups (groups : List Byte) (u : V1Unit) : V1Unit :=
  groups.foldl (fun u b => { u with src := u.src.skip 1 }.accumulate (b.extractLsb' 0 7)) u

/-- Groups that are there and promise another are taken in one by one, and the reading goes on after them. -/
theorem V1Unit.readGroups_continued (c : Config) : ∀ (groups : List Byte) (m : Nat) (u : V1Unit),
    (∀ b ∈ groups, b[7] = true) → u.src.Offers groups →
      readGroups c (groups.length + m) u = readGroups c m (u.takeGroups groups)
  | [], m, u, _, _ => by simp [takeGroups]
  | b :: groups, m, u, hc, ho => by
    obtain ⟨hb, hrest⟩ := Source.offers_cons.mp ho
    have h7 : b[7] = true := hc b (by simp)
    have ih := readGroups_continued c groups m ({ u with src := u.src.skip 1 }.accumulate (b.extractLsb' 0 7))
      (fun b' h => hc b' (by simp [h])) hrest
    rw [List.length_cons, Nat.add_right_comm, readGroups, srcRead_offers hb]
    simpa [h7, takeGroups] using ih

/-- Taking groups in moves the position past them and changes nothing else but the registers of the invocation. -/
theorem V1Unit.takeGroups_frame : ∀ (groups : List Byte) (u : V1Unit),
    ∃ vi, u.takeGroups groups = { u with src := u.src.skip groups.length, vi := vi } ∧ vi.ret = u.vi.ret ∧
      vi.shift = u.vi.shift + BitVec.ofNat 7 (7 * groups.length)
  | [], u => ⟨u.vi, by simp [takeGroups]⟩
  | b :: groups, u => by
    obtain ⟨vi, h, hr, hs⟩ := takeGroups_frame groups ({ u with src := u.src.skip 1 }.accumulate (b.extractLsb' 0 7))
    refine ⟨vi, ?_, by simpa using hr, ?_⟩
    · rw [takeGroups, List.foldl_cons, ← takeGroups, h]
      simp [accumulate, Nat.add_comm 1]
    · rw [hs]
      simp [Nat.mul_add, BitVec.ofNat_add, BitVec.add_assoc, BitVec.add_comm 7#7]

/-! Reading a payload. -/

/-- A payload that is there is read whole, in order. -/
theorem V2Unit.readPayload_offers : ∀ (bs : List Byte) (u : V2Unit), u.src.Offers bs →
    readPayload bs.length u = (none, { u with src := u.src.skip bs.length, buf := u.buf ++ bs })
  | [], u, _ => by simp [readPayload]
  | b :: bs, u, h => by
    obtain ⟨hb, hrest⟩ := Source.offers_cons.mp h
    have := readPayload_offers bs { u with src := u.src.skip 1, buf := u.buf ++ [b] } hrest
    simp [readPayload, readMore_offers hb, this, Nat.add_comm 1]

/-- Reading a payload moves the position and fills the buffer, and touches nothing else. -/
theorem V2Unit.readPayload_frame : ∀ (n : Nat) (u : V2Unit),
    ∃ k bs, (readPayload n u).2 = { u with src := u.src.skip k, buf := u.buf ++ bs } ∧ bs.length = k ∧ k ≤ n ∧
      ((readPayload n u).1 = none → k = n)
  | 0, u => ⟨0, [], by simp [readPayload]⟩
  | n + 1, u => by
    obtain ⟨_, h⟩ | ⟨_, _, h⟩ | ⟨_, _, h⟩ := readMore_cases u.src
    · exact ⟨0, [], by simp [readPayload, h]⟩
    · exact ⟨0, [], by simp [readPayload, h]⟩
    · obtain ⟨k, bs, heq, hlen, hk, hn⟩ :=
        readPayload_frame n { u with src := u.src.skip 1, buf := u.buf ++ [u.src.mem.read u.src.pos] }
      refine ⟨1 + k, u.src.mem.read u.src.pos :: bs, ?_, by simp [hlen]; omega, by omega, ?_⟩
      · simp [readPayload, h, heq]
      · intro hnone
        have := hn (by simpa [readPayload, h] using hnone)
        omega

end Sys2Proof.Machine
end

