-- ==== Sys2Proof/Laws/PerInstr.lean ====
section
/-! SUPPORT. A family of statements made instruction by instruction: the encoder puts every instruction on its own row of the
opcode map (30_encoding.md rule R83). -/

namespace Sys2Proof.Laws

/-- The leading byte of `i` fits a row of the map of the reader of `i`, and the row is the one with the mnemonic of `i`. -/
def RowPattern.Statement (i : Instr) : Prop :=
  ∃ row ∈ opcodeRows i.reader, row.mnemonic = i.mnemonic ∧ row.fits (encodeLead i) = true

theorem RowPattern.byteRepeat (who : ByteInst) (n : BitVec 7) : RowPattern.Statement (.byteRepeat who n) :=
  ⟨⟨"BYTE.REPEAT", 0x80, 0x00⟩, by simp [opcodeRows, Instr.reader], rfl, by revert n; cases who <;> decide⟩

theorem RowPattern.byteLiteral (who : ByteInst) (n : BitVec 7) : RowPattern.Statement (.byteLiteral who n) :=
  ⟨⟨"BYTE.LITERAL", 0x80, 0x80⟩, by simp [opcodeRows, Instr.reader], rfl, by revert n; cases who <;> decide⟩

theorem RowPattern.bitUnpack (b : Byte) : RowPattern.Statement (.bitUnpack b) :=
  ⟨⟨"BIT.UNPACK", 0x00, 0x00⟩, by simp [opcodeRows, Instr.reader], rfl, by simp [OpcodeRow.fits]⟩

theorem RowPattern.v1Delta (n : BitVec 7) : RowPattern.Statement (.v1Delta n) :=
  ⟨⟨"V1.DELTA", 0x80, 0x00⟩, by simp [opcodeRows, Instr.reader], rfl, by revert n; decide⟩

theorem RowPattern.v1Literal (n : BitVec 7) : RowPattern.Statement (.v1Literal n) :=
  ⟨⟨"V1.LITERAL", 0x80, 0x80⟩, by simp [opcodeRows, Instr.reader], rfl, by revert n; decide⟩

theorem RowPattern.v2ShortRepeat (x : BitVec 6) : RowPattern.Statement (.v2ShortRepeat x) :=
  ⟨⟨"V2.SHORT_REPEAT", 0xC0, 0x00⟩, by simp [opcodeRows, Instr.reader], rfl, by revert x; decide⟩

theorem RowPattern.v2Direct (w : BitVec 5) (l8 : BitVec 1) : RowPattern.Statement (.v2Direct w l8) :=
  ⟨⟨"V2.DIRECT", 0xC0, 0x40⟩, by simp [opcodeRows, Instr.reader], rfl, by revert w l8; decide⟩

theorem RowPattern.v2PatchedBase (x : BitVec 6) : RowPattern.Statement (.v2PatchedBase x) :=
  ⟨⟨"V2.PATCHED_BASE", 0xC0, 0x80⟩, by simp [opcodeRows, Instr.reader], rfl, by revert x; decide⟩

theorem RowPattern.v2Delta (x : BitVec 6) : RowPattern.Statement (.v2Delta x) :=
  ⟨⟨"V2.DELTA", 0xC0, 0xC0⟩, by simp [opcodeRows, Instr.reader], rfl, by revert x; decide⟩

theorem RowPattern.varintCont (d : BitVec 7) : RowPattern.Statement (.varintCont d) :=
  ⟨⟨"VARINT.CONT", 0x80, 0x80⟩, by simp [opcodeRows, Instr.reader], rfl, by revert d; decide⟩

theorem RowPattern.varintLast (d : BitVec 7) : RowPattern.Statement (.varintLast d) :=
  ⟨⟨"VARINT.LAST", 0x80, 0x00⟩, by simp [opcodeRows, Instr.reader], rfl, by revert d; decide⟩

end Sys2Proof.Laws
end

