-- ==== Sys2Proof/Tests/Slice0.lean ====
section
/-! SUPPORT. Tests of one step each, with expected results from the vectors of 95_test_vectors.md, and for every statement
with hypotheses a concrete state that meets them all. -/

namespace Sys2Proof.Tests

open Sys2Proof Sys2Proof.Machine

/-! ## Small states -/

/-- The machine after reset with BYTE in the state `u`. -/
def byteState (u : ByteDec) : State := { State.reset with byte := u }

/-- The machine after reset with V1 in the state `u`. -/
def v1State (u : V1Unit) : State := { State.reset with v1 := u }

/-- The machine after reset with V2 in the state `u`. -/
def v2State (u : V2Unit) : State := { State.reset with v2 := u }

/-- BYTE after `RESET(BYTE)` with a source of these bytes. -/
def byteOn (bytes : List Byte) : State := byteState (ByteDec.resetOn (Source.bind bytes none) 0)

/-- BIT after `RESET(BIT)` with a source of these bytes. -/
def bitOn (bytes : List Byte) : State := { State.reset with bit := BitUnit.resetOn (Source.bind bytes none) 0 }

/-- V1 after `RESET(V1)` with a source of these bytes. -/
def v1On (bytes : List Byte) : State := v1State (V1Unit.resetOn (Source.bind bytes none) 0)

/-- V2 after `RESET(V2)` with a source of these bytes. -/
def v2On (bytes : List Byte) : State := v2State (V2Unit.resetOn (Source.bind bytes none))

/-- What a step says of its next state. -/
def after (o : Host.Outcome State Fault Refusal) (p : State → Bool) : Bool :=
  match o with
  | .next t => p t
  | .fault _ => false
  | .refused _ => false

/-- A step stops with the fault `r`. -/
def stops (o : Host.Outcome State Fault Refusal) (r : Fault) : Bool :=
  match o with
  | .next _ => false
  | .fault q => q == r
  | .refused _ => false

/-! ## Well-formedness: each check refuses an ill-formed term -/

theorem test_wf_byte_rep_short : (ByteLine.rep 2 0).wellFormed = false := by decide
theorem test_wf_byte_rep_long : (ByteLine.rep 131 0).wellFormed = false := by decide
theorem test_wf_byte_lit_long : (ByteLine.lit (List.replicate 128 0)).wellFormed = false := by decide +kernel
theorem test_wf_v1_delta_short : (V1Line.delta 2 0 0).wellFormed = false := by decide
theorem test_wf_v1_delta_long : (V1Line.delta 131 0 0).wellFormed = false := by decide
theorem test_wf_v1_delta_low : (V1Line.delta 3 (-129) 0).wellFormed = false := by decide
theorem test_wf_v1_delta_high : (V1Line.delta 3 128 0).wellFormed = false := by decide
theorem test_wf_v1_lit_long : (V1Line.lit (List.replicate 128 0)).wellFormed = false := by decide +kernel
theorem test_wf_v2_empty : (V2Line.direct 0 []).wellFormed Config.documentTable = false := by decide
theorem test_wf_v2_long : (V2Line.direct 0 (List.replicate 513 0)).wellFormed Config.documentTable = false := by
  decide +kernel
theorem test_wf_v2_value : (V2Line.direct 2 [8]).wellFormed Config.documentTable = false := by decide
theorem test_wf_config_short : ({ Config.standard with bwt := [1] } : Config).wf = false := by decide
theorem test_wf_config_zero : ({ Config.standard with bwt := List.replicate 32 0 } : Config).wf = false := by decide
theorem test_wf_config_wide : ({ Config.standard with bwt := List.replicate 32 65 } : Config).wf = false := by decide
theorem test_wf_memory_order : Memory.wf [(3, 1), (2, 1)] = false := by decide
theorem test_wf_memory_unlisted : Memory.wf [(3, 0)] = false := by decide
theorem test_decode_no_byte : decode .v2 [] = .error .noByte := by decide

/-! ## Decoding: leading bytes written out from the patterns of the opcode map (30_encoding.md rule R83) -/

theorem test_decode_byteRepeat : decode (.byteRle .unit) [0b01100001, 0x00] = .ok (.byteRepeat .unit 97, [0x00]) := by decide
theorem test_decode_byteLiteral : decode (.byteRle .bitB) [0b10000010] = .ok (.byteLiteral .bitB 2, []) := by decide
theorem test_decode_bitUnpack : decode .bit [0b10100101] = .ok (.bitUnpack 0xA5, []) := by decide
theorem test_decode_v1Delta : decode .v1 [0b01100001, 0xFF] = .ok (.v1Delta 97, [0xFF]) := by decide
theorem test_decode_v1Literal : decode .v1 [0b10000101] = .ok (.v1Literal 5, []) := by decide
theorem test_decode_v2ShortRepeat : decode .v2 [0b00111111] = .ok (.v2ShortRepeat 63, []) := by decide
theorem test_decode_v2Direct : decode .v2 [0b01011110, 0x03] = .ok (.v2Direct 15 0, [0x03]) := by decide
theorem test_decode_v2Direct_l8 : decode .v2 [0b01000111] = .ok (.v2Direct 3 1, []) := by decide
theorem test_decode_v2PatchedBase : decode .v2 [0b10000000] = .ok (.v2PatchedBase 0, []) := by decide
theorem test_decode_v2Delta : decode .v2 [0b11000101] = .ok (.v2Delta 5, []) := by decide
theorem test_decode_varintCont : decode .varint [0b10101100] = .ok (.varintCont 0x2C, []) := by decide
theorem test_decode_varintLast : decode .varint [0b00000010] = .ok (.varintLast 2, []) := by decide
theorem test_varintBytes_300 : varintBytes 300 = [0xAC, 0x02] := by decide
theorem test_varintBytes_minus3 :
    varintBytes (BitVec.ofInt 64 (-3)) = [0xFD, 0xFF, 0xFF, 0xFF, 0xFF, 0xFF, 0xFF, 0xFF, 0xFF, 0x01] := by decide
theorem test_pack : (V2Line.direct 2 [5, 2, 7, 0, 3]).bytes Config.documentTable = [0x44, 0x04, 0xAB, 0x86] := by decide

/-! ## One step per instruction (95_test_vectors.md) -/

/-- BY-3, the largest repeat run: the first of 130. -/
theorem test_byteRepeat : after (nextUnit .byte (byteOn [0x7F, 0x55])) (fun t =>
    t.byte.port == some (.value 0x55) && t.byte.cnt == 129 && t.byte.src.pos == 2) = true := by decide

/-- BY-5: two empty runs skipped in one call. -/
theorem test_byteLiteral : after (nextUnit .byte (byteOn [0x80, 0x80, 0x81, 0x07])) (fun t =>
    t.byte.port == some (.value 0x07) && t.byte.mode == .idle && t.byte.src.pos == 4) = true := by decide

/-- BY-13: the failure at the end position wins over `End`. -/
theorem test_byte_failure_wins : after (nextUnit .byte (byteState (ByteDec.resetOn (Source.bind [] (some 0)) 0)))
    (fun t => t.byte.port == some (.err .ioFailure 0)) = true := by decide

/-- BI-7: the byte is consumed by the first call, seven booleans remain. -/
theorem test_bitUnpack : after (nextUnit .bit (bitOn [0x81, 0x80])) (fun t =>
    t.bit.port == some (.value true) && t.bit.nbits == 7 && t.bit.cur == 0x00 && t.bit.b.src.pos == 2) = true := by decide

/-- S5: after call 1, `mode = DELTA`, `cnt = 99`, `val = 99`, `delta = 0xFF`. -/
theorem test_v1Delta : after (nextUnit .v1 (v1On [0x61, 0xFF, 0x64])) (fun t =>
    t.v1.port == some (.value 100) && t.v1.mode == .deltaRun && t.v1.cnt == 99 && t.v1.val == 99 && t.v1.delta == 0xFF) =
      true := by decide

/-- V1-15: the base is cut in its varint. -/
theorem test_v1Delta_cut : after (nextUnit .v1 (v1On [0x05, 0x01, 0x80])) (fun t =>
    t.v1.port == some (.err .truncation 0) && t.v1.src.pos == 3) = true := by decide

/-- V1-9, first call: literals are not zig-zag. -/
theorem test_v1Literal : after (nextUnit .v1 (v1On [0x82, 0xFF, 0xFF, 0xFF, 0xFF, 0xFF, 0xFF, 0xFF, 0xFF, 0xFF, 0x01]))
    (fun t => t.v1.port == some (.value (BitVec.allOnes 64)) && t.v1.cnt == 1 && t.v1.src.pos == 11) = true := by decide

/-- V1-18 and S8: ten groups that promise an eleventh. -/
theorem test_v1Literal_malformed : after (nextUnit .v1 (v1On (0x81 :: List.replicate 10 0xFF))) (fun t =>
    t.v1.port == some (.err .malformedVarint 0) && t.v1.src.pos == 11) = true := by decide

/-- V2-20: tag 00, the byte after the header is not read. -/
theorem test_v2ShortRepeat : after (nextUnit .v2 (v2On [0x3F, 0xFF])) (fun t =>
    t.v2.port == some (.err .unsupportedEncoding 0x3F) && t.v2.src.pos == 1) = true := by decide

/-- S7: the first of four values of 16 bits. -/
theorem test_v2Direct : after (nextUnit .v2 (v2On [0x5E, 0x03, 0x5C, 0xA1, 0xAB, 0x1E, 0xDE, 0xAD, 0xBE, 0xEF])) (fun t =>
    t.v2.port == some (.value 23713) && t.v2.qhead == 1 && t.v2.qcount == 3 &&
      t.v2.q.take 4 == [23713, 43806, 57005, 48879]) = true := by decide

/-- V2-25: one payload byte short, nothing staged. -/
theorem test_v2Direct_cut : after (nextUnit .v2 (v2On [0x5E, 0x03, 0x5C, 0xA1, 0xAB, 0x1E, 0xDE, 0xAD, 0xBE])) (fun t =>
    t.v2.port == some (.err .truncation 0) && t.v2.qcount == 0 && t.v2.src.pos == 9) = true := by decide

/-- V2-21: tag 10. -/
theorem test_v2PatchedBase : after (nextUnit .v2 (v2On [0x80, 0x01, 0x02])) (fun t =>
    t.v2.port == some (.err .unsupportedEncoding 0x80) && t.v2.src.pos == 1) = true := by decide

/-- V2-22: tag 11. -/
theorem test_v2Delta : after (nextUnit .v2 (v2On [0xC0])) (fun t =>
    t.v2.port == some (.err .unsupportedEncoding 0xC0) && t.v2.src.pos == 1) = true := by decide

/-- VI-5, its first group already read: 300. -/
theorem test_varintCont : after (exec (.varintCont 0x2C) (v1On [0x02])) (fun t =>
    t.v1.vi.ret == .value 300 && t.v1.src.pos == 1) = true := by decide

/-- VI-2. -/
theorem test_varintLast : after (exec (.varintLast 0x7F) (v1On [])) (fun t =>
    t.v1.vi.ret == .value 127 && t.v1.vi.shift == 7) = true := by decide

/-- VI-8 under `VARINT_G10_HIGH = fault`: the tenth group has bits 6 to 1 set. -/
theorem test_varintLast_g10 : after (exec (.varintLast 0x7F)
    { v1State { V1Unit.resetOn Source.empty 0 with vi := ⟨2 ^ 63 - 1, 63, .eos⟩ } with
      cfg := { Config.standard with g10High := .fault } }) (fun t => t.v1.vi.ret == .err .malformedVarint) = true := by decide

/-- RS-2: a reset clears the latch and rebinds. -/
theorem test_reset_clears : after (resetUnit .byte [0x82, 0x44, 0x45] none
    (byteState { ByteDec.resetOn Source.empty 0 with latch := ⟨some .truncation, 0⟩ }))
    (fun t => t.byte.latch == ⟨none, 0⟩ && t.byte.src.len == 3 && t.byte.src.pos == 0) = true := by decide

/-- A failure position past the end is no source. -/
theorem test_reset_illegal : resetUnit .byte [1] (some 2) State.reset = .refused .illegalSource := by rfl

/-- The table word of a Direct run is read and carried out by the very next step from reset. -/
theorem test_fetch_word : decodeTableWord 16 0x0340 = some (.v2Direct 0 0) ∧
    after (step (State.reset.withFetchWord 16 0x0340)) (fun t => t.v2.port == some (.value 0) && t.v2.qcount == 3) = true := by
  decide

/-! ## Every statement with hypotheses has a state that meets them -/

theorem witness_DecodeOfEncode : (Instr.v2Direct 31 1).wellFormed = true := by decide

theorem witness_VarintSpellingIsShortest : IsVarint [0xAC, 0x02] ∧ varintValue [0xAC, 0x02] = 300 := by
  unfold IsVarint; decide

theorem witness_RunLengthsAndDelta :
    (127#8).toNat < 128 ∧ 128 ≤ (128#8).toNat ∧ 128 ≤ (255#8).toNat := by decide

theorem witness_DirectHeaderFields : Config.standard.wf = true ∧
    decodeLead .v2 0x40 = .v2Direct 0 0 ∧ decodeLead .v2 0x7F = .v2Direct 31 1 := by decide

theorem witness_SourceReadAnswers :
    (Source.bind [1] (some 0)).fail = some (Source.bind [1] (some 0)).pos ∧
    ((Source.bind [] none).fail ≠ some (Source.bind [] none).pos ∧ (Source.bind [] none).pos = (Source.bind [] none).len) ∧
    ((Source.bind [1] (some 1)).fail ≠ some (Source.bind [1] (some 1)).pos ∧
      (Source.bind [1] (some 1)).pos < (Source.bind [1] (some 1)).len) ∧
    srcRead (Source.bind [] none) = (.endOfInput, Source.bind [] none) := by decide

theorem witness_BoundSourceHoldsItsBytes :
    legalFail [1, 2] none = true ∧ legalFail [1, 2] (some 0) = true ∧ legalFail [1, 2] (some 2) = true := by decide

theorem witness_BoundSourceReadsInOrder : (some 2 : Option Nat) = some 2 ∧
    ((some 2 : Option Nat) ≠ some 1 ∧ 1 < [7#8, 9#8].length) ∧ (none : Option Nat) ≠ some [7#8, 9#8].length := by decide

theorem witness_ByteRepeatDeliversFirst : ((byteOn [0xAB]).byteDec .unit).src.Offers [0xAB] ∧
    ((bitOn [0xAB]).byteDec .bitB).src.Offers [0xAB] := by unfold Source.Offers; decide

theorem witness_ByteLiteralDeliversFirst : (1#7 ≠ 0#7 ∧ 127#7 ≠ 0#7) ∧ ((byteOn [0x07]).byteDec .unit).src.Offers [0x07] := by
  unfold Source.Offers; decide

theorem witness_EmptyByteLiteralFallsThrough :
    (State.reset.byteDec .unit).latch.fault = none ∧ (State.reset.byteDec .unit).mode = .idle := by decide

theorem witness_EmptyByteLiteralsInOneCall :
    ((byteOn [0x80, 0x80, 0x7F, 0x05]).byteDec .unit).src.Offers (List.replicate 2 0x80) ∧
    ((127#8).toNat < 128 ∧
      ((byteOn [0x80, 0x80, 0x7F, 0x05]).byteDec .unit).src.Offers (List.replicate 2 0x80 ++ [127, 5])) ∧
    (128 < (129#8).toNat ∧ ((byteOn [0x80, 0x81, 0x05]).byteDec .unit).src.Offers (List.replicate 1 0x80 ++ [129, 5])) ∧
    (((byteOn []).byteDec .unit).src.Offers (List.replicate 0 0x80) ∧ (((byteOn []).byteDec .unit).src.skip 0).AtEnd) ∧
    ((byteState (ByteDec.resetOn (Source.bind [0x80] (some 1)) 0)).byte.src.Offers (List.replicate 1 0x80) ∧
      ((byteState (ByteDec.resetOn (Source.bind [0x80] (some 1)) 0)).byte.src.skip 1).AtFailure) := by
  unfold Source.Offers Source.AtEnd Source.AtFailure; decide

/-- BYTE in the middle of a run. -/
def byteRun (m : ByteMode) (cnt : BitVec 8) (bytes : List Byte) : State :=
  byteState { ByteDec.resetOn (Source.bind bytes none) 0 with mode := m, cnt := cnt }

theorem witness_ByteDeliveryInRepeatMode :
    ((byteRun .repeatRun 1 []).byteDec .unit).latch.fault = none ∧
    ((byteRun .repeatRun 1 []).byteDec .unit).mode = .repeatRun ∧
    ((byteOn [0xAB]).byteDec .unit).latch.fault = none ∧ ((byteOn [0xAB]).byteDec .unit).src.Offers [0xAB] := by
  unfold Source.Offers; decide

theorem witness_ByteDeliveryInLiteralMode :
    ((byteRun .literalRun 1 [9]).byteDec .unit).latch.fault = none ∧
    ((byteRun .literalRun 1 [9]).byteDec .unit).mode = .literalRun ∧
    ((byteRun .literalRun 1 [9]).byteDec .unit).src.Offers [9] ∧
    ((byteRun .literalRun 1 []).byteDec .unit).src.AtEnd ∧
    (byteState { ByteDec.resetOn (Source.bind [1] (some 0)) 0 with mode := .literalRun, cnt := 1 }).byte.src.AtFailure ∧
    1#7 ≠ 0#7 := by
  unfold Source.Offers Source.AtEnd Source.AtFailure; decide

/-- A bound source meets its invariant. -/
theorem bind_inv_two : (Source.bind [0x80, 0x80] none).Inv := ⟨by decide, by decide, by decide, nofun⟩

theorem witness_ByteCleanEnd : ((byteOn [0x80, 0x80]).byteDec .unit).src.Inv ∧
    after (nextByteRle .unit (byteOn [0x80, 0x80])) (fun t => (t.byteDec .unit).port == some .eos) = true :=
  ⟨bind_inv_two, by decide⟩

/-- BYTE with a source that fails at its position. -/
def byteFails : State := byteState (ByteDec.resetOn (Source.bind [1] (some 0)) 0)

theorem witness_ByteErrorsLatch :
    (((byteOn []).byteDec .unit).src.AtEnd ∧ ErrKind.truncation = .truncation) ∧
    ((byteFails.byteDec .unit).src.AtFailure ∧ ErrKind.ioFailure = .ioFailure) ∧ 1#7 ≠ 0#7 ∧
    (((byteRun .literalRun 1 []).byteDec .unit).src.AtEnd ∧
      ((byteRun .literalRun 1 []).byteDec .unit).latch.fault = none ∧
      ((byteRun .literalRun 1 []).byteDec .unit).mode = .literalRun) := by
  unfold Source.AtEnd Source.AtFailure; decide

theorem witness_FailureWinsOverCleanEnd :
    (byteFails.byte.src.AtFailure ∧ byteFails.byte.latch.fault = none ∧ byteFails.byte.mode = .idle) ∧
    ((v1State (V1Unit.resetOn (Source.bind [] (some 0)) 0)).v1.src.AtFailure ∧
      (v1State (V1Unit.resetOn (Source.bind [] (some 0)) 0)).v1.latch.fault = none ∧
      (v1State (V1Unit.resetOn (Source.bind [] (some 0)) 0)).v1.mode = .idle) ∧
    ((v2State (V2Unit.resetOn (Source.bind [] (some 0)))).v2.src.AtFailure ∧
      (v2State (V2Unit.resetOn (Source.bind [] (some 0)))).v2.latch.fault = none ∧
      (v2State (V2Unit.resetOn (Source.bind [] (some 0)))).v2.qcount = 0#10) := by
  unfold Source.AtFailure; decide

/-- Lines at the ends of their ranges, for BYTE and BIT. -/
def byteLines : List ByteLine := [.rep 3 0xAA, .lit [], .rep 130 0x80, .lit [1, 2]]

theorem witness_ByteStreamRoundTrip : (∀ l ∈ byteLines, l.wellFormed = true) ∧
    ∃ t, step { State.reset with cmds := [.reset .byte (byteLines.flatMap ByteLine.bytes) none] } = .next t :=
  ⟨by decide, _, rfl⟩

theorem witness_BitStreamDeliversBits : (∀ l ∈ byteLines, l.wellFormed = true) ∧
    ∃ t, step { State.reset with cmds := [.reset .bit (byteLines.flatMap ByteLine.bytes) none] } = .next t :=
  ⟨by decide, _, rfl⟩

/-- BIT with one bit left to deliver. -/
def bitOneLeft : State := { State.reset with bit := { BitUnit.resetOn Source.empty 0 with nbits := 1, cur := 0x80 } }

/-- BIT whose pipeline has an error latched. -/
def bitFaulted : State :=
  { State.reset with bit := { BitUnit.resetOn Source.empty 0 with
      b := { ByteDec.resetOn Source.empty 0 with latch := ⟨some .truncation, 0⟩ } } }

theorem witness_BitNextRule : (bitOneLeft.bit.nbits ≠ 0#4 ∧
    bitOneLeft.bit.nbits = 1#4 ∧ ∀ j, j < 7 → bitOneLeft.bit.cur.getLsbD j = false) ∧
    (∃ t b, (bitOn [0x81, 0xA5]).bit.nbits = 0#4 ∧ nextByteRle .bitB (bitOn [0x81, 0xA5]) = .next t ∧
      t.bit.b.port = some (.value b)) ∧
    (∃ t, (bitOn []).bit.nbits = 0#4 ∧ nextByteRle .bitB (bitOn []) = .next t ∧ t.bit.b.port = some .eos) ∧
    (∃ t k info, bitFaulted.bit.nbits = 0#4 ∧ nextByteRle .bitB bitFaulted = .next t ∧
      t.bit.b.port = some (.err k info)) :=
  ⟨by decide, ⟨_, _, by decide, rfl, rfl⟩, ⟨_, by decide, rfl, rfl⟩, ⟨_, _, _, by decide, rfl, rfl⟩⟩

/-- The configuration with `VARINT_G10_HIGH = fault`. -/
def strict : Config := { Config.standard with g10High := .fault }

/-- V1 with `g` groups of a varint taken in. -/
def v1Groups (g : Nat) (bytes : List Byte) (fail : Option Nat) : State :=
  v1State { V1Unit.resetOn (Source.bind bytes fail) 0 with vi := ⟨0, BitVec.ofNat 7 (7 * g), .eos⟩ }

theorem witness_VarintLastGroup :
    (State.reset.cfg.g10High = .discard ∨ State.reset.v1.vi.shift.toNat < 63 ∨ (127#7).toNat < 2) ∧
    (({ v1Groups 9 [] none with cfg := strict }).cfg.g10High = .discard ∨
      ({ v1Groups 9 [] none with cfg := strict }).v1.vi.shift.toNat < 63 ∨ (1#7).toNat < 2) ∧
    (({ v1Groups 9 [] none with cfg := strict }).cfg.g10High = .fault ∧
      63 ≤ ({ v1Groups 9 [] none with cfg := strict }).v1.vi.shift.toNat ∧ 2 ≤ (2#7).toNat) := by decide

theorem witness_VarintContGroup :
    ((v1Groups 9 [] none).v1.vi.shift = BitVec.ofNat 7 (7 * 9)) ∧
    ((v1Groups 8 [0x7F] none).v1.vi.shift = BitVec.ofNat 7 (7 * 8) ∧ (v1Groups 8 [0x7F] none).v1.src.Offers [0x7F] ∧
      (v1Groups 8 [0x7F] none).cfg.g10High = .discard ∧ (0x7F#8).toNat < 128) ∧
    ((v1Groups 8 [] none).v1.vi.shift = BitVec.ofNat 7 (7 * 8) ∧ (v1Groups 8 [] none).v1.src.AtEnd) ∧
    ((v1Groups 0 [] none).v1.vi.shift = BitVec.ofNat 7 (7 * 0) ∧ (v1Groups 0 [] none).v1.src.AtEnd) ∧
    ((v1Groups 8 [] (some 0)).v1.vi.shift = BitVec.ofNat 7 (7 * 8) ∧ (v1Groups 8 [] (some 0)).v1.src.AtFailure) := by
  unfold Source.Offers Source.AtEnd Source.AtFailure; decide

/-- A varint of ten groups (VI-8). -/
def tenGroups : List Byte := List.replicate 9 0xFF ++ [0x7F]

theorem witness_VarintValueLaw : Config.standard.g10High = .discard ∧ IsVarint tenGroups ∧
    (v1On tenGroups).v1.src.Offers tenGroups ∧ IsVarint [0x00] := by
  unfold IsVarint Source.Offers; decide

theorem witness_VarintEndAndCap :
    ((∀ b ∈ ([] : List Byte), b[7] = true) ∧ (v1On []).v1.src.Offers [] ∧ ((v1On []).v1.src.skip 0).AtEnd) ∧
    ((∀ b ∈ List.replicate 9 0xFF#8, b[7] = true) ∧ (v1On (List.replicate 9 0xFF)).v1.src.Offers (List.replicate 9 0xFF) ∧
      ((v1On (List.replicate 9 0xFF)).v1.src.skip 9).AtEnd) ∧
    ((∀ b ∈ List.replicate 10 0xFF#8, b[7] = true) ∧
      (v1On (List.replicate 10 0xFF)).v1.src.Offers (List.replicate 10 0xFF) ∧ (List.replicate 10 0xFF#8).length = 10) := by
  unfold Source.Offers Source.AtEnd; decide

theorem witness_V1DeltaDeliversBase : Config.standard.v1Add = .wrap ∧ Config.standard.g10High = .discard ∧
    IsVarint [0x64] ∧ (v1On [0xFF, 0x64]).v1.src.Offers (0xFF :: [0x64]) := by
  unfold IsVarint Source.Offers; decide

theorem witness_V1LiteralDeliversFirst : 1#7 ≠ 0#7 ∧ 127#7 ≠ 0#7 ∧ Config.standard.g10High = .discard ∧
    IsVarint [0x02] ∧ (v1On [0x02]).v1.src.Offers [0x02] := by
  unfold IsVarint Source.Offers; decide

theorem witness_EmptyV1LiteralFallsThrough :
    State.reset.v1.latch.fault = none ∧ State.reset.v1.mode = .idle ∧ State.reset.v1.src.AtEnd := by
  unfold Source.AtEnd; decide

/-- V1 in the middle of a run. -/
def v1Run (m : V1Mode) (cnt : BitVec 8) (val : Word) (delta : Byte) (bytes : List Byte) : State :=
  v1State { V1Unit.resetOn (Source.bind bytes none) 0 with mode := m, cnt := cnt, val := val, delta := delta }

theorem witness_V1DeltaRunValues : (v1Run .deltaRun 129 5 0x80 []).cfg.v1Add = .wrap ∧
    (v1Run .deltaRun 129 5 0x80 []).v1.latch.fault = none ∧ (v1Run .deltaRun 129 5 0x80 []).v1.mode = .deltaRun := by decide

theorem witness_V1DeliveryInDeltaMode : (v1Run .deltaRun 1 5 0x80 []).cfg.v1Add = .wrap ∧
    (v1Run .deltaRun 1 5 0x80 []).v1.latch.fault = none ∧ (v1Run .deltaRun 1 5 0x80 []).v1.mode = .deltaRun := by decide

theorem witness_V1DeliveryInLiteralMode : (v1Run .literalRun 1 0 0 [0x0B]).cfg.g10High = .discard ∧
    (v1Run .literalRun 1 0 0 [0x0B]).v1.latch.fault = none ∧ (v1Run .literalRun 1 0 0 [0x0B]).v1.mode = .literalRun ∧
    IsVarint [0x0B] ∧ (v1Run .literalRun 1 0 0 [0x0B]).v1.src.Offers [0x0B] := by
  unfold IsVarint Source.Offers; decide

theorem witness_V1CleanEnd : (v1On [0x80, 0x80]).v1.src.Inv ∧
    after (nextUnit .v1 (v1On [0x80, 0x80])) (fun t => t.v1.port == some .eos) = true := ⟨bind_inv_two, by decide⟩

/-- The block with `V1_ADD = refuse`, V1 about to leave the signed range, `cnt` values left. -/
def refusing (cnt : BitVec 8) : State :=
  { v1Run .deltaRun cnt (2 ^ 63 - 1) 1 [] with cfg := { Config.standard with v1Add := .refuse } }

theorem witness_V1AddRefuseStops : ((refusing 2).cfg.v1Add = .refuse ∧ (refusing 2).v1.latch.fault = none ∧
      (refusing 2).v1.mode = .deltaRun ∧ LeavesSigned (refusing 2).v1.val (refusing 2).v1.delta ∧
      stops (nextUnit .v1 (refusing 2)) .v1AddNoStep = true) ∧
    (¬ (1 < (refusing 1).v1.cnt.toNat ∧ LeavesSigned (refusing 1).v1.val (refusing 1).v1.delta) ∧
      after (nextUnit .v1 (refusing 1)) (fun t => t.v1.mode == .idle) = true) := by
  unfold LeavesSigned; decide +kernel

/-- A base of 2^63 - 1, and one of 0. -/
theorem witness_V1AddRefuseStops_enter :
    (refusing 0).cfg.g10High = .discard ∧
    (IsVarint (List.replicate 8 0xFF ++ [0x7F]) ∧
      LeavesSigned (varintValue (List.replicate 8 0xFF ++ [0x7F])) 1 ∧
      (v1On (1 :: (List.replicate 8 0xFF ++ [0x7F]))).v1.src.Offers (1 :: (List.replicate 8 0xFF ++ [0x7F]))) ∧
    (IsVarint [0x00] ∧ ¬ LeavesSigned (varintValue [0x00]) 1 ∧ (v1On [1, 0]).v1.src.Offers (1 :: [0x00])) := by
  unfold IsVarint LeavesSigned Source.Offers; decide +kernel

theorem witness_V1ErrorsLatch : (v1On []).v1.src.AtEnd ∧
    (v1State (V1Unit.resetOn (Source.bind [] (some 0)) 0)).v1.src.AtFailure ∧ 1#7 ≠ 0#7 ∧
    ((v1Run .literalRun 1 0 0 []).v1.src.AtEnd ∧ (v1Run .literalRun 1 0 0 []).v1.latch.fault = none ∧
      (v1Run .literalRun 1 0 0 []).v1.mode = .literalRun) := by
  unfold Source.AtEnd Source.AtFailure; decide

/-- Inside a varint: after one group (V1-15, V1-17), after nine, and a failure after one (V1-22). -/
theorem witness_V1ErrorsLatch_inside :
    ((∀ b ∈ [0x80#8], b[7] = true) ∧ (v1Run .literalRun 1 0 0 [0x80]).v1.src.Offers [0x80] ∧
      ((v1Run .literalRun 1 0 0 [0x80]).v1.src.skip 1).AtEnd ∧ (v1Run .literalRun 1 0 0 [0x80]).v1.latch.fault = none ∧
      (v1Run .literalRun 1 0 0 [0x80]).v1.mode = .literalRun) ∧
    ((List.replicate 9 0x80#8).length ≤ 9 ∧ (∀ b ∈ List.replicate 9 0x80#8, b[7] = true) ∧
      (v1On (1 :: List.replicate 9 0x80)).v1.src.Offers (1 :: List.replicate 9 0x80) ∧
      ((v1On (1 :: List.replicate 9 0x80)).v1.src.skip 10).AtEnd) ∧
    ((v1State (V1Unit.resetOn (Source.bind [0xAC] (some 1)) 0)).v1.src.Offers [0xAC] ∧
      ((v1State (V1Unit.resetOn (Source.bind [0xAC] (some 1)) 0)).v1.src.skip 1).AtFailure) ∧
    ((v1State (V1Unit.resetOn (Source.bind [7] (some 1)) 0)).v1.src.Offers (7 :: []) ∧
      ((v1State (V1Unit.resetOn (Source.bind [7] (some 1)) 0)).v1.src.skip 1).AtFailure) := by
  unfold Source.Offers Source.AtEnd Source.AtFailure; decide +kernel

theorem witness_V1MalformedVarintLatches : (List.replicate 10 0xFF#8).length = 10 ∧
    (∀ b ∈ List.replicate 10 0xFF#8, b[7] = true) ∧ 1#7 ≠ 0#7 ∧
    (v1On (List.replicate 10 0xFF)).v1.src.Offers (List.replicate 10 0xFF) ∧
    (v1On (1 :: List.replicate 10 0xFF)).v1.src.Offers (1 :: List.replicate 10 0xFF) ∧
    ((v1Run .literalRun 1 0 0 (List.replicate 10 0xFF)).v1.src.Offers (List.replicate 10 0xFF) ∧
      (v1Run .literalRun 1 0 0 (List.replicate 10 0xFF)).v1.latch.fault = none ∧
      (v1Run .literalRun 1 0 0 (List.replicate 10 0xFF)).v1.mode = .literalRun) := by
  unfold Source.Offers; decide +kernel

/-- Lines at the ends of their ranges, for V1. -/
def v1Lines : List V1Line := [.delta 3 (-128) 0, .lit [], .delta 130 127 (2 ^ 63), .lit [BitVec.allOnes 64]]

theorem witness_V1StreamRoundTrip : State.reset.cfg.v1Add = .wrap ∧ (∀ l ∈ v1Lines, l.wellFormed = true) ∧
    ∃ t, step { State.reset with cmds := [.reset .v1 (v1Lines.flatMap V1Line.bytes) none] } = .next t :=
  ⟨by decide, by decide, _, rfl⟩

theorem witness_V2UnsupportedTagsRaise : (0xC5#8).toNat / 64 ≠ 1 ∧ (0x3F#8).toNat / 64 ≠ 1 ∧ (0x80#8).toNat / 64 ≠ 1 ∧
    (v2On [0xC5]).v2.latch.fault = none ∧ (v2On [0xC5]).v2.qcount = 0#10 ∧ (v2On [0xC5]).v2.src.Offers [0xC5] := by
  unfold Source.Offers; decide

/-- V2-3, `W = 3` and `L = 5`. -/
theorem witness_V2DirectStagesAndDelivers : (v2On [4, 0xAB, 0x86]).cfg.wf = true ∧
    3 = ((v2On [4, 0xAB, 0x86]).cfg.bwt.getD (2#5).toNat 0).toNat ∧ 5 = ((0#1).toNat * 256 + (4#8).toNat) + 1 ∧
    [0xAB#8, 0x86#8].length = (3 * 5 + 7) / 8 ∧ (v2On [4, 0xAB, 0x86]).v2.src.Offers (4 :: [0xAB, 0x86]) ∧
    [5#64, 2, 7, 0, 3].length = 5 ∧
    (∀ i, i < 5 → ([5#64, 2, 7, 0, 3].getD i 0).toNat < 2 ^ 3 ∧
      ∀ j, j < 3 → ([5#64, 2, 7, 0, 3].getD i 0).getLsbD (3 - 1 - j) =
        ([0xAB#8, 0x86#8].getD ((i * 3 + j) / 8) 0).getLsbD (7 - (i * 3 + j) % 8)) := by
  unfold Source.Offers; decide

/-- The least run, `W = 1` and `L = 1`, with pad bits (V2-9). -/
theorem witness_V2DirectStagesAndDelivers_least : 1 = (Config.standard.bwt.getD (0#5).toNat 0).toNat ∧
    1 = ((0#1).toNat * 256 + (0#8).toNat) + 1 ∧ [0x80#8].length = (1 * 1 + 7) / 8 ∧
    (v2On [0, 0x80]).v2.src.Offers (0 :: [0x80]) ∧ [1#64].length = 1 ∧
    (∀ i, i < 1 → ([1#64].getD i 0).toNat < 2 ^ 1 ∧
      ∀ j, j < 1 → ([1#64].getD i 0).getLsbD (1 - 1 - j) = ([0x80#8].getD ((i * 1 + j) / 8) 0).getLsbD (7 - (i * 1 + j) % 8)) := by
  unfold Source.Offers; decide

theorem witness_V2DirectCutShortStagesNothing :
    ((v2On []).v2.src.Offers [] ∧ ((v2On []).v2.src.skip 0).AtEnd) ∧
    ((v2On [4, 0xAB]).v2.src.Offers [4, 0xAB] ∧ ((v2On [4, 0xAB]).v2.src.skip 2).AtEnd ∧
      [4#8, 0xAB#8].length < 1 + payloadBytes (directWidth (v2On [4, 0xAB]).cfg 2) (directLength 0 ([4#8, 0xAB#8].getD 0 0))) ∧
    ((v2State (V2Unit.resetOn (Source.bind [4] (some 1)))).v2.src.Offers [4] ∧
      ((v2State (V2Unit.resetOn (Source.bind [4] (some 1)))).v2.src.skip 1).AtFailure ∧
      [4#8].length < 1 + payloadBytes (directWidth Config.standard 2) (directLength 0 ([4#8].getD 0 0))) := by
  unfold Source.Offers Source.AtEnd Source.AtFailure; decide

theorem witness_V2PopDeliversFront :
    (v2State { V2Unit.resetOn Source.empty with qcount := 1, qhead := 511 }).v2.latch.fault = none ∧
    (v2State { V2Unit.resetOn Source.empty with qcount := 1, qhead := 511 }).v2.qcount ≠ 0#10 := by decide

theorem witness_ExtractionByByteWindow : (1 ≤ 3 ∧ 4 * 3 + 3 ≤ 8 * [0xAB#8, 0x86#8].length) ∧
    (1 ≤ 64 ∧ 0 * 64 + 64 ≤ 8 * (List.replicate 8 0xFF#8).length) := by decide

theorem witness_V2CleanEnd : (v2On [0x80, 0x80]).v2.src.Inv ∧ (v2On []).v2.src.Inv ∧
    after (nextUnit .v2 (v2On [])) (fun t => t.v2.port == some .eos) = true :=
  ⟨bind_inv_two, ⟨by decide, by decide, by decide, nofun⟩, by decide⟩

/-- Direct runs of widths 64, 1 and 3. -/
def v2Runs : List (BitVec 5 × List Word) := [(31, [BitVec.allOnes 64]), (0, [1, 0, 1]), (2, [5, 2, 7, 0, 3])]

theorem witness_V2StreamRoundTrip : State.reset.cfg.wf = true ∧
    (∀ r ∈ v2Runs, (V2Line.direct r.1 r.2).wellFormed State.reset.cfg.bwt = true) ∧ (0xC5#8).toNat / 64 ≠ 1 ∧
    (∃ t, step { State.reset with cmds :=
      [.reset .v2 (v2Runs.flatMap fun r => (V2Line.direct r.1 r.2).bytes State.reset.cfg.bwt) none] } = .next t) ∧
    (∃ t, step { State.reset with cmds :=
      [.reset .v2 ((v2Runs.flatMap fun r => (V2Line.direct r.1 r.2).bytes State.reset.cfg.bwt) ++ 0xC5 :: [1]) none] } =
        .next t) :=
  ⟨by decide, by decide, by decide, ⟨_, rfl⟩, ⟨_, rfl⟩⟩

theorem witness_FaultLatchIsSticky :
    (byteState { ByteDec.resetOn Source.empty 0 with latch := ⟨some .truncation, 0⟩ }).byte.latch.fault = some .truncation ∧
    (bitFaulted.bit.b.latch.fault = some .truncation ∧ bitFaulted.bit.nbits = 0#4) ∧
    (v1State { V1Unit.resetOn Source.empty 0 with latch := ⟨some .truncation, 0⟩ }).v1.latch.fault = some .truncation ∧
    (v2State { V2Unit.resetOn Source.empty with latch := ⟨some .truncation, 0⟩ }).v2.latch.fault = some .truncation := by
  decide

theorem witness_ResetBindsAndClears : legalFail [1] (some 1) = true ∧ legalFail [] none = true := by decide

/-- A state with every unit in the middle of something, and a command pending. -/
def busy (c : Command) : State :=
  { cfg := Config.standard
    byte := { ByteDec.resetOn (Source.bind [7] (some 1)) 0 with mode := .literalRun, cnt := 126 }
    bit := { BitUnit.resetOn (Source.bind [1, 2] none) 0 with cur := 0x80, nbits := 1 }
    v1 := { V1Unit.resetOn (Source.bind [9] none) 0 with mode := .deltaRun, cnt := 129, delta := 0xFF }
    v2 := { V2Unit.resetOn (Source.bind [3] none) with qhead := 1, qcount := 511 }
    cmds := [c] }

theorem busy_inv : (busy (.next .v2)).Inv where
  cfg := by decide
  byte :=
    { src := ⟨by decide, by decide, by decide, by intro p h; cases h; decide⟩
      kinds := nofun
      finfo := rfl
      idle := fun _ => by decide
      repeating := fun _ h => by cases h
      literal := fun _ _ => by decide }
  bit :=
    { pipeline :=
        { src := ⟨by decide, by decide, by decide, nofun⟩
          kinds := nofun
          finfo := rfl
          idle := fun _ => by decide
          repeating := fun _ h => by cases h
          literal := fun _ h => by cases h }
      nbitsLe := by decide
      lowZero := by decide
      faulted := fun h => absurd rfl h }
  v1 :=
    { src := ⟨by decide, by decide, by decide, nofun⟩
      kinds := nofun
      finfo := rfl
      varint := rfl
      idle := fun _ => by decide
      delta := fun _ _ => by decide
      literal := fun _ h => by cases h }
  v2 :=
    { src := ⟨by decide, by decide, by decide, nofun⟩
      kinds := nofun
      finfo := fun _ => rfl
      entries := by simp [busy, V2Unit.resetOn]
      countLe := by decide
      noWrap := by decide
      noBuffer := rfl
      faulted := fun h => absurd rfl h }

theorem witness_StepKeepsInvariant : (busy (.next .v2)).Inv ∧ ∃ t, step (busy (.next .v2)) = .next t :=
  ⟨busy_inv, _, rfl⟩

/-- A host command pending in a state. -/
def pend (u : UnitId) (s : State) : State := { s with cmds := [.next u] }

theorem witness_StepRunsDecoded :
    ((pend .byte (byteOn [0x61, 0])).cmds = [.next .byte] ∧ (byteOn [0x61, 0]).byte.latch.fault = none ∧
      (byteOn [0x61, 0]).byte.mode = .idle ∧ ¬ (byteOn [0x61, 0]).byte.src.AtFailure ∧
      decode (.byteRle .unit) (byteOn [0x61, 0]).byte.src.upcoming = .ok (.byteRepeat .unit 97, [0])) ∧
    ((bitOn [0x82, 1]).bit.b.latch.fault = none ∧ (bitOn [0x82, 1]).bit.b.mode = .idle ∧
      ¬ (bitOn [0x82, 1]).bit.b.src.AtFailure ∧
      decode (.byteRle .bitB) (bitOn [0x82, 1]).bit.b.src.upcoming = .ok (.byteLiteral .bitB 2, [1])) ∧
    (∃ t, (bitOn [0x81, 0xA5]).bit.nbits = 0#4 ∧ nextByteRle .bitB { pend .bit (bitOn [0x81, 0xA5]) with cmds := [] } = .next t ∧
      t.bit.b.port = some (.value 0xA5) ∧ decode .bit [0xA5] = .ok (.bitUnpack 0xA5, [])) ∧
    ((v1On [0x85, 2]).v1.latch.fault = none ∧ (v1On [0x85, 2]).v1.mode = .idle ∧ ¬ (v1On [0x85, 2]).v1.src.AtFailure ∧
      decode .v1 (v1On [0x85, 2]).v1.src.upcoming = .ok (.v1Literal 5, [2])) ∧
    ((v2On [0x5E, 3]).v2.latch.fault = none ∧ (v2On [0x5E, 3]).v2.qcount = 0#10 ∧ ¬ (v2On [0x5E, 3]).v2.src.AtFailure ∧
      decode .v2 (v2On [0x5E, 3]).v2.src.upcoming = .ok (.v2Direct 15 0, [3])) ∧
    (¬ (v1On [0xAC, 2]).v1.src.AtFailure ∧ decode .varint (v1On [0xAC, 2]).v1.src.upcoming = .ok (.varintCont 0x2C, [2])) := by
  unfold Source.AtFailure
  exact ⟨by decide, by decide, ⟨_, by decide, rfl, rfl, by decide⟩, by decide, by decide, by decide⟩

theorem witness_StepTakesOneCommand : State.reset.cmds = [] ∧ (busy (.next .bit)).cmds = .next .bit :: [] ∧
    (busy (.reset .v1 [1] (some 1))).cmds = .reset .v1 [1] (some 1) :: [] := ⟨rfl, rfl, rfl⟩

theorem witness_ExecAlwaysAnswers : State.reset.cfg.v1Add = .wrap := rfl

theorem witness_NextAlwaysAnswers : (busy (.next .bit)).cfg.v1Add = .wrap := rfl

theorem witness_ExecFrame : (∃ t, exec (.byteRepeat .unit 0) (byteOn [7]) = .next t) ∧
    (∃ t, exec (.byteLiteral .bitB 1) (bitOn [7]) = .next t) ∧ (∃ t, exec (.bitUnpack 5) State.reset = .next t) ∧
    (∃ t, exec (.v1Delta 0) (v1On [1, 2]) = .next t) ∧ (∃ t, exec (.v2Direct 0 0) (v2On [0, 0x80]) = .next t) ∧
    (∃ t, exec (.varintCont 1) (v1On [2]) = .next t) :=
  ⟨⟨_, rfl⟩, ⟨_, rfl⟩, ⟨_, rfl⟩, ⟨_, rfl⟩, ⟨_, rfl⟩, ⟨_, rfl⟩⟩

theorem witness_NextTouchesOneUnit : ∃ t, nextUnit .v2 (busy (.next .v2)) = .next t := ⟨_, rfl⟩

theorem witness_UnitsCommute :
    (∀ u, (Command.next .byte = .next u ∨ ∃ b f, Command.next .byte = .reset u b f) →
      ¬ (Command.next .v2 = .next u ∨ ∃ b f, Command.next .v2 = .reset u b f)) ∧
    ∃ t, Host.Core.run core 2 { busy (.next .byte) with cmds := [.next .byte, .next .v2] } = .next t :=
  ⟨(by rintro u (h | ⟨_, _, h⟩) (h' | ⟨_, _, h'⟩) <;> cases h <;> cases h'), _, rfl⟩

theorem witness_ValuesDependOnConsumedBytes :
    (∃ t v, nextUnit .byte (byteOn [0, 0xAB, 1]) = .next t ∧ t.byte.port = some (.value v) ∧
      (byteOn [0, 0xAB, 1]).byte.src.AgreeBelow (Source.bind [0, 0xAB, 9, 9] (some 2)) t.byte.src.pos) ∧
    (∃ t v, nextUnit .bit (bitOn [0x81, 0xA5]) = .next t ∧ t.bit.port = some (.value v) ∧
      (bitOn [0x81, 0xA5]).bit.b.src.AgreeBelow (Source.bind [0x81, 0xA5, 9] (some 3)) t.bit.b.src.pos) ∧
    (∃ t v, nextUnit .bit bitOneLeft = .next t ∧ t.bit.port = some (.value v) ∧
      bitOneLeft.bit.b.src.AgreeBelow (Source.bind [1] (some 0)) t.bit.b.src.pos) ∧
    (∃ t v, nextUnit .v1 (v1On [0x81, 0x05]) = .next t ∧ t.v1.port = some (.value v) ∧
      (v1On [0x81, 0x05]).v1.src.AgreeBelow (Source.bind [0x81, 0x05, 7] none) t.v1.src.pos) ∧
    (∃ t v, nextUnit .v2 (v2On [0x40, 0, 0x80]) = .next t ∧ t.v2.port = some (.value v) ∧
      (v2On [0x40, 0, 0x80]).v2.src.AgreeBelow (Source.bind [0x40, 0, 0x80, 7] none) t.v2.src.pos) :=
  ⟨⟨_, _, rfl, rfl, by unfold Source.AgreeBelow; decide⟩, ⟨_, _, rfl, rfl, by unfold Source.AgreeBelow; decide⟩,
    ⟨_, _, rfl, rfl, by unfold Source.AgreeBelow; decide⟩, ⟨_, _, rfl, rfl, by unfold Source.AgreeBelow; decide⟩,
    ⟨_, _, rfl, rfl, by unfold Source.AgreeBelow; decide⟩⟩

end Sys2Proof.Tests
end

section
/-!
What a read of a source answers (20_memory.md rule R43), taken from `srcRead_cases`, `srcRead_atFailure` and
`srcRead_atEnd`.
-/
namespace Sys2Proof.Machine

/-- Before the end and off the failure position, a read answers the byte at the position and passes over it. -/
theorem srcRead_beforeEnd {s : Source} (hf : ¬ s.AtFailure) (hl : s.pos < s.len) :
    srcRead s = (.byte (s.mem.read s.pos), s.skip 1) := by
  obtain ⟨hf', -⟩ | ⟨-, hl', -⟩ | ⟨-, -, h⟩ := srcRead_cases s
  · exact absurd hf' hf
  · omega
  · exact h

/-- A read that answers the end of input leaves the source as it was; that is why the end is sticky. -/
theorem eq_of_srcRead_endOfInput {s s' : Source} (h : srcRead s = (.endOfInput, s')) : s' = s := by
  obtain ⟨-, hr⟩ | ⟨-, -, hr⟩ | ⟨-, -, hr⟩ := srcRead_cases s <;> rw [hr] at h
  · cases h
  · cases h
    rfl
  · cases h

/-- Settles O8: each answer is the clause of `srcRead` its condition selects, and the end of input repeats because the
read that met it did not change the source. -/
theorem sourceReadAnswers : Obligations.SourceReadAnswers := by
  intro s
  refine ⟨srcRead_atFailure, fun hf hend => srcRead_atEnd ⟨hend, hf⟩, srcRead_beforeEnd, fun s' h => ?_⟩
  have hs : s' = s := eq_of_srcRead_endOfInput h
  rw [hs] at h ⊢
  exact h

end Sys2Proof.Machine
end

section
/-!
The operand forms of 30_encoding.md rules R78 to R81 as numbers: run lengths, the signed delta, and the width, length and
payload size of a Direct run.
-/
namespace Sys2Proof.Machine

/-! Run lengths and the delta operand. -/

@[simp] theorem toNat_repeatLength (n : BitVec 7) : (repeatLength n).toNat = n.toNat + 3 := by
  have hn := n.isLt
  simp only [repeatLength, Config.runBias, BitVec.toNat_add, BitVec.toNat_setWidth, BitVec.toNat_ofNat]
  omega

@[simp] theorem toNat_literalLength (n : BitVec 7) : (literalLength n).toNat = n.toNat :=
  BitVec.toNat_setWidth_of_le (by decide)

/-- Sign extension keeps the signed value. -/
@[simp] theorem asI64_deltaOperand (d : Byte) : asI64 (deltaOperand d) = d.toInt :=
  BitVec.toInt_signExtend_of_le (by decide)

/-- The 7-bit field of a control byte. -/
theorem toNat_controlField (c : Byte) : (c.extractLsb' 0 7).toNat = c.toNat % 128 := by
  simp [BitVec.extractLsb'_toNat]

/-- Settles O5: the lengths of the 7-bit field, which is the control byte modulo 128, and the two's complement reading of
the operand byte, which the sign extension keeps. -/
theorem runLengthsAndDelta : Obligations.RunLengthsAndDelta := by
  refine ⟨fun c hc => ?_, fun c hc => ?_, fun d => ?_⟩
  · rw [toNat_repeatLength, toNat_controlField, Nat.mod_eq_of_lt hc]
  · have hlt := c.isLt
    rw [toNat_literalLength, toNat_controlField]
    omega
  · rw [asI64_deltaOperand, BitVec.toInt_eq_toNat_cond]
    split <;> split <;> omega

/-! The header of a Direct run. -/

/-- Every code of a legal table has a width from 1 to 64 (46_bitwidth_table.md rule R201). -/
theorem directWidth_bounds {cfg : Config} (hwf : cfg.wf = true) (w : BitVec 5) :
    1 ≤ directWidth cfg w ∧ directWidth cfg w ≤ 64 := by
  obtain ⟨hlen, hall⟩ : cfg.bwt.length = 32 ∧ ∀ x ∈ cfg.bwt, 1 ≤ x.toNat ∧ x.toNat ≤ 64 := by
    simpa [Config.wf] using hwf
  have hw : w.toNat < cfg.bwt.length := hlen ▸ w.isLt
  have hentry : directWidth cfg w = cfg.bwt[w.toNat].toNat := by simp [directWidth, hw]
  rw [hentry]
  exact hall _ (List.getElem_mem hw)

/-- The 9-bit length field as a number: `l8` above the eight bits of `b1`. -/
theorem directLength_eq (l8 : BitVec 1) (b1 : Byte) : directLength l8 b1 = l8.toNat * 256 + b1.toNat + 1 := by
  rw [directLength, BitVec.toNat_append, ← Nat.shiftLeft_add_eq_or_of_lt b1.isLt, Nat.shiftLeft_eq]

theorem directLength_bounds (l8 : BitVec 1) (b1 : Byte) : 1 ≤ directLength l8 b1 ∧ directLength l8 b1 ≤ 512 := by
  have hl := l8.isLt
  have hb := b1.isLt
  rw [directLength_eq]
  omega

/-- `payloadBytes W L` is the least number of bytes that covers `W * L` bits. -/
theorem payloadBytes_covers_least (W L : Nat) :
    W * L ≤ 8 * payloadBytes W L ∧ 8 * payloadBytes W L < W * L + 8 := by
  unfold payloadBytes
  omega

/-- A header that decodes to a Direct run has tag 01, and its fields are bits 5 to 1 and bit 0. -/
theorem fields_of_decodeLead_v2Direct {h : Byte} {w : BitVec 5} {l8 : BitVec 1} (hd : decodeLead .v2 h = .v2Direct w l8) :
    w.toNat = h.toNat / 2 % 32 ∧ l8.toNat = h.toNat % 2 := by
  simp only [decodeLead] at hd
  split at hd <;> cases hd
  simp [BitVec.extractLsb'_toNat, Nat.shiftRight_eq_div_pow]

/-- Settles O6: the fields from the header's decoding, the bounds of width and length, and from them those of the
payload, whose size is the ceiling of at least 1 and at most 64 × 512 bits. -/
theorem directHeaderFields : Obligations.DirectHeaderFields := by
  intro cfg h b1 w l8 hwf hd
  obtain ⟨hw, hl8⟩ := fields_of_decodeLead_v2Direct hd
  obtain ⟨hW1, hW64⟩ := directWidth_bounds hwf w
  obtain ⟨hL1, hL512⟩ := directLength_bounds l8 b1
  obtain ⟨hcover, hleast⟩ := payloadBytes_covers_least (directWidth cfg w) (directLength l8 b1)
  have hbits1 : 1 * 1 ≤ directWidth cfg w * directLength l8 b1 := Nat.mul_le_mul hW1 hL1
  have hbitsMax : directWidth cfg w * directLength l8 b1 ≤ 64 * 512 := Nat.mul_le_mul hW64 hL512
  have hwidth : directWidth cfg w = (cfg.bwt.getD (h.toNat / 2 % 32) 0).toNat := by rw [directWidth, hw]
  have hlength : directLength l8 b1 = (h.toNat % 2 * 256 + b1.toNat) + 1 := by rw [directLength_eq, hl8]
  exact ⟨hwidth, hW1, hW64, hlength, hL512, hcover, hleast, by omega, by omega⟩

end Sys2Proof.Machine
end

section
/-!
The byte-RLE decoder's calls (42_byte_rle.md rules R120 to R126): one equation per case of the delivery, of the rest of a
call after its control byte, and of the fetch of a control byte, then what a call makes of empty literal runs.
-/
namespace Sys2Proof.Machine

/-! Delivery inside a run. -/

/-- The count-down with its test for the last value said of the counter before the call. -/
theorem ByteDec.countDown_eq (u : ByteDec) :
    u.countDown = { u with mode := if u.cnt = 1#8 then .idle else u.mode, cnt := u.cnt - 1#8 } := by
  have hlast : u.cnt - 1#8 = 0#8 ↔ u.cnt = 1#8 := sub_eq_zero
  simp only [countDown, hlast]

theorem ByteDec.deliverRepeat_eq (u : ByteDec) :
    u.deliverRepeat = { u with
      mode := if u.cnt = 1#8 then .idle else u.mode
      cnt := u.cnt - 1#8
      port := some (.value u.val) } := by
  rw [deliverRepeat, countDown_eq, answer]

theorem ByteDec.deliverLiteral_offers (who : ByteInst) {u : ByteDec} {b : Byte} (h : u.src.Offers [b]) :
    u.deliverLiteral who = { u with
      mode := if u.cnt = 1#8 then .idle else u.mode
      cnt := u.cnt - 1#8
      src := u.src.skip 1
      port := some (.value b) } := by
  simp only [deliverLiteral, readMore_offers h, countDown_eq, answer]

theorem ByteDec.deliverLiteral_atEnd (who : ByteInst) {u : ByteDec} (h : u.src.AtEnd) :
    u.deliverLiteral who = u.raise who .truncation 0 := by
  simp only [deliverLiteral, readMore_atEnd h, stop_raise]

theorem ByteDec.deliverLiteral_atFailure (who : ByteInst) {u : ByteDec} (h : u.src.AtFailure) :
    u.deliverLiteral who = u.raise who .ioFailure 0 := by
  simp only [deliverLiteral, readMore_atFailure h, stop_raise]

/-! The rest of a call whose control byte is read. -/

/-- A repeat run whose value byte is there enters repeat-mode and delivers (42_byte_rle.md rule R122). -/
theorem ByteDec.runRepeat_offers (who : ByteInst) (n : BitVec 7) {u : ByteDec} {v : Byte} (h : u.src.Offers [v]) :
    u.runRepeat who n =
      { u with src := u.src.skip 1, val := v, cnt := repeatLength n, mode := .repeatRun }.deliverRepeat := by
  simp only [runRepeat, readMore_offers h]

theorem repeatLength_eq_ofNat (n : BitVec 7) : repeatLength n = BitVec.ofNat 8 (n.toNat + 3) := by
  have hn := n.isLt
  exact BitVec.eq_of_toNat_eq (by simp; omega)

theorem literalLength_eq_ofNat (n : BitVec 7) : literalLength n = BitVec.ofNat 8 n.toNat :=
  (BitVec.ofNat_toNat 8 n).symm

/-- A run of at least three copies is not over after its first one (42_byte_rle.md rule R122). -/
theorem ByteDec.runRepeat_firstValue (who : ByteInst) (n : BitVec 7) {u : ByteDec} {v : Byte} (h : u.src.Offers [v]) :
    u.runRepeat who n = { u with
      mode := .repeatRun
      cnt := BitVec.ofNat 8 (n.toNat + 2)
      val := v
      src := u.src.skip 1
      port := some (.value v) } := by
  have hmore : repeatLength n ≠ 1#8 := by simp [← BitVec.toNat_inj]
  have hleft : repeatLength n - 1#8 = BitVec.ofNat 8 (n.toNat + 2) := by
    rw [repeatLength_eq_ofNat]
    bv_omega
  rw [runRepeat_offers who n h, deliverRepeat_eq]
  simp only [hmore, hleft, if_false]

/-- A literal run of one byte is over after it (42_byte_rle.md rule R123). -/
theorem ByteDec.runLiteral_firstValue (who : ByteInst) {n : BitVec 7} {u : ByteDec} {b : Byte} (hn : n ≠ 0#7)
    (h : u.src.Offers [b]) :
    u.runLiteral who n = { u with
      mode := if n.toNat = 1 then .idle else .literalRun
      cnt := BitVec.ofNat 8 (n.toNat - 1)
      src := u.src.skip 1
      port := some (.value b) } := by
  have hone : literalLength n = 1#8 ↔ n.toNat = 1 := by
    rw [← BitVec.toNat_inj, toNat_literalLength]
    rfl
  have hleft : literalLength n - 1#8 = BitVec.ofNat 8 (n.toNat - 1) := by
    rw [literalLength_eq_ofNat]
    bv_omega
  rw [runLiteral, deliverLiteral_offers who (u := { u with cnt := literalLength n, mode := .literalRun }) h]
  simp only [hone, hleft]

theorem exec_byteRepeat (who : ByteInst) (n : BitVec 7) (s : State) :
    exec (.byteRepeat who n) s = .next (s.setByteDec who ((s.byteDec who).runRepeat who n)) := rfl

theorem exec_byteLiteral_nonempty (who : ByteInst) {n : BitVec 7} (hn : n ≠ 0#7) (s : State) :
    exec (.byteLiteral who n) s = .next (s.setByteDec who ((s.byteDec who).runLiteral who n)) :=
  if_neg hn

theorem exec_byteLiteral_empty (who : ByteInst) (s : State) :
    exec (.byteLiteral who 0) s = .next (s.setByteDec who ((s.byteDec who).fallThrough who)) := rfl

/-! A call inside a run. -/

theorem nextByteRle_repeatRun {who : ByteInst} {s : State} (hf : (s.byteDec who).latch.fault = none)
    (hm : (s.byteDec who).mode = .repeatRun) :
    nextByteRle who s = .next (s.setByteDec who (s.byteDec who).deliverRepeat) := by
  simp only [nextByteRle, hf, hm]

theorem nextByteRle_literalRun {who : ByteInst} {s : State} (hf : (s.byteDec who).latch.fault = none)
    (hm : (s.byteDec who).mode = .literalRun) :
    nextByteRle who s = .next (s.setByteDec who ((s.byteDec who).deliverLiteral who)) := by
  simp only [nextByteRle, hf, hm]

/-- Settles O15: a call that finds repeat-mode is `deliverRepeat`, and so is the rest of the call that enters it. -/
theorem byteDeliveryInRepeatMode : Obligations.ByteDeliveryInRepeatMode := by
  intro who s hf
  refine ⟨fun hm => ?_, fun n v hv => ?_⟩
  · rw [nextByteRle_repeatRun hf hm, ByteDec.deliverRepeat_eq, hm]
  · rw [exec_byteRepeat, ByteDec.runRepeat_offers who n hv, nextByteRle_repeatRun (by simpa using hf) (by simp)]
    simp only [State.byteDec_setByteDec, State.setByteDec_setByteDec, repeatLength_eq_ofNat]

/-- Settles O16: a call that finds literal-mode is `deliverLiteral`, whose one read decides its outcome, and so is the rest
of the call that enters it. -/
theorem byteDeliveryInLiteralMode : Obligations.ByteDeliveryInLiteralMode := by
  intro who s hf
  refine ⟨fun hm => ?_, fun n hn => ?_⟩
  · rw [nextByteRle_literalRun hf hm]
    refine ⟨fun b hb => ?_, fun hend => ⟨_, rfl, ?_⟩, fun hfail => ⟨_, rfl, ?_⟩⟩
    · rw [ByteDec.deliverLiteral_offers who hb, hm]
    · simp [ByteDec.deliverLiteral_atEnd who hend]
    · simp [ByteDec.deliverLiteral_atFailure who hfail]
  · rw [exec_byteLiteral_nonempty who hn, ByteDec.runLiteral, nextByteRle_literalRun (by simpa using hf) (by simp)]
    simp only [State.byteDec_setByteDec, State.setByteDec_setByteDec, literalLength_eq_ofNat]

/-! The control byte and its fetch. -/

/-- Bit 7 is clear in the control bytes of repeat runs, those below 128 (42_byte_rle.md rule R121). -/
theorem controlBit_of_lt {b : Byte} (hb : b.toNat < 128) : b[7] = false :=
  (BitVec.msb_eq_decide b).trans (decide_eq_false hb.not_ge)

/-- Bit 7 is set in the control bytes of literal runs, those from 128 on (42_byte_rle.md rule R121). -/
theorem controlBit_of_ge {b : Byte} (hb : 128 ≤ b.toNat) : b[7] = true :=
  (BitVec.msb_eq_decide b).trans (decide_eq_true hb)

theorem decodeLead_byteRle_of_lt (who : ByteInst) {b : Byte} (hb : b.toNat < 128) :
    decodeLead (.byteRle who) b = .byteRepeat who (b.extractLsb' 0 7) := by
  simp only [decodeLead, controlBit_of_lt hb]

theorem decodeLead_byteRle_of_ge (who : ByteInst) {b : Byte} (hb : 128 ≤ b.toNat) :
    decodeLead (.byteRle who) b = .byteLiteral who (b.extractLsb' 0 7) := by
  simp only [decodeLead, controlBit_of_ge hb]

theorem decodeLead_emptyRunControl (who : ByteInst) :
    decodeLead (.byteRle who) emptyRunControl = .byteLiteral who 0 :=
  decodeLead_byteRle_of_ge who (by decide)

/-- The field of a literal run's control byte is its length. -/
theorem toNat_controlField_of_ge {b : Byte} (hb : 128 ≤ b.toNat) : (b.extractLsb' 0 7).toNat = b.toNat - 128 := by
  have hlt := b.isLt
  rw [toNat_controlField]
  omega

/-- Only the control byte 0x80 begins an empty literal run. -/
theorem controlField_ne_zero {b : Byte} (hb : 128 < b.toNat) : b.extractLsb' 0 7 ≠ 0#7 := by
  have hn := toNat_controlField_of_ge hb.le
  rw [ne_eq, ← BitVec.toNat_inj, BitVec.toNat_zero]
  omega

theorem fetchByteRle_offers {who : ByteInst} {s : State} {c : Byte} (h : (s.byteDec who).src.Offers [c]) :
    fetchByteRle who s = exec (decodeLead (.byteRle who) c)
      (s.setByteDec who { s.byteDec who with src := (s.byteDec who).src.skip 1 }) := by
  simp only [fetchByteRle, readFirst_offers h]

theorem fetchByteRle_atEnd {who : ByteInst} {s : State} (h : (s.byteDec who).src.AtEnd) :
    fetchByteRle who s = .next (s.setByteDec who ((s.byteDec who).answer .eos)) := by
  simp only [fetchByteRle, readFirst_atEnd h, ByteDec.stop_eos]

theorem fetchByteRle_atFailure {who : ByteInst} {s : State} (h : (s.byteDec who).src.AtFailure) :
    fetchByteRle who s = .next (s.setByteDec who ((s.byteDec who).raise who .ioFailure 0)) := by
  simp only [fetchByteRle, readFirst_atFailure h, ByteDec.stop_raise]

/-- A fetched repeat run whose value byte is there delivers its first copy. -/
theorem fetchByteRle_repeat {who : ByteInst} {s : State} {c v : Byte} (hc : c.toNat < 128)
    (h : (s.byteDec who).src.Offers [c, v]) :
    fetchByteRle who s = .next (s.setByteDec who { s.byteDec who with
      mode := .repeatRun
      cnt := BitVec.ofNat 8 (c.toNat + 2)
      val := v
      src := (s.byteDec who).src.skip 2
      port := some (.value v) }) := by
  obtain ⟨hctl, hval⟩ := Source.offers_cons.mp h
  have hn : (c.extractLsb' 0 7).toNat = c.toNat := by rw [toNat_controlField, Nat.mod_eq_of_lt hc]
  rw [fetchByteRle_offers hctl, decodeLead_byteRle_of_lt who hc, exec_byteRepeat, State.byteDec_setByteDec,
    ByteDec.runRepeat_firstValue who _ hval, State.setByteDec_setByteDec, hn, Source.skip_skip]

/-- A fetched literal run of at least one byte whose first byte is there delivers it. -/
theorem fetchByteRle_literal {who : ByteInst} {s : State} {c b : Byte} (hc : 128 < c.toNat)
    (h : (s.byteDec who).src.Offers [c, b]) :
    fetchByteRle who s = .next (s.setByteDec who { s.byteDec who with
      mode := if c.toNat = 129 then .idle else .literalRun
      cnt := BitVec.ofNat 8 (c.toNat - 129)
      src := (s.byteDec who).src.skip 2
      port := some (.value b) }) := by
  obtain ⟨hctl, hlit⟩ := Source.offers_cons.mp h
  have hne := controlField_ne_zero hc
  have hone : c.toNat - 128 = 1 ↔ c.toNat = 129 := by omega
  have hleft : c.toNat - 128 - 1 = c.toNat - 129 := by omega
  rw [fetchByteRle_offers hctl, decodeLead_byteRle_of_ge who hc.le, exec_byteLiteral_nonempty who hne,
    State.byteDec_setByteDec, ByteDec.runLiteral_firstValue who hne hlit, State.setByteDec_setByteDec,
    toNat_controlField_of_ge hc.le, Source.skip_skip]
  simp only [hone, hleft]

/-! Empty literal runs. -/

/-- A read that finds a byte is of one the source offers. -/
theorem Source.offers_read {s : Source} (hf : ¬ s.AtFailure) (hl : s.pos < s.len) : s.Offers [s.mem.read s.pos] := by
  refine ⟨hl, fun k hk => ?_⟩
  obtain rfl : k = 0 := by simpa using hk
  exact ⟨hf, rfl⟩

/-- Falling through at a further empty run is falling through after it. -/
theorem ByteDec.fallThrough_offers_empty (who : ByteInst) {u : ByteDec} (h : u.src.Offers [emptyRunControl]) :
    u.fallThrough who = { u with src := u.src.skip 1 }.fallThrough who := by
  simp only [fallThrough, skipEmptyRuns_cons h]

/-- The empty literal run goes on as the fetch of the next control byte, whatever is there (42_byte_rle.md rule R124). -/
theorem exec_byteLiteral_empty_eq_fetch (who : ByteInst) (s : State) :
    exec (.byteLiteral who 0) s = fetchByteRle who s := by
  by_cases h : (s.byteDec who).src.Offers [emptyRunControl]
  · rw [fetchByteRle_offers h, decodeLead_emptyRunControl, exec_byteLiteral_empty, exec_byteLiteral_empty,
      ByteDec.fallThrough_offers_empty who h, State.byteDec_setByteDec, State.setByteDec_setByteDec]
  · rw [exec_byteLiteral_empty, ByteDec.fallThrough, fetchByteRle, skipEmptyRuns_none h]
    obtain ⟨-, hr⟩ | ⟨-, -, hr⟩ | ⟨hf, hl, hr⟩ := readFirst_cases (s.byteDec who).src
    · simp only [hr]
    · simp only [hr]
    · have ho := Source.offers_read hf hl
      simp only [hr]
      generalize (s.byteDec who).src.mem.read (s.byteDec who).src.pos = b at ho
      obtain hlt | heq | hgt := Nat.lt_trichotomy b.toNat 128
      · simp [controlBit_of_lt hlt, decodeLead_byteRle_of_lt who hlt, exec_byteRepeat]
      · exact absurd (BitVec.eq_of_toNat_eq (y := emptyRunControl) heq ▸ ho) h
      · simp [controlBit_of_ge hgt.le, decodeLead_byteRle_of_ge who hgt.le,
          exec_byteLiteral_nonempty who (controlField_ne_zero hgt)]

/-- Any number of further empty runs are passed over, and the fetch is of the control byte after them
(42_byte_rle.md rule R124). -/
theorem exec_byteLiteral_empty_offers (who : ByteInst) (z : Nat) (s : State)
    (h : (s.byteDec who).src.Offers (List.replicate z emptyRunControl)) :
    exec (.byteLiteral who 0) s =
      fetchByteRle who (s.setByteDec who { s.byteDec who with src := (s.byteDec who).src.skip z }) := by
  induction z generalizing s with
  | zero => rw [Source.skip_zero, State.setByteDec_byteDec, exec_byteLiteral_empty_eq_fetch]
  | succ z ih =>
    obtain ⟨hfirst, hrest⟩ := Source.offers_cons.mp h
    rw [exec_byteLiteral_empty_eq_fetch, fetchByteRle_offers hfirst, decodeLead_emptyRunControl,
      ih _ (by simpa using hrest)]
    simp [Nat.add_comm 1]

/-- Settles O14: the empty runs are passed over to the fetch of the control byte after them, and that byte, the end or the
failure there decides the call. -/
theorem emptyByteLiteralsInOneCall : Obligations.EmptyByteLiteralsInOneCall := by
  intro who s z hz
  have hafter {bs : List Byte} (h : (s.byteDec who).src.Offers (List.replicate z 0x80 ++ bs)) :
      ((s.byteDec who).src.skip z).Offers bs := by
    simpa using (Source.offers_append.mp h).2
  rw [exec_byteLiteral_empty_offers who z s hz]
  refine ⟨fun c v hc h => ?_, fun c b hc h => ?_, fun hend => ?_, fun hfail => ?_⟩
  · rw [fetchByteRle_repeat hc (by simpa using hafter h)]
    simp
  · rw [fetchByteRle_literal hc (by simpa using hafter h)]
    simp
  · rw [fetchByteRle_atEnd (by simpa using hend)]
    simp [ByteDec.answer]
  · rw [fetchByteRle_atFailure (by simpa using hfail)]
    exact ⟨_, congrArg _ (State.setByteDec_setByteDec ..), by simp, by simp, by simp⟩

end Sys2Proof.Machine
end

section
/-!
BIT's calls (43_bit_unpack.md rule R141): `BIT.UNPACK`, a call that finds a loaded byte, and what a call with none loaded
makes of each outcome of `BIT.B`.
-/
namespace Sys2Proof.Machine

theorem BitUnit.deliver_eq (u : BitUnit) :
    u.deliver = { u with
      cur := u.cur <<< 1
      nbits := u.nbits - 1#4
      port := some (.value (u.cur[7])) } := rfl

theorem exec_bitUnpack (b : Byte) (s : State) :
    exec (.bitUnpack b) s = .next { s with bit := { s.bit with cur := b, nbits := 8 }.deliver } := rfl

/-- A call that finds a loaded byte delivers its next bit and pulls nothing. -/
theorem nextUnit_bit_loaded {s : State} (h : s.bit.nbits ≠ 0#4) :
    nextUnit .bit s = .next { s with bit := s.bit.deliver } :=
  if_neg h

/-- With no byte loaded, the call is what BIT makes of the outcome of `BIT.B`. -/
theorem nextUnit_bit_pulls {s t : State} (h : s.bit.nbits = 0#4) (ht : nextByteRle .bitB s = .next t) :
    nextUnit .bit s = bitFromPipeline t := by
  simp only [nextUnit, nextBit, if_pos h, ht]

theorem bitFromPipeline_value {t : State} {b : Byte} (h : t.bit.b.port = some (.value b)) :
    bitFromPipeline t = exec (.bitUnpack b) t := by
  simp only [bitFromPipeline, h, decodeLead]

theorem bitFromPipeline_eos {t : State} (h : t.bit.b.port = some .eos) :
    bitFromPipeline t = .next { t with bit := t.bit.answer .eos } := by
  simp only [bitFromPipeline, h]

theorem bitFromPipeline_err {t : State} {k : ErrKind} {info : Byte} (h : t.bit.b.port = some (.err k info)) :
    bitFromPipeline t = .next { t with bit := t.bit.answer (.err k info) } := by
  simp only [bitFromPipeline, h]

/-- Nothing is left of a byte after the delivery of its last bit, which stands in bit 7 with zeros below it
(10_state.md rule R14). -/
theorem BitUnit.deliver_cur_of_lowZero {u : BitUnit} (h : ∀ j, j < 7 → u.cur.getLsbD j = false) :
    u.deliver.cur = 0#8 := by
  rw [deliver_cur]
  refine BitVec.eq_of_getLsbD_eq fun i hi => ?_
  have hlow : u.cur.getLsbD (i - 1) = false := h _ (by omega)
  simp [hlow]

/-- Settles O21: `BIT.UNPACK` is a delivery from the byte it loads, a call with a byte loaded is a delivery, and otherwise
the port of `BIT.B` selects the clause of `bitFromPipeline`. -/
theorem bitNextRule : Obligations.BitNextRule := by
  refine ⟨fun b s => ?_, fun s hloaded => ?_, fun s t hempty hpull => ?_, fun s hone hlow => ?_⟩
  · have hcount : 8#4 - 1#4 = 7#4 := by decide
    simp only [exec_bitUnpack, BitUnit.deliver_eq, BitVec.ofNat_eq_ofNat, hcount]
  · rw [nextUnit_bit_loaded hloaded, BitUnit.deliver_eq]
  · rw [nextUnit_bit_pulls hempty hpull]
    exact ⟨fun b hb => bitFromPipeline_value hb, fun heos => bitFromPipeline_eos heos,
      fun k info herr => bitFromPipeline_err herr⟩
  · have hloaded : s.bit.nbits ≠ 0#4 := by simp [hone]
    exact ⟨_, nextUnit_bit_loaded hloaded, by simp [hone], BitUnit.deliver_cur_of_lowZero hlow⟩

end Sys2Proof.Machine
end

section
/-!
The bit-width table (46_bitwidth_table.md rules R200 and R201): its length, the bounds of its widths, and the legality of
every configuration that carries it.
-/
namespace Sys2Proof

@[simp] theorem Config.documentTable_length : documentTable.length = 32 := rfl

/-- The default configuration carries the document's table. -/
@[simp] theorem Config.standard_bwt : standard.bwt = documentTable := rfl

/-- Every width of the document's table is from 1 to 64 (46_bitwidth_table.md rule R201). -/
theorem Config.documentTable_widths : ∀ w ∈ documentTable, 1 ≤ w.toNat ∧ w.toNat ≤ 64 := by decide

/-- A configuration that carries the document's table is legal, whatever its other parameters are. -/
theorem Config.wf_of_bwt_eq_documentTable {c : Config} (h : c.bwt = documentTable) : c.wf = true := by
  simpa [wf, h] using documentTable_widths

/-- Settles O7: the table has 32 entries, each of the 32 codes is looked up, and the bounds of the widths make the default
configuration legal. -/
theorem bitWidthTableEntries : Obligations.BitWidthTableEntries := by
  refine ⟨?_, ?_, Config.wf_of_bwt_eq_documentTable Config.standard_bwt⟩
  · rw [Config.standard_bwt, Config.documentTable_length]
  · decide

end Sys2Proof
end

section
/-!
The encodings (30_encoding.md rules R83 and R84): decoder and encoder as inverses of each other, and the one row of the
opcode map that a leading byte fits. The facts about single bytes are finite, at most 256 byte values for a reader.
-/
namespace Sys2Proof

/-- Settles O1: each byte's tag and fields are read off its bits. -/
theorem leadingBytesDecode : Obligations.LeadingBytesDecode := by
  unfold Obligations.LeadingBytesDecode
  decide

theorem decodeLead_encodeLead (i : Instr) : decodeLead i.reader (encodeLead i) = i := by
  cases i with
  | byteRepeat who n => revert n; cases who <;> decide
  | byteLiteral who n => revert n; cases who <;> decide
  | bitUnpack b => rfl
  | v1Delta n => revert n; decide
  | v1Literal n => revert n; decide
  | v2ShortRepeat x => revert x; decide
  | v2Direct w l8 => revert w l8; decide
  | v2PatchedBase x => revert x; decide
  | v2Delta x => revert x; decide
  | varintCont d => revert d; decide
  | varintLast d => revert d; decide

/-- Settles O2: an encoding is one leading byte, and that byte decodes to the instruction. -/
theorem decodeOfEncode : Obligations.DecodeOfEncode := by
  intro i rest _
  simp only [encode, List.cons_append, List.nil_append, decode, decodeLead_encodeLead]

theorem encodeLead_decodeLead (r : Reader) (c : Byte) : encodeLead (decodeLead r c) = c := by
  cases r with
  | byteRle who => revert c; cases who <;> decide
  | bit => rfl
  | v1 => revert c; decide
  | v2 => revert c; decide
  | varint => revert c; decide

theorem reader_decodeLead (r : Reader) (b : Byte) : (decodeLead r b).reader = r := by
  cases r with
  | byteRle who => cases h : b[7] <;> simp [decodeLead, h, Instr.reader]
  | bit => rfl
  | v1 => cases h : b[7] <;> simp [decodeLead, h, Instr.reader]
  | v2 => cases h : b[7] <;> cases h' : b[6] <;> simp [decodeLead, h, h', Instr.reader]
  | varint => cases h : b[7] <;> simp [decodeLead, h, Instr.reader]

/-- The rows of a reader's map do not overlap, and the one a byte fits is that of the instruction it decodes to. -/
theorem mnemonics_of_fitting_rows (r : Reader) (c : Byte) :
    ((opcodeRows r).filter fun row => row.fits c).map OpcodeRow.mnemonic = [(decodeLead r c).mnemonic] := by
  cases r with
  | byteRle who => revert c; cases who <;> decide
  | bit => simp [opcodeRows, OpcodeRow.fits, decodeLead, Instr.mnemonic]
  | v1 => revert c; decide
  | v2 => revert c; decide
  | varint => revert c; decide

/-- Settles O3: the encoder inverts the decoder, which keeps to its reader, and one row fits. -/
theorem everyByteIsOneRow : Obligations.EveryByteIsOneRow := fun r c =>
  ⟨congrArg (fun b => [b]) (encodeLead_decodeLead r c), reader_decodeLead r c, mnemonics_of_fitting_rows r c⟩

end Sys2Proof
end

section
/-!
What stands outside the machine: the wires of a response port (10_state.md rule R31) and the signed view of 64 bits
(00_scope.md rule R6).
-/
namespace Sys2Proof.Machine

/-- Settles O58: each outcome and each kind by its clause of `wires` and `errCode`; only BYTE's value and BIT's value are
brought to another width. -/
theorem responseWires : Obligations.ResponseWires := by
  refine ⟨fun b => ?_, fun b => ?_, fun v => rfl, fun _ _ => rfl, fun _ _ _ _ => rfl, rfl, rfl, rfl, rfl⟩
  · rw [wires, byteData, BitVec.ofNat_toNat]
  · cases b <;> rfl

/-- Settles O59: two's complement subtracts 2^64 exactly from 2^63 on. -/
theorem signedViewReinterprets : Obligations.SignedViewReinterprets := by
  intro u
  rw [asI64, BitVec.toInt_eq_toNat_cond]
  split <;> split <;> omega

end Sys2Proof.Machine
end

section
/-!
A bound source (20_memory.md rules R40, R41 and R43, 70_reset_and_hazards.md rule R240): the bytes it holds, its invariant,
and its reads.
-/
namespace Sys2Proof.Machine

/-- The cells of a byte sequence lie at the positions of the sequence. -/
theorem Memory.lt_of_mem_ofBytesFrom {cell : Host.Cell} :
    ∀ (bs : List Byte) (a : Nat), cell ∈ ofBytesFrom a bs → cell.1 < a + bs.length
  | [], _, h => by simp [ofBytesFrom] at h
  | b :: bs, a, h => by
    have ih := lt_of_mem_ofBytesFrom (cell := cell) bs (a + 1)
    rw [List.length_cons]
    by_cases hb : b = unlisted
    · have := ih (by simpa [ofBytesFrom, hb] using h)
      omega
    · obtain rfl | hcell : cell = (a, b) ∨ cell ∈ ofBytesFrom (a + 1) bs := by simpa [ofBytesFrom, hb] using h
      · simp
      · have := ih hcell
        omega

@[simp] theorem Source.bind_len (bytes : List Byte) (fail : Option Nat) : (bind bytes fail).len = bytes.length := rfl
@[simp] theorem Source.bind_pos (bytes : List Byte) (fail : Option Nat) : (bind bytes fail).pos = 0 := rfl
@[simp] theorem Source.bind_fail (bytes : List Byte) (fail : Option Nat) : (bind bytes fail).fail = fail := rfl

@[simp] theorem Source.read_bind (bytes : List Byte) (fail : Option Nat) (i : Nat) :
    (bind bytes fail).mem.read i = bytes.getD i 0 :=
  (Memory.read_ofBytesFrom bytes 0 i).trans (if_pos (Nat.zero_le i))

theorem Source.bind_inv {bytes : List Byte} {fail : Option Nat} (h : legalFail bytes fail = true) :
    (bind bytes fail).Inv where
  canonical := Memory.ofBytes_wf bytes
  inside cell hcell := by simpa using Memory.lt_of_mem_ofBytesFrom bytes 0 hcell
  posLe := Nat.zero_le _
  failLe p hp := by
    obtain rfl : fail = some p := hp
    simpa [legalFail] using h

/-- Settles O9: the invariant of a bound source, and the memory of its byte sequence read at a position. -/
theorem boundSourceHoldsItsBytes : Obligations.BoundSourceHoldsItsBytes := fun bytes fail h =>
  ⟨Source.bind_inv h, rfl, rfl, rfl, Source.read_bind bytes fail⟩

/-- Settles O10: a bound source `k` bytes on stands at position `k`, where the answer of the read is the failure's, the
byte's or the end's. -/
theorem boundSourceReadsInOrder : Obligations.BoundSourceReadsInOrder := by
  intro bytes fail k
  refine ⟨fun hfail => srcRead_atFailure ?_, fun hfail hk => ?_, fun hfail => srcRead_atEnd ⟨?_, ?_⟩⟩
  · simpa [Source.AtFailure] using hfail
  · rw [srcRead_beforeEnd (by simpa [Source.AtFailure] using hfail) (by simpa using hk)]
    simp [hk]
  · simp
  · simpa using hfail

/-- A source bound without a failure position offers its bytes. -/
theorem Source.offers_bind (bytes : List Byte) : (bind bytes none).Offers bytes :=
  ⟨by simp, fun k _ => by simp⟩

theorem Source.atEnd_bind (bytes : List Byte) : ((bind bytes none).skip bytes.length).AtEnd :=
  ⟨by simp, by simp⟩

end Sys2Proof.Machine
end

section
/-!
The bytes a call passes over, and which sources a call cannot tell apart.
-/
namespace Sys2Proof.Machine

/-- The bytes a call reads: the next ones of its source, or none at all, which any source offers, also one whose position is
past its end (assumption 8). -/
def Source.Passes (s : Source) (bs : List Byte) : Prop := bs = [] ∨ s.Offers bs

@[simp] theorem Source.passes_nil (s : Source) : s.Passes [] := .inl rfl

theorem Source.Offers.passes {s : Source} {bs : List Byte} (h : s.Offers bs) : s.Passes bs := .inr h

theorem Source.Passes.offers {s : Source} {bs : List Byte} (h : s.Passes bs) (hl : s.pos ≤ s.len) : s.Offers bs := by
  obtain rfl | h := h
  · exact offers_nil.mpr hl
  · exact h

theorem Source.passes_cons {s : Source} {b : Byte} {bs : List Byte} :
    s.Passes (b :: bs) ↔ s.Offers [b] ∧ (s.skip 1).Passes bs := by
  constructor
  · rintro (h | h)
    · cases h
    · exact ⟨(offers_cons.mp h).1, (offers_cons.mp h).2.passes⟩
  · rintro ⟨hb, h⟩
    exact .inr (offers_cons.mpr ⟨hb, h.offers hb.1⟩)

theorem Source.passes_append {s : Source} {bs cs : List Byte} :
    s.Passes (bs ++ cs) ↔ s.Passes bs ∧ (s.skip bs.length).Passes cs := by
  induction bs generalizing s with
  | nil => simp
  | cons b bs ih =>
    rw [List.cons_append, passes_cons, ih, passes_cons, and_assoc]
    simp [Nat.add_comm 1]

/-- Reading what is there keeps the invariant of a source. -/
theorem Source.Passes.inv {s : Source} {bs : List Byte} (h : s.Passes bs) (hi : s.Inv) : (s.skip bs.length).Inv where
  canonical := hi.canonical
  inside := hi.inside
  posLe := (h.offers hi.posLe).1
  failLe := hi.failLe

/-- A source that agrees up to the end of the bytes passed over has them too. -/
theorem Source.AgreeBelow.passes {s s' : Source} {bs : List Byte} (ha : s.AgreeBelow s' (s.pos + bs.length))
    (h : s.Passes bs) : s'.Passes bs := by
  obtain ⟨hpos, hbytes, hlen, hlen', hfail⟩ := ha
  have ho := h.offers (Nat.le_trans (Nat.le_add_right _ _) hlen)
  refine .inr ⟨hpos ▸ hlen', fun k hk => ?_⟩
  have hlt : s.pos + k < s.pos + bs.length := Nat.add_lt_add_left hk _
  rw [hpos]
  exact ⟨(hfail _ hlt).2, (hbytes _ hlt).trans (ho.2 k hk).2⟩

/-- The empty literal runs at the front of a source: some 0x80 bytes, and after them none. -/
theorem Source.exists_emptyRuns (s : Source) :
    ∃ z, s.Passes (List.replicate z emptyRunControl) ∧ ¬ (s.skip z).Offers [emptyRunControl] := by
  by_cases h : s.Offers [emptyRunControl]
  · have hl : s.pos + 1 ≤ s.len := h.1
    obtain ⟨z, hz, hno⟩ := exists_emptyRuns (s.skip 1)
    exact ⟨z + 1, passes_cons.mpr ⟨h, hz⟩, by simpa [Nat.add_comm 1] using hno⟩
  · exact ⟨0, by simp, h⟩
termination_by s.len - s.pos
decreasing_by simp; omega

end Sys2Proof.Machine
end

section
/-!
The byte-RLE decoder on its own (42_byte_rle.md rules R120 to R128): a call changes the decoder alone, as a function of it,
and ends in one of four ways.
-/
namespace Sys2Proof.Machine

namespace ByteDec

/-- The rest of a call whose control byte is read (42_byte_rle.md rule R121). -/
def begin (who : ByteInst) (b : Byte) (u : ByteDec) : ByteDec :=
  if b.toNat < 128 then u.runRepeat who (b.extractLsb' 0 7)
  else if b = emptyRunControl then u.fallThrough who
  else u.runLiteral who (b.extractLsb' 0 7)

/-- A call that finds the decoder idle. -/
def fetch (who : ByteInst) (u : ByteDec) : ByteDec :=
  match readFirst u.src with
  | .error st => u.stop who st
  | .ok (b, src) => { u with src := src }.begin who b

/-- A call (42_byte_rle.md rule R120). -/
def next (who : ByteInst) (u : ByteDec) : ByteDec :=
  match u.latch.fault with
  | some k => u.answer (.err k u.latch.finfo)
  | none =>
    match u.mode with
    | .idle => u.fetch who
    | .repeatRun => u.deliverRepeat
    | .literalRun => u.deliverLiteral who

end ByteDec

/-! These functions are what the machine does. -/

theorem exec_decodeLead_byteRle (who : ByteInst) (b : Byte) (s : State) :
    exec (decodeLead (.byteRle who) b) s = .next (s.setByteDec who ((s.byteDec who).begin who b)) := by
  obtain hlt | heq | hgt := Nat.lt_trichotomy b.toNat 128
  · rw [decodeLead_byteRle_of_lt who hlt, exec_byteRepeat, ByteDec.begin, if_pos hlt]
  · obtain rfl : b = emptyRunControl := BitVec.eq_of_toNat_eq heq
    rw [decodeLead_emptyRunControl, exec_byteLiteral_empty, ByteDec.begin, if_neg (by decide), if_pos rfl]
  · have hne : b ≠ emptyRunControl := fun h => by simp [h, emptyRunControl] at hgt
    rw [decodeLead_byteRle_of_ge who hgt.le, exec_byteLiteral_nonempty who (controlField_ne_zero hgt), ByteDec.begin,
      if_neg (by omega), if_neg hne]

theorem fetchByteRle_eq (who : ByteInst) (s : State) :
    fetchByteRle who s = .next (s.setByteDec who ((s.byteDec who).fetch who)) := by
  cases h : readFirst (s.byteDec who).src with
  | error st => simp only [fetchByteRle, ByteDec.fetch, h]
  | ok r =>
    simp only [fetchByteRle, ByteDec.fetch, h, exec_decodeLead_byteRle, State.byteDec_setByteDec,
      State.setByteDec_setByteDec]

theorem nextByteRle_eq (who : ByteInst) (s : State) :
    nextByteRle who s = .next (s.setByteDec who ((s.byteDec who).next who)) := by
  cases hf : (s.byteDec who).latch.fault with
  | some k => simp only [nextByteRle, ByteDec.next, hf]
  | none => cases hm : (s.byteDec who).mode <;> simp only [nextByteRle, ByteDec.next, hf, hm, fetchByteRle_eq]

namespace ByteDec
variable {who : ByteInst} {u : ByteDec}

theorem next_faulted {k : ErrKind} (h : u.latch.fault = some k) : u.next who = u.answer (.err k u.latch.finfo) := by
  simp only [next, h]

theorem next_idle (hf : u.latch.fault = none) (hm : u.mode = .idle) : u.next who = u.fetch who := by
  simp only [next, hf, hm]

theorem next_repeatRun (hf : u.latch.fault = none) (hm : u.mode = .repeatRun) : u.next who = u.deliverRepeat := by
  simp only [next, hf, hm]

theorem next_literalRun (hf : u.latch.fault = none) (hm : u.mode = .literalRun) :
    u.next who = u.deliverLiteral who := by
  simp only [next, hf, hm]

/-! What a fetch finds. -/

theorem fetch_repeat {b : Byte} (hb : b.toNat < 128) (h : u.src.Offers [b]) :
    u.fetch who = { u with src := u.src.skip 1 }.runRepeat who (b.extractLsb' 0 7) := by
  simp only [fetch, readFirst_offers h, begin, if_pos hb]

theorem fetch_literal {b : Byte} (hb : 128 < b.toNat) (h : u.src.Offers [b]) :
    u.fetch who = { u with src := u.src.skip 1 }.runLiteral who (b.extractLsb' 0 7) := by
  have hne : b ≠ emptyRunControl := fun h => by simp [h, emptyRunControl] at hb
  simp only [fetch, readFirst_offers h, begin, if_neg hb.not_gt, if_neg hne]

theorem fetch_atEnd (hf : ¬ u.src.AtFailure) (hl : u.src.len ≤ u.src.pos) : u.fetch who = u.answer .eos := by
  obtain ⟨h, -⟩ | ⟨-, -, h⟩ | ⟨-, h, -⟩ := readFirst_cases u.src
  · exact absurd h hf
  · simp only [fetch, h, stop_eos]
  · omega

theorem fetch_atFailure (h : u.src.AtFailure) : u.fetch who = u.raise who .ioFailure 0 := by
  simp only [fetch, readFirst_atFailure h, stop_raise]

/-- The empty literal run falls through to the fetch of the next control byte (42_byte_rle.md rule R124). -/
theorem fallThrough_eq_fetch (who : ByteInst) (u : ByteDec) : u.fallThrough who = u.fetch who := by
  have h := exec_byteLiteral_empty_eq_fetch who (State.reset.setByteDec who u)
  rw [exec_byteLiteral_empty, fetchByteRle_eq, Host.Outcome.next.injEq] at h
  simpa using congrArg (State.byteDec · who) h

theorem fetch_emptyRun (h : u.src.Offers [emptyRunControl]) :
    u.fetch who = { u with src := u.src.skip 1 }.fetch who := by
  rw [← fallThrough_eq_fetch, ← fallThrough_eq_fetch, fallThrough_offers_empty who h]

/-- Any number of empty literal runs are passed over. -/
theorem fetch_emptyRuns (z : Nat) (h : u.src.Passes (List.replicate z emptyRunControl)) :
    u.fetch who = { u with src := u.src.skip z }.fetch who := by
  induction z generalizing u with
  | zero => rfl
  | succ z ih =>
    obtain ⟨hfirst, hrest⟩ := Source.passes_cons.mp h
    rw [fetch_emptyRun hfirst, ih hrest, Source.skip_skip, Nat.add_comm 1]

/-! The ways a call ends. -/

/-- The bounds of the run registers (10_state.md rule R12). -/
def RunBounds (m : ByteMode) (c : BitVec 8) : Prop :=
  (m = .idle ↔ c = 0#8) ∧ (m = .repeatRun → c.toNat ≤ 129) ∧ (m = .literalRun → c.toNat ≤ 126)

/-- How an operation `op` that goes on with a run, or begins one, ends at the decoder `u`: in an error, or in a value, for
which it needed of its source no more than the bytes it read. -/
inductive RunEnds (who : ByteInst) (op : ByteDec → ByteDec) (u : ByteDec) : Prop where
  | raised (bs : List Byte) (k : ErrKind) (kind : k = .ioFailure ∨ k = .truncation) (passes : u.src.Passes bs)
      (eq : op u = { u with src := u.src.skip bs.length }.raise who k 0)
  | value (bs : List Byte) (m : ByteMode) (c : BitVec 8) (val v : Byte)
      (bounds : RunBounds u.mode u.cnt → RunBounds m c) (passes : u.src.Passes bs)
      (eq : ∀ src, src.Passes bs → op { u with src := src } =
        { u with mode := m, cnt := c, val := val, src := src.skip bs.length, port := some (.value v) })

/-- A fetch that ends the stream: only empty runs are left before the end (42_byte_rle.md rule R127). -/
def EndsClean (who : ByteInst) (u : ByteDec) : Prop :=
  ∃ z, u.src.Passes (List.replicate z emptyRunControl) ∧ ¬ (u.src.skip z).AtFailure ∧ u.src.len ≤ u.src.pos + z ∧
    u.fetch who = { u with src := u.src.skip z }.answer .eos

/-- An operation that passes over some bytes and goes on as another ends as that one does. -/
theorem RunEnds.after {op op' : ByteDec → ByteDec} (pre : List Byte) (hpre : u.src.Passes pre)
    (hop : ∀ src, src.Passes pre → op { u with src := src } = op' { u with src := src.skip pre.length })
    (h : RunEnds who op' { u with src := u.src.skip pre.length }) : RunEnds who op u := by
  cases h with
  | raised bs k kind passes eq =>
    refine .raised (pre ++ bs) k kind (Source.passes_append.mpr ⟨hpre, passes⟩) ?_
    simpa using (hop u.src hpre).trans eq
  | value bs m c val v bounds passes eq =>
    refine .value (pre ++ bs) m c val v bounds (Source.passes_append.mpr ⟨hpre, passes⟩) fun src hsrc => ?_
    obtain ⟨hpre', hbs⟩ := Source.passes_append.mp hsrc
    simpa using (hop src hpre').trans (eq (src.skip pre.length) hbs)

/-- Counting down keeps the bounds of a run. -/
theorem RunBounds.countDown {m : ByteMode} {c : BitVec 8} (h : RunBounds m c) :
    m ≠ .idle → RunBounds (if c = 1#8 then .idle else m) (c - 1#8) := by
  intro hm
  obtain ⟨hidle, hrep, hlit⟩ := h
  have hc : c ≠ 0#8 := fun h0 => hm (hidle.mpr h0)
  unfold RunBounds
  by_cases h1 : c = 1#8
  · simp [h1]
  · have hne : c - 1#8 ≠ 0#8 := fun h0 => h1 (sub_eq_zero.mp h0)
    have hlt : (c - 1#8).toNat ≤ c.toNat := by bv_omega
    simp only [h1, if_false, hm, hne, true_and]
    exact ⟨fun h => hlt.trans (hrep h), fun h => hlt.trans (hlit h)⟩

theorem deliverRepeat_ends (hm : u.mode = .repeatRun) : RunEnds who deliverRepeat u :=
  .value [] _ _ _ _ (fun h => h.countDown (by simp [hm])) (by simp) fun src _ => deliverRepeat_eq { u with src := src }

/-- A literal, its counter not yet counted down, is read and delivered, or the read fails. -/
theorem deliverLiteral_ends_of_bounds
    (hb : RunBounds u.mode u.cnt → RunBounds (if u.cnt = 1#8 then .idle else u.mode) (u.cnt - 1#8)) :
    RunEnds who (deliverLiteral who) u := by
  obtain ⟨-, h⟩ | ⟨-, -, h⟩ | ⟨hf, hl, -⟩ := readMore_cases u.src
  · exact .raised [] .ioFailure (.inl rfl) (by simp) (by simp [deliverLiteral, h])
  · exact .raised [] .truncation (.inr rfl) (by simp) (by simp [deliverLiteral, h])
  · exact .value [_] _ _ u.val _ hb (Source.offers_read hf hl).passes fun src hsrc =>
      deliverLiteral_offers who (u := { u with src := src }) (hsrc.resolve_left (by simp))

theorem deliverLiteral_ends (hm : u.mode = .literalRun) : RunEnds who (deliverLiteral who) u :=
  deliverLiteral_ends_of_bounds fun h => h.countDown (by simp [hm])

theorem runRepeat_ends (who : ByteInst) (n : BitVec 7) (u : ByteDec) : RunEnds who (runRepeat who n) u := by
  obtain ⟨-, h⟩ | ⟨-, -, h⟩ | ⟨hf, hl, -⟩ := readMore_cases u.src
  · exact .raised [] .ioFailure (.inl rfl) (by simp) (by simp [runRepeat, h])
  · exact .raised [] .truncation (.inr rfl) (by simp) (by simp [runRepeat, h])
  · have hcnt : (BitVec.ofNat 8 (n.toNat + 2)).toNat = n.toNat + 2 := by simp; omega
    refine .value [_] .repeatRun _ _ _ (fun _ => ⟨?_, fun _ => ?_, nofun⟩) (Source.offers_read hf hl).passes fun src hsrc =>
      runRepeat_firstValue who n (u := { u with src := src }) (hsrc.resolve_left (by simp))
    · simp [← BitVec.toNat_inj, hcnt]
    · omega

theorem runLiteral_ends (who : ByteInst) {n : BitVec 7} (hn : n ≠ 0#7) (u : ByteDec) :
    RunEnds who (runLiteral who n) u := by
  obtain ⟨-, h⟩ | ⟨-, -, h⟩ | ⟨hf, hl, -⟩ := readMore_cases u.src
  · exact .raised [] .ioFailure (.inl rfl) (by simp) (by simp [runLiteral, deliverLiteral, h, raise])
  · exact .raised [] .truncation (.inr rfl) (by simp) (by simp [runLiteral, deliverLiteral, h, raise])
  · have hcnt : (BitVec.ofNat 8 (n.toNat - 1)).toNat = n.toNat - 1 := by simp; omega
    have hpos : n.toNat ≠ 0 := fun h0 => hn (BitVec.eq_of_toNat_eq h0)
    refine .value [_] _ _ u.val _ (fun _ => ?_) (Source.offers_read hf hl).passes fun src hsrc =>
      runLiteral_firstValue who hn (u := { u with src := src }) (hsrc.resolve_left (by simp))
    by_cases h1 : n.toNat = 1
    · simp [RunBounds, h1]
    · refine ⟨?_, ?_, fun _ => ?_⟩
      · simp [h1, ← BitVec.toNat_inj, hcnt]
        omega
      · simp [h1]
      · omega

theorem fetch_ends (who : ByteInst) (u : ByteDec) : EndsClean who u ∨ RunEnds who (fetch who) u := by
  obtain ⟨z, hz, hno⟩ := u.src.exists_emptyRuns
  obtain ⟨hf, -⟩ | ⟨hf, hl, -⟩ | ⟨hf, hl, -⟩ := readFirst_cases (u.src.skip z)
  · refine .inr (.raised _ .ioFailure (.inl rfl) hz ?_)
    rw [fetch_emptyRuns z hz, List.length_replicate, fetch_atFailure hf]
  · exact .inl ⟨z, hz, hf, hl, (fetch_emptyRuns z hz).trans (fetch_atEnd hf hl)⟩
  · have hb := Source.offers_read hf hl
    generalize (u.src.skip z).mem.read (u.src.skip z).pos = b at hb
    have hpre : u.src.Passes (List.replicate z emptyRunControl ++ [b]) :=
      Source.passes_append.mpr ⟨hz, by simpa using hb.passes⟩
    have hsplit {src : Source} (hsrc : src.Passes (List.replicate z emptyRunControl ++ [b])) :
        src.Passes (List.replicate z emptyRunControl) ∧ (src.skip z).Offers [b] := by
      obtain ⟨h1, h2⟩ := Source.passes_append.mp hsrc
      exact ⟨h1, by simpa using h2.resolve_left (by simp)⟩
    obtain hlt | heq | hgt := Nat.lt_trichotomy b.toNat 128
    · refine .inr (RunEnds.after _ hpre (fun src hsrc => ?_) (runRepeat_ends who (b.extractLsb' 0 7) _))
      obtain ⟨hsz, hsb⟩ := hsplit hsrc
      rw [fetch_emptyRuns z hsz, fetch_repeat hlt hsb]
      simp
    · exact absurd (BitVec.eq_of_toNat_eq (y := emptyRunControl) heq ▸ hb) hno
    · refine .inr (RunEnds.after _ hpre (fun src hsrc => ?_) (runLiteral_ends who (controlField_ne_zero hgt) _))
      obtain ⟨hsz, hsb⟩ := hsplit hsrc
      rw [fetch_emptyRuns z hsz, fetch_literal hgt hsb]
      simp

/-- How a call ends that finds no error latched: cleanly, which an idle decoder alone does, or as a run does. -/
theorem next_ends (who : ByteInst) (hf : u.latch.fault = none) :
    (u.mode = .idle ∧ EndsClean who u) ∨ RunEnds who (next who) u := by
  cases hm : u.mode with
  | idle =>
    obtain h | h := fetch_ends who u
    · exact .inl ⟨rfl, h⟩
    · exact .inr (h.after [] (by simp) fun src _ => next_idle hf hm)
  | repeatRun => exact .inr ((deliverRepeat_ends hm).after [] (by simp) fun src _ => next_repeatRun hf hm)
  | literalRun => exact .inr ((deliverLiteral_ends hm).after [] (by simp) fun src _ => next_literalRun hf hm)

end ByteDec

end Sys2Proof.Machine
end

section
/-!
The statements about one call of a byte-RLE decoder (42_byte_rle.md rules R122 to R128).
-/
namespace Sys2Proof.Machine

/-- Settles O11: the call's first value is the copy that `runRepeat` delivers. -/
theorem byteRepeatDeliversFirst : Obligations.ByteRepeatDeliversFirst := fun who n s _ hv => by
  rw [exec_byteRepeat, ByteDec.runRepeat_firstValue who n hv]

/-- Settles O12: the call's first value is the literal that `runLiteral` delivers. -/
theorem byteLiteralDeliversFirst : Obligations.ByteLiteralDeliversFirst := by
  intro who n s b hn hb
  have hone : n.toNat = 1 ↔ n = 1#7 := by simp [← BitVec.toNat_inj]
  rw [exec_byteLiteral_nonempty who hn, ByteDec.runLiteral_firstValue who hn hb]
  simp only [hone]

/-- Settles O13: the empty run falls through to the fetch, which is what a call does that finds the decoder idle. -/
theorem emptyByteLiteralFallsThrough : Obligations.EmptyByteLiteralFallsThrough := by
  intro who s hf hm
  rw [exec_byteLiteral_empty_eq_fetch, fetchByteRle_eq, nextByteRle_eq, ByteDec.next_idle hf hm]

/-- A promised byte that is not there, with the kind of error it raises (20_memory.md rule R45). -/
def Source.Denies (s : Source) (k : ErrKind) : Prop :=
  (s.AtEnd ∧ k = .truncation) ∨ (s.AtFailure ∧ k = .ioFailure)

theorem readMore_denied {s : Source} {k : ErrKind} (h : s.Denies k) : readMore s = .error (.raise k 0) := by
  obtain ⟨hend, rfl⟩ | ⟨hfail, rfl⟩ := h
  · exact readMore_atEnd hend
  · exact readMore_atFailure hfail

theorem ByteDec.deliverLiteral_denied (who : ByteInst) {u : ByteDec} {k : ErrKind} (h : u.src.Denies k) :
    u.deliverLiteral who = u.raise who k 0 := by
  simp only [deliverLiteral, readMore_denied h, stop_raise]

theorem ByteDec.runRepeat_denied (who : ByteInst) (n : BitVec 7) {u : ByteDec} {k : ErrKind} (h : u.src.Denies k) :
    u.runRepeat who n = u.raise who k 0 := by
  simp only [runRepeat, readMore_denied h, stop_raise]

theorem ByteDec.runLiteral_denied (who : ByteInst) (n : BitVec 7) {u : ByteDec} {k : ErrKind} (h : u.src.Denies k) :
    u.runLiteral who n = u.raise who k 0 :=
  deliverLiteral_denied who (u := { u with cnt := literalLength n, mode := .literalRun }) h

/-- Settles O18: the value byte of a repeat run and a literal are read with `ReadMore`, which raises where it is denied. -/
theorem byteErrorsLatch : Obligations.ByteErrorsLatch := by
  intro who s k (h : (s.byteDec who).src.Denies k)
  refine ⟨fun n => ⟨_, exec_byteRepeat who n s, ?_⟩, fun n hn => ⟨_, exec_byteLiteral_nonempty who hn s, ?_⟩,
    fun hf hm => ⟨_, nextByteRle_literalRun hf hm, ?_⟩⟩
  · simp [ByteDec.runRepeat_denied who n h]
  · simp [ByteDec.runLiteral_denied who n h]
  · simp [ByteDec.deliverLiteral_denied who h]

/-! The clean end. -/

/-- Only empty runs are left before the end of the source (42_byte_rle.md rule R127). -/
def Source.BeforeEnd (s : Source) : Prop :=
  ∃ z, s.Offers (List.replicate z emptyRunControl) ∧ (s.skip z).AtEnd

theorem Source.AtEnd.beforeEnd {s : Source} (h : s.AtEnd) : s.BeforeEnd := ⟨0, by simp [h.1], h⟩

theorem Source.beforeEnd_of_passes {s : Source} {z : Nat} (hl : s.pos ≤ s.len)
    (hz : s.Passes (List.replicate z emptyRunControl)) (hf : ¬ (s.skip z).AtFailure) (hend : s.len ≤ s.pos + z) :
    s.BeforeEnd := by
  have ho := hz.offers hl
  have hle : s.pos + z ≤ s.len := by simpa using ho.1
  exact ⟨z, ho, Nat.le_antisymm hle hend, hf⟩

/-- Passing over what is left of it, the source stands at its end. -/
theorem Source.BeforeEnd.exists_passes {s : Source} (h : s.BeforeEnd) :
    ∃ z, s.Passes (List.replicate z emptyRunControl) ∧ s.skip z = { s with pos := s.len } ∧
      ({ s with pos := s.len } : Source).AtEnd := by
  obtain ⟨z, hz, hend⟩ := h
  have hskip : s.skip z = { s with pos := s.len } := by rw [skip, show s.pos + z = s.len from hend.1]
  exact ⟨z, hz.passes, hskip, hskip ▸ hend⟩

/-- A byte-RLE decoder before its clean end (42_byte_rle.md rule R127). -/
def ByteDec.BeforeEnd (u : ByteDec) : Prop :=
  u.latch.fault = none ∧ u.mode = .idle ∧ u.src.BeforeEnd

/-- A run does not end a stream cleanly. -/
theorem ByteDec.RunEnds.port_ne_eos {who : ByteInst} {op : ByteDec → ByteDec} {u : ByteDec} (h : RunEnds who op u) :
    (op u).port ≠ some .eos := by
  cases h with
  | raised bs k kind passes eq => simp [eq]
  | value bs m c val v bounds passes eq => simp [eq u.src passes]

theorem ByteDec.beforeEnd_of_port_eos {who : ByteInst} {u : ByteDec} (hl : u.src.pos ≤ u.src.len)
    (h : (u.next who).port = some .eos) : u.BeforeEnd := by
  cases hf : u.latch.fault with
  | some k => simp [next_faulted hf] at h
  | none =>
    obtain ⟨hm, z, hz, hfail, hend, -⟩ | hrun := next_ends who hf
    · exact ⟨hf, hm, Source.beforeEnd_of_passes hl hz hfail hend⟩
    · exact absurd h hrun.port_ne_eos

theorem ByteDec.next_beforeEnd (who : ByteInst) {u : ByteDec} (h : u.BeforeEnd) :
    u.next who = { u with src := { u.src with pos := u.src.len }, port := some .eos } := by
  obtain ⟨hf, hm, hsrc⟩ := h
  obtain ⟨z, hz, hskip, hend⟩ := hsrc.exists_passes
  rw [next_idle hf hm, fetch_emptyRuns z hz, hskip]
  exact fetch_atEnd hend.2 le_rfl

/-- The clean end repeats, changing nothing. -/
theorem ByteDec.next_afterEnd (who : ByteInst) {u : ByteDec} (h : u.BeforeEnd) :
    (u.next who).next who = u.next who := by
  obtain ⟨hf, hm, hsrc⟩ := id h
  obtain ⟨z, -, -, hend⟩ := hsrc.exists_passes
  rw [next_beforeEnd who h]
  exact next_beforeEnd who ⟨hf, hm, hend.beforeEnd⟩

/-- Settles O17: the call of a decoder is `ByteDec.next`, which ends cleanly exactly before the end, and again there. -/
theorem byteCleanEnd : Obligations.ByteCleanEnd := by
  intro who s hi
  have hnext {t : State} (ht : nextByteRle who s = .next t) (hport : (t.byteDec who).port = some .eos) :
      t = s.setByteDec who ((s.byteDec who).next who) ∧ (s.byteDec who).BeforeEnd := by
    rw [nextByteRle_eq, Host.Outcome.next.injEq] at ht
    subst ht
    exact ⟨rfl, ByteDec.beforeEnd_of_port_eos hi.posLe (by simpa using hport)⟩
  refine ⟨⟨fun ⟨t, ht, hport⟩ => (hnext ht hport).2, fun h => ⟨_, nextByteRle_eq who s, ?_⟩⟩, fun t ht hport => ?_⟩
  · have h : (s.byteDec who).BeforeEnd := h
    simp [ByteDec.next_beforeEnd who h]
  · obtain ⟨rfl, h⟩ := hnext ht hport
    refine ⟨by rw [ByteDec.next_beforeEnd who h], ?_⟩
    rw [nextByteRle_eq, State.byteDec_setByteDec, ByteDec.next_afterEnd who h, State.setByteDec_setByteDec]

end Sys2Proof.Machine
end

section
/-!
Streams: the values of successive calls of a unit and the outcome that then repeats for ever, first of a unit on its own,
then of the machine.
-/
namespace Sys2Proof.Machine

/-- Successive calls `f` of a unit in the state `x` deliver the values `vs` on the port, and then `last` for ever. -/
inductive Streams {σ α : Type} (f : σ → Host.Outcome σ Fault Refusal) (port : σ → Option (Result α)) (last : Result α) :
    σ → List α → Prop
  | ended {x y : σ} (call : f x = .next y) (answer : port y = some last) (again : f y = .next y) : Streams f port last x []
  | value {x y : σ} {v : α} {vs : List α} (call : f x = .next y) (answer : port y = some (.value v))
      (rest : Streams f port last y vs) : Streams f port last x (v :: vs)

/-- A state whose next call is that of another streams as it does. -/
theorem Streams.of_call_eq {σ α : Type} {f : σ → Host.Outcome σ Fault Refusal} {port : σ → Option (Result α)}
    {last : Result α} {x x' : σ} {vs : List α} (h : f x = f x') (hs : Streams f port last x' vs) :
    Streams f port last x vs := by
  cases hs with
  | ended call answer again => exact .ended (h.trans call) answer again
  | value call answer rest => exact .value (h.trans call) answer rest

theorem nextCall_eq (u : UnitId) (s : State) : nextCall u s = nextUnit u { s with cmds := [] } := rfl

/-- The machine's outcomes are those of the unit: `Rel` ties its part of the state to the unit's own state. -/
theorem outcomes_eq_of_streams {σ α : Type} {f : σ → Host.Outcome σ Fault Refusal} {unitPort : σ → Option (Result α)}
    {last : Result α} {u : UnitId} {port : State → Option (Result α)} {Rel : State → σ → Prop}
    (hcall : ∀ s x y, Rel s x → f x = .next y → ∃ t, nextCall u s = .next t ∧ port t = unitPort y ∧ Rel t y)
    {x : σ} {vs : List α} (hs : Streams f unitPort last x vs) (k : Nat) {s : State} (hrel : Rel s x) :
    outcomes u port k s = (vs.map (fun v => some (Result.value v)) ++ List.replicate k (some last)).take k := by
  induction k generalizing s x vs with
  | zero => rfl
  | succ k ih =>
    cases hs with
    | ended call answer again =>
      obtain ⟨t, ht, hport, hrel'⟩ := hcall s x _ hrel call
      have hrest := ih (.ended again answer again) hrel'
      simp only [outcomes, ht, hport, answer, hrest]
      simp [List.replicate_succ]
    | @value _ _ _ vs call answer rest =>
      obtain ⟨t, ht, hport, hrel'⟩ := hcall s x _ hrel call
      have hrest := ih rest hrel'
      have hcut : k - vs.length ≤ k := Nat.sub_le _ _
      simp only [outcomes, ht, hport, answer, hrest]
      simp [List.take_append, List.take_replicate, hcut, Nat.le_succ_of_le hcut]

end Sys2Proof.Machine
end

section
/-!
The byte stream (42_byte_rle.md rule R131): the run of each line, and by induction the lines one after the other.
-/
namespace Sys2Proof.Machine

/-- A byte-RLE decoder delivers the bytes `vs` and then `Eos` for ever. -/
abbrev ByteDec.Streams (who : ByteInst) : ByteDec → List Byte → Prop :=
  Machine.Streams (fun u => .next (u.next who)) ByteDec.port .eos

namespace ByteDec
variable {who : ByteInst} {u : ByteDec} {vs : List Byte}

/-- A decoder between two runs, its source at `src`, delivers `vs`. -/
def StreamsFrom (who : ByteInst) (src : Source) (vs : List Byte) : Prop :=
  ∀ d : ByteDec, d.latch.fault = none → d.mode = .idle → d.src = src → d.Streams who vs

/-- The copies left of a repeat run, then what follows the run. -/
theorem streams_repeatRun (n : Nat) (hn : n < 255) (hf : u.latch.fault = none) (hm : u.mode = .repeatRun)
    (hc : u.cnt = BitVec.ofNat 8 (n + 1)) (hrest : StreamsFrom who u.src vs) :
    u.Streams who (List.replicate (n + 1) u.val ++ vs) := by
  induction n generalizing u with
  | zero =>
    refine .value (congrArg _ ((next_repeatRun hf hm).trans u.deliverRepeat_eq)) rfl (hrest _ hf ?_ rfl)
    simp [hc]
  | succ n ih =>
    have hmore : u.cnt ≠ 1#8 := by simp [hc, ← BitVec.toNat_inj]; omega
    have hleft : u.cnt - 1#8 = BitVec.ofNat 8 (n + 1) := by rw [hc]; bv_omega
    refine .value (congrArg _ ((next_repeatRun hf hm).trans u.deliverRepeat_eq)) rfl ?_
    exact ih (by omega) hf (by simp [hmore, hm]) hleft hrest

/-- The literals left of a literal run, then what follows the run. -/
theorem streams_literalRun (bs : List Byte) (hne : bs ≠ []) (hlen : bs.length < 256) (hf : u.latch.fault = none)
    (hm : u.mode = .literalRun) (hc : u.cnt = BitVec.ofNat 8 bs.length) (hsrc : u.src.Offers bs)
    (hrest : StreamsFrom who (u.src.skip bs.length) vs) : u.Streams who (bs ++ vs) := by
  induction bs generalizing u with
  | nil => exact absurd rfl hne
  | cons b bs ih =>
    obtain ⟨hb, hbs⟩ := Source.offers_cons.mp hsrc
    refine .value (congrArg _ ((next_literalRun hf hm).trans (deliverLiteral_offers who hb))) rfl ?_
    cases bs with
    | nil => exact hrest _ hf (by simp [hc]) rfl
    | cons b' bs =>
      simp only [List.length_cons] at hc hlen hrest ih
      have hmore : u.cnt ≠ 1#8 := by simp [hc, ← BitVec.toNat_inj]; omega
      have hleft : u.cnt - 1#8 = BitVec.ofNat 8 (bs.length + 1) := by rw [hc]; bv_omega
      exact ih (by simp) (by omega) hf (by simp [hmore, hm]) hleft hbs (by simpa [Nat.add_comm 1] using hrest)

/-- An idle decoder at a repeat run's control byte calls as one that has entered the run. -/
theorem next_repeat {b v : Byte} (hf : u.latch.fault = none) (hm : u.mode = .idle) (hb : b.toNat < 128)
    (h : u.src.Offers [b, v]) :
    u.next who = { u with
      mode := .repeatRun, cnt := BitVec.ofNat 8 (b.toNat + 3), val := v, src := u.src.skip 2 }.next who := by
  obtain ⟨hctl, hval⟩ := Source.offers_cons.mp h
  have hn : (b.extractLsb' 0 7).toNat = b.toNat := by rw [toNat_controlField, Nat.mod_eq_of_lt hb]
  rw [next_idle hf hm, fetch_repeat hb hctl, runRepeat_offers _ _ hval, repeatLength_eq_ofNat, hn, Source.skip_skip]
  exact .symm (next_repeatRun hf rfl)

/-- An idle decoder at the control byte of a literal run of at least one byte calls as one that has entered the run. -/
theorem next_literal {b : Byte} (hf : u.latch.fault = none) (hm : u.mode = .idle) (hb : 128 < b.toNat)
    (h : u.src.Offers [b]) :
    u.next who = { u with
      mode := .literalRun, cnt := BitVec.ofNat 8 (b.toNat - 128), src := u.src.skip 1 }.next who := by
  rw [next_idle hf hm, fetch_literal hb h, runLiteral, literalLength_eq_ofNat, toNat_controlField_of_ge hb.le]
  exact .symm (next_literalRun hf rfl)

theorem streamsFrom_rep {n : Nat} {v : Byte} {src : Source} (hwf : (ByteLine.rep n v).wellFormed = true)
    (hsrc : src.Offers (ByteLine.rep n v).bytes) (hrest : StreamsFrom who (src.skip 2) vs) :
    StreamsFrom who src (List.replicate n v ++ vs) := by
  rintro d hf hm rfl
  obtain ⟨h3, h130⟩ : 3 ≤ n ∧ n ≤ 130 := by simpa [ByteLine.wellFormed] using hwf
  have hctl : (BitVec.ofNat 8 (n - 3)).toNat = n - 3 := by simp; omega
  have hn : n - 3 + 3 = n := by omega
  refine .of_call_eq (congrArg _ (next_repeat hf hm (by omega) hsrc)) ?_
  rw [hctl, hn]
  obtain ⟨m, rfl⟩ : ∃ m, n = m + 1 := ⟨n - 1, by omega⟩
  exact streams_repeatRun (u := { d with mode := _, cnt := _, val := v, src := d.src.skip 2 }) m (by omega) hf rfl rfl hrest

theorem streamsFrom_lit {bs : List Byte} {src : Source} (hwf : (ByteLine.lit bs).wellFormed = true)
    (hsrc : src.Offers (ByteLine.lit bs).bytes) (hrest : StreamsFrom who (src.skip (1 + bs.length)) vs) :
    StreamsFrom who src (bs ++ vs) := by
  rintro d hf hm rfl
  have hlen : bs.length ≤ 127 := by simpa [ByteLine.wellFormed] using hwf
  have hctl : (BitVec.ofNat 8 (128 + bs.length)).toNat = 128 + bs.length := by simp; omega
  obtain ⟨hb, hbs⟩ := Source.offers_cons.mp hsrc
  by_cases hne : bs = []
  · subst hne
    have hsame : d.next who = { d with src := d.src.skip 1 }.next who := by
      rw [next_idle hf hm, fetch_emptyRun hb]
      exact .symm (next_idle hf hm)
    exact .of_call_eq (congrArg _ hsame) (hrest _ hf hm rfl)
  · have hpos : 0 < bs.length := List.length_pos_iff.mpr hne
    refine .of_call_eq (congrArg _ (next_literal hf hm (by omega) hb)) ?_
    rw [hctl, Nat.add_sub_cancel_left]
    exact streams_literalRun bs hne (by omega) hf rfl rfl hbs (by simpa using hrest)

/-- At the end of its source an idle decoder answers `Eos` for ever. -/
theorem streamsFrom_atEnd {src : Source} (h : src.AtEnd) : StreamsFrom who src [] := by
  rintro d hf hm rfl
  have hd : d.BeforeEnd := ⟨hf, hm, h.beforeEnd⟩
  exact .ended rfl (by rw [next_beforeEnd who hd]) (congrArg _ (next_afterEnd who hd))

theorem streamsFrom_lines (lines : List ByteLine) (hwf : ∀ l ∈ lines, l.wellFormed = true) {src : Source}
    (hsrc : src.Offers (lines.flatMap ByteLine.bytes)) (hend : (src.skip (lines.flatMap ByteLine.bytes).length).AtEnd) :
    StreamsFrom who src (lines.flatMap ByteLine.values) := by
  induction lines generalizing src with
  | nil => exact streamsFrom_atEnd hend
  | cons l lines ih =>
    rw [List.flatMap_cons] at hsrc hend ⊢
    obtain ⟨hl, hlines⟩ := Source.offers_append.mp hsrc
    have hrest := ih (fun l' h => hwf l' (List.mem_cons_of_mem _ h)) hlines (by simpa using hend)
    have hwfl := hwf l List.mem_cons_self
    cases l with
    | rep n v => exact streamsFrom_rep hwfl hl hrest
    | lit bs =>
      rw [ByteLine.bytes, List.length_cons, Nat.add_comm] at hrest
      exact streamsFrom_lit (bs := bs) hwfl hl hrest

/-- A decoder reset on a source of legal lines delivers what they stand for. -/
theorem streams_resetOn (who : ByteInst) (lines : List ByteLine) (hwf : ∀ l ∈ lines, l.wellFormed = true) (fresh : Nat) :
    (resetOn (Source.bind (lines.flatMap ByteLine.bytes) none) fresh).Streams who (lines.flatMap ByteLine.values) :=
  streamsFrom_lines lines hwf (Source.offers_bind _) (Source.atEnd_bind _) _ rfl rfl rfl

end ByteDec

/-- Settles O20: BYTE delivers what the lines stand for, and the machine's outcomes are BYTE's. -/
theorem byteStreamRoundTrip : Obligations.ByteStreamRoundTrip := by
  intro lines s t k hwf ht
  obtain rfl : { s with byte := ByteDec.resetOn (Source.bind (lines.flatMap ByteLine.bytes) none) s.byte.fresh, cmds := [] }
      = t := by simpa [step, command, resetUnit, legalFail, ByteDec.reset] using ht
  refine outcomes_eq_of_streams (Rel := fun s u => s.byte = u) ?_ (ByteDec.streams_resetOn .unit lines hwf s.byte.fresh) k ?_
  · rintro s _ _ rfl h
    cases h
    exact ⟨_, nextByteRle_eq .unit _, rfl, rfl⟩
  · rfl

end Sys2Proof.Machine
end

section
/-!
BIT on its own (43_bit_unpack.md rules R141 and R142), and its stream: eight booleans for every byte that `BIT.B` delivers.
-/
namespace Sys2Proof.Machine

namespace BitUnit

/-- What BIT makes of the outcome of `BIT.B` (43_bit_unpack.md rule R141). -/
def takeByte (u : BitUnit) : BitUnit :=
  match u.b.port with
  | some (.value b) => { u with cur := b, nbits := 8 }.deliver
  | some .eos => u.answer .eos
  | some (.err k info) => u.answer (.err k info)
  | none => u

/-- A call. -/
def next (u : BitUnit) : BitUnit :=
  if u.nbits = 0#4 then { u with b := u.b.next .bitB }.takeByte else u.deliver

end BitUnit

theorem bitFromPipeline_eq (s : State) : bitFromPipeline s = .next { s with bit := s.bit.takeByte } := by
  rcases h : s.bit.b.port with _ | (b | _ | ⟨k, info⟩)
  · simp only [bitFromPipeline, BitUnit.takeByte, h]
  · rw [bitFromPipeline_value h, exec_bitUnpack]
    simp only [BitUnit.takeByte, h]
  · rw [bitFromPipeline_eos h]
    simp only [BitUnit.takeByte, h]
  · rw [bitFromPipeline_err h]
    simp only [BitUnit.takeByte, h]

theorem nextBit_eq (s : State) : nextBit s = .next { s with bit := s.bit.next } := by
  by_cases h : s.bit.nbits = 0#4
  · simp only [nextBit, BitUnit.next, if_pos h, nextByteRle_eq, bitFromPipeline_eq]
    rfl
  · simp only [nextBit, BitUnit.next, if_neg h]

namespace BitUnit
variable {u : BitUnit}

theorem next_loaded (h : u.nbits ≠ 0#4) : u.next = u.deliver := if_neg h

theorem next_pulls (h : u.nbits = 0#4) : u.next = { u with b := u.b.next .bitB }.takeByte := if_pos h

theorem takeByte_value {b : Byte} (h : u.b.port = some (.value b)) :
    u.takeByte = { u with cur := b, nbits := 8 }.deliver := by
  simp only [takeByte, h]

theorem takeByte_eos (h : u.b.port = some .eos) : u.takeByte = u.answer .eos := by
  simp only [takeByte, h]

theorem takeByte_err {k : ErrKind} {info : Byte} (h : u.b.port = some (.err k info)) :
    u.takeByte = u.answer (.err k info) := by
  simp only [takeByte, h]

/-- BIT delivers the booleans `bs` and then `Eos` for ever. -/
abbrev Streams : BitUnit → List Bool → Prop := Machine.Streams (fun u => .next u.next) BitUnit.port .eos

/-- The bits left of a loaded byte, from bit 7 down, then what follows the byte. -/
theorem streams_loaded {bs : List Bool} (n : Nat) (hn : n ≤ 8) (hc : u.nbits = BitVec.ofNat 4 n)
    (hrest : ∀ d : BitUnit, d.nbits = 0#4 → d.b = u.b → d.Streams bs) :
    u.Streams ((List.range n).map (fun j => u.cur.getLsbD (7 - j)) ++ bs) := by
  induction n generalizing u with
  | zero => exact hrest u hc rfl
  | succ n ih =>
    have hne : u.nbits ≠ 0#4 := by simp [hc, ← BitVec.toNat_inj]; omega
    have hleft : u.nbits - 1#4 = BitVec.ofNat 4 n := by rw [hc]; bv_omega
    have hbits : (List.range n).map (fun j => u.deliver.cur.getLsbD (7 - j)) =
        (List.range n).map (fun j => u.cur.getLsbD (7 - (j + 1))) := by
      refine List.map_congr_left fun j hj => ?_
      have hj : j < 7 := by have := List.mem_range.mp hj; omega
      have h1 : 7 - j - 1 = 7 - (j + 1) := by omega
      simp [h1]
      omega
    rw [List.range_succ_eq_map, List.map_cons, List.map_map, List.cons_append]
    refine .value (congrArg _ (next_loaded hne)) rfl ?_
    have := ih (u := u.deliver) (by omega) hleft hrest
    rwa [hbits] at this

/-- Every byte that `BIT.B` delivers gives its eight booleans, and the clean end of `BIT.B` is that of BIT. -/
theorem streams_of_pipeline {d : ByteDec} {bytes : List Byte} (h : d.Streams .bitB bytes) (hb : u.b = d)
    (hn : u.nbits = 0#4) : u.Streams (bytes.flatMap booleansOf) := by
  induction h generalizing u with
  | ended call hport again =>
    subst hb
    cases call
    have hend : u.next = { u with b := u.b.next .bitB }.answer .eos := (next_pulls hn).trans (takeByte_eos hport)
    have hagain : (u.b.next .bitB).next .bitB = u.b.next .bitB := by simpa using again
    refine .ended rfl (by rw [hend]; rfl) (congrArg _ ?_)
    rw [hend]
    refine .trans (next_pulls hn) ?_
    simp only [answer, hagain]
    exact takeByte_eos hport
  | @value _ _ b _ call hport _ ih =>
    subst hb
    cases call
    have hload : u.next = { u with b := u.b.next .bitB, cur := b, nbits := 8 }.next :=
      (next_pulls hn).trans ((takeByte_value hport).trans (next_loaded (show 8#4 ≠ 0#4 by decide)).symm)
    rw [List.flatMap_cons]
    exact .of_call_eq (congrArg _ hload) (streams_loaded 8 le_rfl rfl fun d hd hdb => ih hdb hd)

end BitUnit

/-- Settles O22: `BIT.B` delivers the bytes of the lines, and BIT the booleans of each byte. -/
theorem bitStreamDeliversBits : Obligations.BitStreamDeliversBits := by
  intro lines s t k hwf ht
  obtain rfl : { s with bit := BitUnit.resetOn (Source.bind (lines.flatMap ByteLine.bytes) none) s.bit.b.fresh, cmds := [] }
      = t := by simpa [step, command, resetUnit, legalFail, BitUnit.reset] using ht
  have hbytes := ByteDec.streams_resetOn .bitB lines hwf s.bit.b.fresh
  refine outcomes_eq_of_streams (Rel := fun s u => s.bit = u) ?_
    (BitUnit.streams_of_pipeline (u := BitUnit.resetOn _ _) hbytes rfl rfl) k ?_
  · rintro s _ _ rfl h
    cases h
    exact ⟨_, nextBit_eq _, rfl, rfl⟩
  · rfl

end Sys2Proof.Machine
end

section
/-!
Varints as byte lists (30_encoding.md rules R75 and R89): their value as a sum from the first group on, and the shortest
spelling of a value.
-/
namespace Sys2Proof.Machine

/-! The value of a list of groups. -/

/-- The sum of the groups' data bits, each at 7 times its place, before it is cut to 64 bits. -/
def groupSum : List Byte → Nat
  | [] => 0
  | b :: bs => b.toNat % 128 + 128 * groupSum bs

theorem sum_groups_eq_groupSum (bs : List Byte) :
    ((List.range bs.length).map fun k => (bs.getD k 0).toNat % 128 * 2 ^ (7 * k)).sum = groupSum bs := by
  induction bs with
  | nil => rfl
  | cons b bs ih =>
    have hshift (k : Nat) : ((b :: bs).getD (k + 1) 0).toNat % 128 * 2 ^ (7 * (k + 1)) =
        128 * ((bs.getD k 0).toNat % 128 * 2 ^ (7 * k)) := by
      rw [List.getD_cons_succ, Nat.mul_succ, Nat.pow_add]
      ring
    rw [List.length_cons, List.range_succ_eq_map, List.map_cons, List.sum_cons, List.map_map, groupSum, ← ih,
      ← List.sum_map_mul_left]
    simp only [Function.comp_def, Nat.succ_eq_add_one, hshift, List.getD_cons_zero, Nat.mul_zero, Nat.pow_zero, Nat.mul_one]

theorem varintValue_eq (bs : List Byte) : varintValue bs = BitVec.ofNat 64 (groupSum bs) := by
  rw [varintValue, sum_groups_eq_groupSum]

theorem groupSum_lt (bs : List Byte) : groupSum bs < 2 ^ (7 * bs.length) := by
  induction bs with
  | nil => simp [groupSum]
  | cons b bs ih =>
    have hb : b.toNat % 128 < 128 := Nat.mod_lt _ (by decide)
    rw [groupSum, List.length_cons, Nat.mul_succ, Nat.pow_add]
    omega

theorem groupSum_concat (bs : List Byte) (b : Byte) :
    groupSum (bs ++ [b]) = groupSum bs + b.toNat % 128 * 2 ^ (7 * bs.length) := by
  induction bs with
  | nil => simp [groupSum]
  | cons b' bs ih =>
    rw [List.cons_append, groupSum, ih, groupSum, List.length_cons, Nat.mul_succ, Nat.pow_add]
    ring

/-! What a varint is, from its first group on and from its last one. -/

theorem isVarint_singleton {b : Byte} (hb : b[7] = false) : IsVarint [b] := by
  refine ⟨by simp, by simp, fun k hk => ?_⟩
  obtain rfl : k = 0 := by simpa using hk
  simpa using hb

theorem IsVarint.cons {b : Byte} {bs : List Byte} (hb : b[7] = true) (h : IsVarint bs) (hlen : bs.length ≤ 9) :
    IsVarint (b :: bs) := by
  obtain ⟨hne, -, hflag⟩ := h
  refine ⟨by simp, by simpa using Nat.lt_succ_of_le hlen, fun k hk => ?_⟩
  cases k with
  | zero =>
    simp [hb]
    omega
  | succ k => simpa using hflag k (by simpa using hk)

/-- A varint is its last group, after at most nine with the continuation flag set. -/
theorem IsVarint.exists_concat {bs : List Byte} (h : IsVarint bs) :
    ∃ groups last, bs = groups ++ [last] ∧ groups.length ≤ 9 ∧ (∀ b ∈ groups, b[7] = true) ∧ last[7] = false := by
  obtain ⟨hne, hlen, hflag⟩ := h
  obtain ⟨groups, last, rfl⟩ : ∃ groups last, bs = groups ++ [last] :=
    ⟨bs.dropLast, bs.getLast (by rintro rfl; simp at hne), (List.dropLast_append_getLast _).symm⟩
  simp only [List.length_append, List.length_singleton] at hlen hflag
  refine ⟨groups, last, rfl, by omega, fun b hb => ?_, ?_⟩
  · obtain ⟨k, hk, rfl⟩ := List.getElem_of_mem hb
    have hk' := hflag k (by omega)
    rw [List.getD_append _ _ _ _ hk] at hk'
    simpa [hk] using hk'
  · simpa using hflag groups.length (by omega)

/-! The shortest spelling. -/

theorem encodeLead_varintLast (d : BitVec 7) :
    (encodeLead (.varintLast d))[7] = false ∧ (encodeLead (.varintLast d)).toNat = d.toNat := by
  revert d
  decide

theorem encodeLead_varintCont (d : BitVec 7) :
    (encodeLead (.varintCont d))[7] = true ∧ (encodeLead (.varintCont d)).toNat = 128 + d.toNat := by
  revert d
  decide

theorem toNat_group (v : Word) : (v.extractLsb' 0 7).toNat = v.toNat % 128 := by
  simp [BitVec.extractLsb'_toNat]

theorem toNat_shiftRight_group (v : Word) : (v >>> 7).toNat = v.toNat / 128 := by
  simp [Nat.shiftRight_eq_div_pow]

theorem shiftRight_group_eq_zero (v : Word) : v >>> 7 = 0 ↔ v.toNat < 128 := by
  rw [← BitVec.toNat_inj, toNat_shiftRight_group]
  simp

theorem varintBytesFrom_isVarint (fuel : Nat) (hfuel : fuel ≤ 9) (v : Word) :
    IsVarint (varintBytesFrom fuel v) ∧ (varintBytesFrom fuel v).length ≤ fuel + 1 := by
  induction fuel generalizing v with
  | zero => exact ⟨isVarint_singleton (encodeLead_varintLast _).1, le_rfl⟩
  | succ fuel ih =>
    rw [varintBytesFrom]
    split
    · exact ⟨isVarint_singleton (encodeLead_varintLast _).1, by simp⟩
    · obtain ⟨hrest, hlen⟩ := ih (by omega) (v >>> 7)
      exact ⟨hrest.cons (encodeLead_varintCont _).1 (by omega), by simpa using hlen⟩

theorem groupSum_varintBytesFrom (fuel : Nat) (v : Word) (hv : v.toNat < 2 ^ (7 * (fuel + 1))) :
    groupSum (varintBytesFrom fuel v) = v.toNat := by
  induction fuel generalizing v with
  | zero =>
    have hmod : v.toNat % 128 = v.toNat := Nat.mod_eq_of_lt hv
    simp [varintBytesFrom, groupSum, encodeLead_varintLast, hmod]
  | succ fuel ih =>
    rw [varintBytesFrom]
    split
    case isTrue h =>
      have hmod : v.toNat % 128 = v.toNat := Nat.mod_eq_of_lt ((shiftRight_group_eq_zero v).mp h)
      simp [groupSum, encodeLead_varintLast, hmod]
    case isFalse h =>
      have hrest : (v >>> 7).toNat < 2 ^ (7 * (fuel + 1)) := by
        rw [toNat_shiftRight_group]
        rw [Nat.mul_succ, Nat.pow_add] at hv
        omega
      rw [groupSum, ih _ hrest, (encodeLead_varintCont _).2, toNat_group, toNat_shiftRight_group]
      omega

/-- A value below `2^(7g)` is spelled in `g` groups or fewer. -/
theorem length_varintBytesFrom_le (fuel : Nat) (v : Word) (g : Nat) (hv : v.toNat < 2 ^ (7 * (g + 1))) :
    (varintBytesFrom fuel v).length ≤ g + 1 := by
  induction fuel generalizing v g with
  | zero => simp [varintBytesFrom]
  | succ fuel ih =>
    rw [varintBytesFrom]
    split
    case isTrue => simp
    case isFalse h =>
      rw [shiftRight_group_eq_zero] at h
      cases g with
      | zero => exact absurd hv h
      | succ g =>
        rw [Nat.mul_succ, Nat.pow_add] at hv
        have := ih (v >>> 7) g (by rw [toNat_shiftRight_group]; omega)
        simpa using this

/-- The group after all those with seven bits of the value to come holds the one bit that is left. -/
theorem varintBytesFrom_topGroup (fuel : Nat) (v : Word) (hv : v.toNat < 2 ^ (7 * fuel + 1)) :
    ((varintBytesFrom fuel v).getD fuel 0).toNat < 2 := by
  induction fuel generalizing v with
  | zero =>
    have hmod : v.toNat % 128 = v.toNat := Nat.mod_eq_of_lt (by omega)
    simpa [varintBytesFrom, encodeLead_varintLast, toNat_group, hmod] using hv
  | succ fuel ih =>
    rw [varintBytesFrom]
    split
    case isTrue => simp
    case isFalse =>
      rw [List.getD_cons_succ]
      have hpow : 2 ^ (7 * (fuel + 1) + 1) = 2 ^ (7 * fuel + 1) * 128 := by ring
      exact ih _ (by rw [toNat_shiftRight_group]; omega)

theorem varintBytes_isVarint (v : Word) : IsVarint (varintBytes v) := (varintBytesFrom_isVarint 9 le_rfl v).1

theorem varintValue_varintBytes (v : Word) : varintValue (varintBytes v) = v := by
  have hv : v.toNat < 2 ^ (7 * (9 + 1)) := v.isLt.trans (by decide)
  rw [varintValue_eq, varintBytes, groupSum_varintBytesFrom 9 v hv, BitVec.ofNat_toNat, BitVec.setWidth_eq]

/-- The tenth group of a value's shortest spelling is 0 or 1, so that `VARINT_G10_HIGH` does not matter to it. -/
theorem varintBytes_tenthGroup (v : Word) : ((varintBytes v).getD 9 0).toNat < 2 :=
  varintBytesFrom_topGroup 9 v v.isLt

/-- Settles O4: a value that `g` groups can have is below `2^(7g)`, and such a value is spelled in no more than `g`. -/
theorem varintSpellingIsShortest : Obligations.VarintSpellingIsShortest := by
  intro v
  refine ⟨varintBytes_isVarint v, varintValue_varintBytes v, fun bs hbs hv => ?_⟩
  obtain ⟨g, hg⟩ : ∃ g, bs.length = g + 1 := ⟨bs.length - 1, by have := hbs.1; omega⟩
  have hlt : v.toNat < 2 ^ (7 * (g + 1)) := by
    rw [← hv, varintValue_eq, BitVec.toNat_ofNat, ← hg]
    exact (Nat.mod_le _ _).trans_lt (groupSum_lt bs)
  exact hg ▸ length_varintBytesFrom_le 9 v g hlt

end Sys2Proof.Machine
end

section
/-!
VARINT's invocation (41_varint.md rules R100 to R108): one equation for each group it may read, the value law, and the ways
it ends.
-/
namespace Sys2Proof.Machine

theorem exec_varintLast (d : BitVec 7) (s : State) :
    exec (.varintLast d) s = .next { s with v1 := s.v1.lastGroup s.cfg d } := rfl

theorem exec_varintCont (d : BitVec 7) (s : State) :
    exec (.varintCont d) s = .next { s with v1 := s.v1.contGroup s.cfg d } := rfl

/-! The tenth group. -/

theorem groupsLeft_le_one {shift : BitVec 7} : groupsLeft shift ≤ 1 ↔ 63 ≤ shift.toNat := by
  unfold groupsLeft Config.varintMaxGroups
  omega

theorem groupsLeft_ofNat {g : Nat} (hg : g ≤ 10) : groupsLeft (BitVec.ofNat 7 (7 * g)) = 10 - g := by
  have hmod : 7 * g % 2 ^ 7 = 7 * g := Nat.mod_eq_of_lt (by omega)
  rw [groupsLeft, BitVec.toNat_ofNat, hmod, Nat.mul_div_cancel_left g (by decide)]

theorem groupOverflows_iff (d : BitVec 7) : groupOverflows d = true ↔ 2 ≤ d.toNat := by
  revert d
  decide

namespace V1Unit
variable {u : V1Unit}

theorem lastGroup_value {c : Config} {d : BitVec 7}
    (h : c.g10High = .discard ∨ u.vi.shift.toNat < 63 ∨ d.toNat < 2) :
    u.lastGroup c d = (u.accumulate d).varintReturn (.value (u.accumulate d).vi.acc) := by
  refine if_neg ?_
  rw [groupsLeft_le_one, groupOverflows_iff]
  rintro ⟨hfault, hshift, hd⟩
  obtain h | h | h := h
  · simp [h] at hfault
  · omega
  · omega

theorem lastGroup_malformed {c : Config} {d : BitVec 7} (hc : c.g10High = .fault) (hs : 63 ≤ u.vi.shift.toNat)
    (hd : 2 ≤ d.toNat) : u.lastGroup c d = (u.accumulate d).varintReturn (.err .malformedVarint) :=
  if_pos ⟨hc, groupsLeft_le_one.mpr hs, (groupOverflows_iff d).mpr hd⟩

end V1Unit

/-- Settles O23: the two clauses of `lastGroup`. -/
theorem varintLastGroup : Obligations.VarintLastGroup := by
  refine fun d s => ⟨fun h => ?_, fun hc hs hd => ?_⟩
  · rw [exec_varintLast, V1Unit.lastGroup_value h]
    rfl
  · rw [exec_varintLast, V1Unit.lastGroup_malformed hc hs hd]
    rfl

/-! One group read. -/

namespace V1Unit
variable {u : V1Unit}

/-- The rest of an invocation from a group it has read. -/
def group (c : Config) (b : Byte) (u : V1Unit) : V1Unit :=
  match b[7] with
  | false => u.lastGroup c (b.extractLsb' 0 7)
  | true => u.contGroup c (b.extractLsb' 0 7)

theorem contGroup_of_shift {c : Config} {d : BitVec 7} {g : Nat} (hg : g ≤ 9) (hs : u.vi.shift = BitVec.ofNat 7 (7 * g)) :
    u.contGroup c d = (u.accumulate d).readGroups c (9 - g) ∧
      (u.accumulate d).vi.shift = BitVec.ofNat 7 (7 * (g + 1)) := by
  have hshift : (u.accumulate d).vi.shift = BitVec.ofNat 7 (7 * (g + 1)) := by
    rw [accumulate_vi, hs, Nat.mul_succ, BitVec.ofNat_add]
  refine ⟨?_, hshift⟩
  rw [contGroup, hshift, groupsLeft_ofNat (by omega)]
  congr 1
  omega

/-- Reading on carries out the group that is there. -/
theorem readGroups_offers {c : Config} {b : Byte} {g : Nat} (hg : g ≤ 9) (hs : u.vi.shift = BitVec.ofNat 7 (7 * g))
    (h : u.src.Offers [b]) : u.readGroups c (10 - g) = { u with src := u.src.skip 1 }.group c b := by
  obtain ⟨fuel, hfuel⟩ : ∃ fuel, 10 - g = fuel + 1 := ⟨9 - g, by omega⟩
  have hcont := (contGroup_of_shift (u := { u with src := u.src.skip 1 }) (c := c) (d := b.extractLsb' 0 7) hg hs).1
  have hleft : 9 - g = fuel := by omega
  rw [hfuel, readGroups, srcRead_offers h]
  cases hb : b[7] with
  | false => simp only [group, hb]
  | true => simp only [group, hb, hcont, hleft]

theorem readGroups_denied {c : Config} {fuel : Nat} {k : ErrKind} (h : u.src.Denies k) :
    u.readGroups c (fuel + 1) =
      u.varintReturn (if k = .truncation ∧ u.vi.shift = 0#7 then .eos else .err k) := by
  obtain ⟨hend, rfl⟩ | ⟨hfail, rfl⟩ := h
  · simp [readGroups, srcRead_atEnd hend]
  · simp [readGroups, srcRead_atFailure hfail]

end V1Unit

theorem exec_decodeLead_varint (b : Byte) (s : State) :
    exec (decodeLead .varint b) s = .next { s with v1 := s.v1.group s.cfg b } := by
  cases hb : b[7] <;> simp only [decodeLead, V1Unit.group, hb, exec_varintLast, exec_varintCont]

/-- Settles O24: the group is taken in and the invocation reads on, at the byte, the end or the failure that is there. -/
theorem varintContGroup : Obligations.VarintContGroup := by
  intro d s g hg hs
  obtain ⟨hcont, hshift⟩ := V1Unit.contGroup_of_shift (c := s.cfg) (d := d) hg hs
  have hacc : s.v1.accumulate d = { s.v1 with vi :=
      ⟨s.v1.vi.acc ||| (d.setWidth 64 <<< (7 * g)), BitVec.ofNat 7 (7 * g + 7), s.v1.vi.ret⟩ } := by
    have hmod : 7 * g % 128 = 7 * g := Nat.mod_eq_of_lt (by omega)
    simp [V1Unit.accumulate, groupBits, hs, hmod, BitVec.ofNat_add]
  have hnext (hg : g < 9) {b : Byte} (hb : s.v1.src.Offers [b]) :
      exec (.varintCont d) s = exec (decodeLead .varint b)
        { s with v1 := { s.v1.accumulate d with src := s.v1.src.skip 1 } } := by
    have h10 : 9 - g = 10 - (g + 1) := by omega
    rw [exec_varintCont, exec_decodeLead_varint, hcont, h10, V1Unit.readGroups_offers (by omega) hshift hb]
    rfl
  have hdenied (hg : g < 9) {k : ErrKind} (hk : s.v1.src.Denies k) :
      exec (.varintCont d) s = .next { s with v1 := (s.v1.accumulate d).varintReturn (.err k) } := by
    have hne : (s.v1.accumulate d).vi.shift ≠ 0#7 := by
      rw [hshift, ne_eq, ← BitVec.toNat_inj]
      simp
      omega
    obtain ⟨fuel, hfuel⟩ : ∃ fuel, 9 - g = fuel + 1 := ⟨8 - g, by omega⟩
    rw [exec_varintCont, hcont, hfuel, V1Unit.readGroups_denied (u := s.v1.accumulate d) hk, if_neg fun h => hne h.2]
  refine ⟨fun h9 => ?_, fun hlt b hb => ?_, fun hlt hdiscard b hb hlast => ?_, fun hlt hend => ?_, fun hlt hfail => ?_⟩
  · subst h9
    rw [exec_varintCont, hcont, hacc]
    rfl
  · rw [hnext hlt hb, hacc]
  · rw [hnext hlt hb, exec_decodeLead_varint, V1Unit.group, controlBit_of_lt hlast, hacc]
    simp only [V1Unit.lastGroup_value (.inl hdiscard)]
    have hmod : (7 * g + 7) % 128 = 7 * g + 7 := Nat.mod_eq_of_lt (by omega)
    have hbits : (b.extractLsb' 0 7).setWidth 64 = b.setWidth 64 :=
      BitVec.eq_of_toNat_eq (by simp [BitVec.extractLsb'_toNat]; omega)
    simp [V1Unit.accumulate, V1Unit.varintReturn, groupBits, hmod, hbits, BitVec.ofNat_add, BitVec.add_assoc]
  · rw [hdenied hlt (.inl ⟨hend, rfl⟩), hacc]
    rfl
  · rw [hdenied hlt (.inr ⟨hfail, rfl⟩), hacc]
    rfl

end Sys2Proof.Machine
end

section
/-!
A whole varint (41_varint.md rules R103 to R108): the groups taken in, the value law, the end of the input, and the ways an
invocation ends.
-/
namespace Sys2Proof.Machine

/-- A group OR-ed in above a smaller accumulator is added. -/
theorem ofNat_or_group {a k : Nat} (ha : a < 2 ^ k) (d : BitVec 7) :
    BitVec.ofNat 64 a ||| (d.setWidth 64 <<< k) = BitVec.ofNat 64 (a + d.toNat * 2 ^ k) := by
  have hd : d.toNat % 2 ^ 64 = d.toNat := Nat.mod_eq_of_lt (d.isLt.trans (by decide))
  refine BitVec.eq_of_toNat_eq ?_
  rw [BitVec.toNat_or, BitVec.toNat_shiftLeft, BitVec.toNat_setWidth, BitVec.toNat_ofNat, BitVec.toNat_ofNat, hd,
    ← Nat.or_mod_two_pow, Nat.or_comm, ← Nat.shiftLeft_add_eq_or_of_lt ha, Nat.shiftLeft_eq, Nat.add_comm]

namespace V1Unit
variable {u : V1Unit}

theorem takeGroups_concat (groups : List Byte) (b : Byte) (u : V1Unit) :
    u.takeGroups (groups ++ [b]) =
      { u.takeGroups groups with src := (u.takeGroups groups).src.skip 1 }.accumulate (b.extractLsb' 0 7) := by
  simp [takeGroups]

/-- The next group is taken in to the sum of those before it. -/
theorem accumulate_groupSum {groups : List Byte} {b : Byte} {r : VarintResult} (hlen : groups.length ≤ 9)
    (hvi : u.vi = ⟨BitVec.ofNat 64 (groupSum groups), BitVec.ofNat 7 (7 * groups.length), r⟩) :
    u.accumulate (b.extractLsb' 0 7) = { u with vi :=
      ⟨BitVec.ofNat 64 (groupSum (groups ++ [b])), BitVec.ofNat 7 (7 * (groups.length + 1)), r⟩ } := by
  have hmod : 7 * groups.length % 2 ^ 7 = 7 * groups.length := Nat.mod_eq_of_lt (by omega)
  rw [accumulate, hvi, groupBits, BitVec.toNat_ofNat, hmod, ofNat_or_group (groupSum_lt groups), toNat_controlField,
    groupSum_concat, Nat.mul_succ]
  simp only [BitVec.ofNat_add]

/-- Groups taken in from the start of an invocation leave their sum in the accumulator. -/
theorem takeGroups_of_start (groups : List Byte) (hlen : groups.length ≤ 10) (hvi : u.vi = VarintRegs.start) :
    u.takeGroups groups = { u with
      src := u.src.skip groups.length
      vi := ⟨BitVec.ofNat 64 (groupSum groups), BitVec.ofNat 7 (7 * groups.length), .eos⟩ } := by
  induction groups using List.reverseRecOn with
  | nil =>
    simp only [takeGroups, List.foldl_nil, groupSum, List.length_nil, Source.skip_zero, Nat.mul_zero]
    rw [show (⟨BitVec.ofNat 64 0, BitVec.ofNat 7 0, .eos⟩ : VarintRegs) = u.vi from hvi.symm]
  | append_singleton groups b ih =>
    rw [List.length_append, List.length_singleton] at hlen
    rw [takeGroups_concat, ih (by omega), accumulate_groupSum (by omega) rfl, List.length_append, List.length_singleton]
    rfl

/-- Continued groups at the start of an invocation, at most ten of them, and the reading goes on after them. -/
theorem varintDecode_continued (c : Config) {groups : List Byte} (hlen : groups.length ≤ 10)
    (hflag : ∀ b ∈ groups, b[7] = true) (h : u.src.Passes groups) :
    u.varintDecode c = { u with
      src := u.src.skip groups.length
      vi := ⟨BitVec.ofNat 64 (groupSum groups), BitVec.ofNat 7 (7 * groups.length), .eos⟩ }.readGroups c
        (10 - groups.length) := by
  obtain rfl | h := h
  · rfl
  have hfuel : groups.length + (10 - groups.length) = Config.varintMaxGroups := Nat.add_sub_of_le hlen
  rw [varintDecode, ← hfuel, readGroups_continued c groups _ { u with vi := VarintRegs.start } hflag h,
    takeGroups_of_start groups hlen rfl]

/-- The value law (41_varint.md rule R108), also under `VARINT_G10_HIGH = fault` where the tenth group has no high bit. -/
theorem varintDecode_value {c : Config} {bs : List Byte} (hc : c.g10High = .discard ∨ (bs.getD 9 0).toNat < 2)
    (hbs : IsVarint bs) (h : u.src.Offers bs) :
    u.varintDecode c = { u with
      src := u.src.skip bs.length
      vi := ⟨varintValue bs, BitVec.ofNat 7 (7 * bs.length), .value (varintValue bs)⟩ } := by
  obtain ⟨groups, last, rfl, hlen, hflag, hlast⟩ := hbs.exists_concat
  obtain ⟨hgroups, ho⟩ := Source.offers_append.mp h
  rw [varintDecode_continued c (by omega) hflag hgroups.passes, readGroups_offers hlen rfl ho]
  simp only [group, hlast]
  rw [lastGroup_value, accumulate_groupSum hlen rfl, varintValue_eq, List.length_append]
  · rfl
  · refine hc.imp_right fun htop => ?_
    by_cases h9 : groups.length = 9
    · right
      have hlast : (groups ++ [last]).getD 9 0 = last := by simp [h9]
      rw [hlast] at htop
      rw [toNat_controlField]
      omega
    · left
      rw [BitVec.toNat_ofNat, Nat.mod_eq_of_lt (by omega)]
      omega

/-- An invocation cut short after some continued groups. -/
theorem varintDecode_denied (c : Config) {groups : List Byte} {k : ErrKind} (hlen : groups.length ≤ 9)
    (hflag : ∀ b ∈ groups, b[7] = true) (h : u.src.Passes groups) (hk : (u.src.skip groups.length).Denies k) :
    u.varintDecode c = { u with
      src := u.src.skip groups.length
      vi := ⟨BitVec.ofNat 64 (groupSum groups), BitVec.ofNat 7 (7 * groups.length),
        if k = .truncation ∧ groups = [] then .eos else .err k⟩ } := by
  obtain ⟨fuel, hfuel⟩ : ∃ fuel, 10 - groups.length = fuel + 1 := ⟨9 - groups.length, by omega⟩
  have hzero : BitVec.ofNat 7 (7 * groups.length) = 0#7 ↔ groups = [] := by
    rw [← BitVec.toNat_inj, BitVec.toNat_ofNat, Nat.mod_eq_of_lt (by omega)]
    simp
  rw [varintDecode_continued c (by omega) hflag h, hfuel, readGroups_denied hk]
  simp only [varintReturn, hzero]

/-- Ten continued groups are malformed, and no eleventh byte is read (41_varint.md rule R103). -/
theorem varintDecode_malformed (c : Config) {groups : List Byte} (hlen : groups.length = 10)
    (hflag : ∀ b ∈ groups, b[7] = true) (h : u.src.Offers groups) :
    u.varintDecode c = { u with
      src := u.src.skip 10
      vi := ⟨BitVec.ofNat 64 (groupSum groups), BitVec.ofNat 7 (7 * 10), .err .malformedVarint⟩ } := by
  rw [varintDecode_continued c hlen.le hflag h.passes, hlen]
  rfl

end V1Unit

/-- Settles O25: under `discard` the value law holds whatever the tenth group is. -/
theorem varintValueLaw : Obligations.VarintValueLaw := fun _ _ _ hc hbs h => V1Unit.varintDecode_value (.inl hc) hbs h

/-- Settles O26: the end denies the next group, and ten groups are the cap. -/
theorem varintEndAndCap : Obligations.VarintEndAndCap := by
  intro c u bs hflag h
  refine ⟨fun hlen hend => ?_, fun hlen => ?_⟩
  · rw [V1Unit.varintDecode_denied c hlen hflag h.passes (.inl ⟨hend, rfl⟩)]
    simp
  · rw [V1Unit.varintDecode_malformed c hlen hflag h]
    exact ⟨rfl, rfl⟩

/-! The ways an invocation ends. -/

namespace V1Unit
variable {u : V1Unit}

/-- How VARINT, or the rest of an invocation, ends at the unit `u`: with a value, for which it needed of the source no more
than the bytes it read, or without one. Nothing of `u` changes but the position and the registers of the invocation. -/
inductive VarintEnds (op : V1Unit → V1Unit) (u : V1Unit) : Prop where
  | value (bs : List Byte) (vi : VarintRegs) (w : Word) (ret : vi.ret = .value w) (passes : u.src.Passes bs)
      (eq : ∀ src, src.Passes bs → op { u with src := src } = { u with src := src.skip bs.length, vi := vi })
  | failed (bs : List Byte) (vi : VarintRegs) (ret : vi.ret = .eos ∨ ∃ k, k ≠ .unsupportedEncoding ∧ vi.ret = .err k)
      (passes : u.src.Passes bs) (eq : op u = { u with src := u.src.skip bs.length, vi := vi })

theorem VarintEnds.after {op op' : V1Unit → V1Unit} (pre : List Byte) (vi : VarintRegs) (hpre : u.src.Passes pre)
    (hop : ∀ src, src.Passes pre → op { u with src := src } = op' { u with src := src.skip pre.length, vi := vi })
    (h : VarintEnds op' { u with src := u.src.skip pre.length, vi := vi }) : VarintEnds op u := by
  cases h with
  | value bs vi' w ret passes eq =>
    refine .value (pre ++ bs) vi' w ret (Source.passes_append.mpr ⟨hpre, passes⟩) fun src hsrc => ?_
    obtain ⟨hpre', hbs⟩ := Source.passes_append.mp hsrc
    simpa using (hop src hpre').trans (eq (src.skip pre.length) hbs)
  | failed bs vi' ret passes eq =>
    refine .failed (pre ++ bs) vi' ret (Source.passes_append.mpr ⟨hpre, passes⟩) ?_
    simpa using (hop u.src hpre).trans eq

theorem lastGroup_ends (c : Config) (d : BitVec 7) (u : V1Unit) : VarintEnds (lastGroup c d) u := by
  by_cases h : c.g10High = .fault ∧ groupsLeft u.vi.shift ≤ 1 ∧ groupOverflows d = true
  · exact .failed [] _ (.inr ⟨.malformedVarint, by decide, rfl⟩) (by simp) (if_pos h)
  · exact .value [] ⟨(u.accumulate d).vi.acc, (u.accumulate d).vi.shift, .value (u.accumulate d).vi.acc⟩ _ rfl (by simp)
      fun _ _ => if_neg h

theorem readGroups_ends (c : Config) (fuel : Nat) (u : V1Unit) : VarintEnds (readGroups c fuel) u := by
  induction fuel generalizing u with
  | zero => exact .failed [] _ (.inr ⟨.malformedVarint, by decide, rfl⟩) (by simp) rfl
  | succ fuel ih =>
    obtain ⟨-, h⟩ | ⟨-, -, h⟩ | ⟨hf, hl, -⟩ := srcRead_cases u.src
    · exact .failed [] ⟨u.vi.acc, u.vi.shift, .err .ioFailure⟩ (.inr ⟨.ioFailure, by decide, rfl⟩) (by simp)
        (by simp [readGroups, h, varintReturn])
    · refine .failed [] ⟨u.vi.acc, u.vi.shift, if u.vi.shift = 0#7 then .eos else .err .truncation⟩ ?_ (by simp)
        (by simp [readGroups, h, varintReturn])
      split
      · exact .inl rfl
      · exact .inr ⟨.truncation, by decide, rfl⟩
    · have hb := Source.offers_read hf hl
      generalize u.src.mem.read u.src.pos = b at hb
      cases hbit : b[7] with
      | false =>
        refine (lastGroup_ends c (b.extractLsb' 0 7) _).after [b] u.vi hb.passes fun src hsrc => ?_
        simp [readGroups, srcRead_offers (hsrc.resolve_left (by simp)), hbit]
      | true =>
        refine (ih _).after [b] (u.accumulate (b.extractLsb' 0 7)).vi hb.passes fun src hsrc => ?_
        simp [readGroups, srcRead_offers (hsrc.resolve_left (by simp)), hbit, accumulate]

theorem contGroup_ends (c : Config) (d : BitVec 7) (u : V1Unit) : VarintEnds (contGroup c d) u :=
  (readGroups_ends c (groupsLeft (u.accumulate d).vi.shift) _).after [] (u.accumulate d).vi (by simp) fun _ _ => rfl

theorem varintDecode_ends (c : Config) (u : V1Unit) : VarintEnds (varintDecode c) u :=
  (readGroups_ends c _ _).after [] VarintRegs.start (by simp) fun _ _ => rfl

end V1Unit

end Sys2Proof.Machine
end

section
/-!
V1 on its own (44_int_rle_v1.md rules R150 to R159): a call changes V1 alone, as a function of it and the configuration, and
ends in one of five ways.
-/
namespace Sys2Proof.Machine

namespace V1Unit

/-- The rest of a call whose control byte is read (44_int_rle_v1.md rule R151). -/
def begin (c : Config) (b : Byte) (u : V1Unit) : Host.Outcome V1Unit Fault Refusal :=
  if b.toNat < 128 then u.runDelta c (b.extractLsb' 0 7)
  else if b = emptyRunControl then u.fallThrough c
  else .next (u.runLiteral c (b.extractLsb' 0 7))

/-- A call that finds V1 idle. -/
def fetch (c : Config) (u : V1Unit) : Host.Outcome V1Unit Fault Refusal :=
  match readFirst u.src with
  | .error st => .next (u.stop st)
  | .ok (b, src) => { u with src := src }.begin c b

/-- A call (44_int_rle_v1.md rule R150). -/
def next (c : Config) (u : V1Unit) : Host.Outcome V1Unit Fault Refusal :=
  match u.latch.fault with
  | some k => .next (u.answer (.err k u.latch.finfo))
  | none =>
    match u.mode with
    | .idle => u.fetch c
    | .deltaRun => u.deliverDelta c
    | .literalRun => .next (u.deliverLiteral c)

end V1Unit

/-! These functions are what the machine does. -/

theorem exec_v1Delta (n : BitVec 7) (s : State) : exec (.v1Delta n) s = s.withV1 (s.v1.runDelta s.cfg n) := rfl

theorem exec_v1Literal_nonempty {n : BitVec 7} (hn : n ≠ 0#7) (s : State) :
    exec (.v1Literal n) s = .next { s with v1 := s.v1.runLiteral s.cfg n } := if_neg hn

theorem exec_v1Literal_empty (s : State) : exec (.v1Literal 0) s = s.withV1 (s.v1.fallThrough s.cfg) := rfl

@[simp] theorem State.withV1_setV1 (s : State) (u : V1Unit) (o : Host.Outcome V1Unit Fault Refusal) :
    { s with v1 := u }.withV1 o = s.withV1 o := by
  cases o <;> rfl

theorem decodeLead_v1_of_lt {b : Byte} (hb : b.toNat < 128) : decodeLead .v1 b = .v1Delta (b.extractLsb' 0 7) := by
  simp only [decodeLead, controlBit_of_lt hb]

theorem decodeLead_v1_of_ge {b : Byte} (hb : 128 ≤ b.toNat) : decodeLead .v1 b = .v1Literal (b.extractLsb' 0 7) := by
  simp only [decodeLead, controlBit_of_ge hb]

theorem exec_decodeLead_v1 (b : Byte) (s : State) :
    exec (decodeLead .v1 b) s = s.withV1 (s.v1.begin s.cfg b) := by
  obtain hlt | heq | hgt := Nat.lt_trichotomy b.toNat 128
  · rw [decodeLead_v1_of_lt hlt, exec_v1Delta, V1Unit.begin, if_pos hlt]
  · obtain rfl : b = emptyRunControl := BitVec.eq_of_toNat_eq heq
    rfl
  · have hne : b ≠ emptyRunControl := fun h => by simp [h, emptyRunControl] at hgt
    rw [decodeLead_v1_of_ge hgt.le, exec_v1Literal_nonempty (controlField_ne_zero hgt), V1Unit.begin, if_neg hgt.not_gt,
      if_neg hne, State.withV1_next]

theorem fetchV1_eq (s : State) : fetchV1 s = s.withV1 (s.v1.fetch s.cfg) := by
  cases h : readFirst s.v1.src with
  | error st => simp only [fetchV1, V1Unit.fetch, h, State.withV1_next]
  | ok r => simp only [fetchV1, V1Unit.fetch, h, exec_decodeLead_v1, State.withV1_setV1]

theorem nextV1_eq (s : State) : nextV1 s = s.withV1 (s.v1.next s.cfg) := by
  cases hf : s.v1.latch.fault with
  | some k => simp only [nextV1, V1Unit.next, hf, State.withV1_next]
  | none => cases hm : s.v1.mode <;> simp only [nextV1, V1Unit.next, hf, hm, fetchV1_eq, State.withV1_next]

namespace V1Unit
variable {c : Config} {u : V1Unit}

theorem next_faulted {k : ErrKind} (h : u.latch.fault = some k) :
    u.next c = .next (u.answer (.err k u.latch.finfo)) := by
  simp only [next, h]

theorem next_idle (hf : u.latch.fault = none) (hm : u.mode = .idle) : u.next c = u.fetch c := by
  simp only [next, hf, hm]

theorem next_deltaRun (hf : u.latch.fault = none) (hm : u.mode = .deltaRun) : u.next c = u.deliverDelta c := by
  simp only [next, hf, hm]

theorem next_literalRun (hf : u.latch.fault = none) (hm : u.mode = .literalRun) :
    u.next c = .next (u.deliverLiteral c) := by
  simp only [next, hf, hm]

/-! Delivery of a delta run. -/

/-- The deliveries that `V1_ADD = refuse` gives no step (44_int_rle_v1.md rule R155). -/
def Refuses (c : Config) (u : V1Unit) : Prop :=
  c.v1Add = .refuse ∧ 1 < u.cnt.toNat ∧ LeavesSigned u.val u.delta

theorem countDown_eq (u : V1Unit) :
    u.countDown = { u with mode := if u.cnt = 1#8 then .idle else u.mode, cnt := u.cnt - 1#8 } := by
  have hlast : u.cnt - 1#8 = 0#8 ↔ u.cnt = 1#8 := sub_eq_zero
  simp only [countDown, hlast]

theorem refuses_iff : u.Refuses c ↔ c.v1Add = .refuse ∧ 1 < u.cnt.toNat ∧
    (asI64 u.val + asI64 (deltaOperand u.delta) < -2 ^ 63 ∨ 2 ^ 63 ≤ asI64 u.val + asI64 (deltaOperand u.delta)) := by
  rw [asI64_deltaOperand]
  rfl

theorem deliverDelta_refused (h : u.Refuses c) : u.deliverDelta c = .fault .v1AddNoStep := if_pos (refuses_iff.mp h)

theorem deliverDelta_value (h : ¬ u.Refuses c) :
    u.deliverDelta c = .next { u with
      mode := if u.cnt = 1#8 then .idle else u.mode
      cnt := u.cnt - 1#8
      val := u.val + u.delta.signExtend 64
      port := some (.value u.val) } := by
  rw [deliverDelta, if_neg (mt refuses_iff.mpr h), countDown_eq]
  rfl

theorem not_refuses_of_wrap (h : c.v1Add = .wrap) : ¬ u.Refuses c := by
  simp [Refuses, h]

/-! What V1 makes of a varint. -/

theorem takeVarint_value {bs : List Byte} (hc : c.g10High = .discard ∨ (bs.getD 9 0).toNat < 2) (hbs : IsVarint bs)
    (h : u.src.Offers bs) :
    (u.varintDecode c).takeVarint =
      (.ok (varintValue bs), { u with src := u.src.skip bs.length, vi := VarintRegs.start }) := by
  rw [varintDecode_value hc hbs h]
  rfl

/-- V1's varint ends in the error `k` after `n` bytes, its clean end being a truncation (44_int_rle_v1.md rule R158). -/
def VarintStops (c : Config) (u : V1Unit) (n : Nat) (k : ErrKind) : Prop :=
  ∃ vi, (u.varintDecode c).takeVarint = (.error (.raise k 0), { u with src := u.src.skip n, vi := vi })

theorem varintStops_denied {groups : List Byte} {k : ErrKind} (hlen : groups.length ≤ 9)
    (hflag : ∀ b ∈ groups, b[7] = true) (h : u.src.Passes groups) (hk : (u.src.skip groups.length).Denies k) :
    VarintStops c u groups.length k := by
  rw [VarintStops, varintDecode_denied c hlen hflag h hk]
  by_cases hclean : k = .truncation ∧ groups = []
  · rw [if_pos hclean, hclean.1]
    exact ⟨_, rfl⟩
  · rw [if_neg hclean]
    exact ⟨_, rfl⟩

theorem varintStops_malformed {groups : List Byte} (hlen : groups.length = 10) (hflag : ∀ b ∈ groups, b[7] = true)
    (h : u.src.Offers groups) : VarintStops c u 10 .malformedVarint := by
  rw [VarintStops, varintDecode_malformed c hlen hflag h]
  exact ⟨_, rfl⟩

theorem deliverLiteral_of_varint {w : Word} {src : Source}
    (h : (u.varintDecode c).takeVarint = (.ok w, { u with src := src, vi := VarintRegs.start })) :
    u.deliverLiteral c = { u with
      mode := if u.cnt = 1#8 then .idle else u.mode
      cnt := u.cnt - 1#8
      src := src
      vi := VarintRegs.start
      port := some (.value w) } := by
  simp only [deliverLiteral, h, countDown_eq, answer]

theorem deliverLiteral_stopped {n : Nat} {k : ErrKind} (h : VarintStops c u n k) :
    u.deliverLiteral c = { u with src := u.src.skip n }.raise k 0 := by
  obtain ⟨vi, h⟩ := h
  simp only [deliverLiteral, h, stop_raise, raise]

/-- A literal run of at least one varint, which is over after one (44_int_rle_v1.md rule R153). -/
theorem runLiteral_of_varint {n : BitVec 7} (hn : n ≠ 0#7) {w : Word} {src : Source}
    (h : ({ u with cnt := literalLength n, mode := .literalRun }.varintDecode c).takeVarint =
      (.ok w, { u with cnt := literalLength n, mode := .literalRun, src := src, vi := VarintRegs.start })) :
    u.runLiteral c n = { u with
      mode := if n.toNat = 1 then .idle else .literalRun
      cnt := BitVec.ofNat 8 (n.toNat - 1)
      src := src
      vi := VarintRegs.start
      port := some (.value w) } := by
  have hone : literalLength n = 1#8 ↔ n.toNat = 1 := by
    rw [← BitVec.toNat_inj, toNat_literalLength]
    rfl
  have hleft : literalLength n - 1#8 = BitVec.ofNat 8 (n.toNat - 1) := by
    rw [literalLength_eq_ofNat]
    bv_omega
  rw [runLiteral, deliverLiteral_of_varint h]
  simp only [hone, hleft]

theorem runLiteral_stopped {n : BitVec 7} {m : Nat} {k : ErrKind}
    (h : VarintStops c { u with cnt := literalLength n, mode := .literalRun } m k) :
    u.runLiteral c n = { u with src := u.src.skip m }.raise k 0 :=
  deliverLiteral_stopped h

theorem runDelta_denied {n : BitVec 7} {k : ErrKind} (h : u.src.Denies k) : u.runDelta c n = .next (u.raise k 0) := by
  simp only [runDelta, readMore_denied h, stop_raise]

theorem runDelta_stopped {n : BitVec 7} {d : Byte} {m : Nat} {k : ErrKind} (hd : u.src.Offers [d])
    (h : VarintStops c { u with src := u.src.skip 1 } m k) :
    u.runDelta c n = .next ({ u with src := u.src.skip (1 + m) }.raise k 0) := by
  obtain ⟨vi, h⟩ := h
  simp only [runDelta, readMore_offers hd, h, stop_raise, raise, Source.skip_skip]

/-- A delta run whose delta byte and base are there enters delta-run mode and delivers (44_int_rle_v1.md rule R152). -/
theorem runDelta_of_varint {n : BitVec 7} {d : Byte} {base : Word} {src : Source} (hd : u.src.Offers [d])
    (h : ({ u with src := u.src.skip 1 }.varintDecode c).takeVarint =
      (.ok base, { u with src := src, vi := VarintRegs.start })) :
    u.runDelta c n = { u with
      mode := .deltaRun
      cnt := repeatLength n
      val := base
      delta := d
      src := src
      vi := VarintRegs.start }.deliverDelta c := by
  simp only [runDelta, readMore_offers hd, h]

/-! What a fetch finds. -/

theorem begin_empty (c : Config) (u : V1Unit) : u.begin c emptyRunControl = u.fallThrough c := rfl

theorem begin_literal {b : Byte} (hb : 128 < b.toNat) : u.begin c b = .next (u.runLiteral c (b.extractLsb' 0 7)) := by
  have hne : b ≠ emptyRunControl := fun h => by simp [h, emptyRunControl] at hb
  rw [begin, if_neg hb.not_gt, if_neg hne]

theorem fetch_offers {b : Byte} (h : u.src.Offers [b]) : u.fetch c = { u with src := u.src.skip 1 }.begin c b := by
  simp only [fetch, readFirst_offers h]

theorem fetch_delta {b : Byte} (hb : b.toNat < 128) (h : u.src.Offers [b]) :
    u.fetch c = { u with src := u.src.skip 1 }.runDelta c (b.extractLsb' 0 7) := by
  rw [fetch_offers h, begin, if_pos hb]

theorem fetch_literal {b : Byte} (hb : 128 < b.toNat) (h : u.src.Offers [b]) :
    u.fetch c = .next ({ u with src := u.src.skip 1 }.runLiteral c (b.extractLsb' 0 7)) := by
  rw [fetch_offers h, begin_literal hb]

theorem fetch_atEnd (hf : ¬ u.src.AtFailure) (hl : u.src.len ≤ u.src.pos) : u.fetch c = .next (u.answer .eos) := by
  obtain ⟨h, -⟩ | ⟨-, -, h⟩ | ⟨-, h, -⟩ := readFirst_cases u.src
  · exact absurd h hf
  · simp only [fetch, h, stop_eos]
  · omega

theorem fetch_atFailure (h : u.src.AtFailure) : u.fetch c = .next (u.raise .ioFailure 0) := by
  simp only [fetch, readFirst_atFailure h, stop_raise]

/-- The empty literal run falls through to the fetch of the next control byte (44_int_rle_v1.md rule R154). -/
theorem fallThrough_eq_fetch (c : Config) (u : V1Unit) : u.fallThrough c = u.fetch c := by
  by_cases h : u.src.Offers [emptyRunControl]
  · rw [fetch_offers h, begin_empty, fallThrough, fallThrough, skipEmptyRuns_cons h]
  · rw [fallThrough, fetch, skipEmptyRuns_none h]
    obtain ⟨-, hr⟩ | ⟨-, -, hr⟩ | ⟨hf, hl, hr⟩ := readFirst_cases u.src
    · simp only [hr]
    · simp only [hr]
    · have ho := Source.offers_read hf hl
      simp only [hr]
      generalize u.src.mem.read u.src.pos = b at ho
      obtain hlt | heq | hgt := Nat.lt_trichotomy b.toNat 128
      · simp [controlBit_of_lt hlt, begin, hlt]
      · exact absurd (BitVec.eq_of_toNat_eq (y := emptyRunControl) heq ▸ ho) h
      · simp [controlBit_of_ge hgt.le, begin_literal hgt]

theorem fetch_emptyRun (h : u.src.Offers [emptyRunControl]) : u.fetch c = { u with src := u.src.skip 1 }.fetch c := by
  rw [fetch_offers h, begin_empty, fallThrough_eq_fetch]

/-- Any number of empty literal runs are passed over. -/
theorem fetch_emptyRuns (z : Nat) (h : u.src.Passes (List.replicate z emptyRunControl)) :
    u.fetch c = { u with src := u.src.skip z }.fetch c := by
  induction z generalizing u with
  | zero => rfl
  | succ z ih =>
    obtain ⟨hfirst, hrest⟩ := Source.passes_cons.mp h
    rw [fetch_emptyRun hfirst, ih hrest, Source.skip_skip, Nat.add_comm 1]

/-! The ways a call ends. -/

/-- The bounds of the run registers (10_state.md rule R16). -/
def RunBounds (m : V1Mode) (n : BitVec 8) : Prop :=
  (m = .idle ↔ n = 0#8) ∧ (m = .deltaRun → n.toNat ≤ 129) ∧ (m = .literalRun → n.toNat ≤ 126)

/-- How an operation `op` that goes on with a run, or begins one, ends at the unit `u`: with no step, under
`V1_ADD = refuse` alone, in an error, or in a value, for which it needed of its source no more than the bytes it read. -/
inductive RunEnds (c : Config) (op : V1Unit → Host.Outcome V1Unit Fault Refusal) (u : V1Unit) : Prop where
  | refused (param : c.v1Add = .refuse) (eq : op u = .fault .v1AddNoStep)
  | raised (bs : List Byte) (k : ErrKind) (kind : k ≠ .unsupportedEncoding) (passes : u.src.Passes bs)
      (eq : op u = .next ({ u with src := u.src.skip bs.length }.raise k 0))
  | value (bs : List Byte) (m : V1Mode) (n : BitVec 8) (val : Word) (delta : Byte) (vi : VarintRegs) (v : Word)
      (bounds : RunBounds u.mode u.cnt → RunBounds m n) (varint : vi = VarintRegs.start ∨ vi = u.vi)
      (passes : u.src.Passes bs)
      (eq : ∀ src, src.Passes bs → op { u with src := src } = .next { u with
        mode := m, cnt := n, val := val, delta := delta, vi := vi, src := src.skip bs.length, port := some (.value v) })

/-- A fetch that ends the stream: only empty runs are left before the end (44_int_rle_v1.md rule R159). -/
def EndsClean (c : Config) (u : V1Unit) : Prop :=
  ∃ z, u.src.Passes (List.replicate z emptyRunControl) ∧ ¬ (u.src.skip z).AtFailure ∧ u.src.len ≤ u.src.pos + z ∧
    u.fetch c = .next ({ u with src := u.src.skip z }.answer .eos)

theorem RunEnds.after {op op' : V1Unit → Host.Outcome V1Unit Fault Refusal} (pre : List Byte) (hpre : u.src.Passes pre)
    (hop : ∀ src, src.Passes pre → op { u with src := src } = op' { u with src := src.skip pre.length })
    (h : RunEnds c op' { u with src := u.src.skip pre.length }) : RunEnds c op u := by
  cases h with
  | refused param eq => exact .refused param ((hop u.src hpre).trans eq)
  | raised bs k kind passes eq =>
    refine .raised (pre ++ bs) k kind (Source.passes_append.mpr ⟨hpre, passes⟩) ?_
    simpa using (hop u.src hpre).trans eq
  | value bs m n val delta vi v bounds varint passes eq =>
    refine .value (pre ++ bs) m n val delta vi v bounds varint (Source.passes_append.mpr ⟨hpre, passes⟩) fun src hsrc => ?_
    obtain ⟨hpre', hbs⟩ := Source.passes_append.mp hsrc
    simpa using (hop src hpre').trans (eq (src.skip pre.length) hbs)

/-- Counting down keeps the bounds of a run. -/
theorem RunBounds.countDown {m : V1Mode} {n : BitVec 8} (h : RunBounds m n) (hm : m ≠ .idle) :
    RunBounds (if n = 1#8 then .idle else m) (n - 1#8) := by
  obtain ⟨hidle, hdelta, hlit⟩ := h
  have hn : n ≠ 0#8 := fun h0 => hm (hidle.mpr h0)
  unfold RunBounds
  by_cases h1 : n = 1#8
  · simp [h1]
  · have hne : n - 1#8 ≠ 0#8 := fun h0 => h1 (sub_eq_zero.mp h0)
    have hlt : (n - 1#8).toNat ≤ n.toNat := by bv_omega
    simp only [h1, if_false, hm, hne, true_and]
    exact ⟨fun h => hlt.trans (hdelta h), fun h => hlt.trans (hlit h)⟩

/-- V1's varint ends in a value, and needed of the source no more than its bytes, or in an error. -/
theorem takeVarint_ends (c : Config) (u : V1Unit) :
    (∃ bs w, u.src.Passes bs ∧ ∀ src, src.Passes bs → ({ u with src := src }.varintDecode c).takeVarint =
      (.ok w, { u with src := src.skip bs.length, vi := VarintRegs.start })) ∨
    (∃ bs k, u.src.Passes bs ∧ k ≠ .unsupportedEncoding ∧ VarintStops c u bs.length k) := by
  cases varintDecode_ends c u with
  | value bs vi w ret passes eq =>
    exact .inl ⟨bs, w, passes, fun src hsrc => by simp only [eq src hsrc, takeVarint, ret]⟩
  | failed bs vi ret passes eq =>
    obtain ret | ⟨k, hk, ret⟩ := ret
    · exact .inr ⟨bs, .truncation, passes, by decide, vi, by simp only [eq, takeVarint, ret]⟩
    · exact .inr ⟨bs, k, passes, hk, vi, by simp only [eq, takeVarint, ret]⟩

theorem deliverDelta_ends (hb : RunBounds u.mode u.cnt → RunBounds (if u.cnt = 1#8 then .idle else u.mode) (u.cnt - 1#8)) :
    RunEnds c (deliverDelta c) u := by
  by_cases h : u.Refuses c
  · exact .refused h.1 (deliverDelta_refused h)
  · exact .value [] _ _ (u.val + u.delta.signExtend 64) u.delta u.vi u.val hb (.inr rfl) (by simp) fun src _ =>
      deliverDelta_value (u := { u with src := src }) h

theorem deliverLiteral_ends (hm : u.mode = .literalRun) : RunEnds c (fun u => .next (u.deliverLiteral c)) u := by
  obtain ⟨bs, w, passes, h⟩ | ⟨bs, k, passes, hk, h⟩ := takeVarint_ends c u
  · exact .value bs _ _ u.val u.delta _ w (fun hb => hb.countDown (by simp [hm])) (.inl rfl) passes fun src hsrc =>
      congrArg _ (deliverLiteral_of_varint (u := { u with src := src }) (h src hsrc))
  · exact .raised bs k hk passes (congrArg _ (deliverLiteral_stopped h))

theorem runLiteral_ends (c : Config) {n : BitVec 7} (hn : n ≠ 0#7) (u : V1Unit) :
    RunEnds c (fun u => .next (u.runLiteral c n)) u := by
  obtain ⟨bs, w, passes, h⟩ | ⟨bs, k, passes, hk, h⟩ :=
    takeVarint_ends c { u with cnt := literalLength n, mode := .literalRun }
  · have hcnt : (BitVec.ofNat 8 (n.toNat - 1)).toNat = n.toNat - 1 := by simp; omega
    have hpos : n.toNat ≠ 0 := fun h0 => hn (BitVec.eq_of_toNat_eq h0)
    refine .value bs _ _ u.val u.delta _ w (fun _ => ?_) (.inl rfl) passes fun src hsrc =>
      congrArg _ (runLiteral_of_varint (u := { u with src := src }) hn (h src hsrc))
    by_cases h1 : n.toNat = 1
    · simp [RunBounds, h1]
    · refine ⟨?_, ?_, fun _ => ?_⟩
      · simp [h1, ← BitVec.toNat_inj, hcnt]
        omega
      · simp [h1]
      · omega
  · exact .raised bs k hk passes (congrArg _ (runLiteral_stopped h))

end V1Unit

end Sys2Proof.Machine
end

section
/-!
V1's delta runs from their control byte on, and the ways a fetch and a call end.
-/
namespace Sys2Proof.Machine

namespace V1Unit
variable {c : Config} {u : V1Unit}

/-- A call that enters a delta run owes at least three values, so that `V1_ADD = refuse` looks at the sum of the base and
the delta alone. -/
theorem runDelta_refused {n : BitVec 7} {d : Byte} {base : Word} {src : Source} (hd : u.src.Offers [d])
    (h : ({ u with src := u.src.skip 1 }.varintDecode c).takeVarint =
      (.ok base, { u with src := src, vi := VarintRegs.start }))
    (hr : c.v1Add = .refuse ∧ LeavesSigned base d) : u.runDelta c n = .fault .v1AddNoStep := by
  have hmany : 1 < (repeatLength n).toNat := by rw [toNat_repeatLength]; omega
  exact (runDelta_of_varint hd h).trans (deliverDelta_refused ⟨hr.1, hmany, hr.2⟩)

theorem runDelta_value {n : BitVec 7} {d : Byte} {base : Word} {src : Source} (hd : u.src.Offers [d])
    (h : ({ u with src := u.src.skip 1 }.varintDecode c).takeVarint =
      (.ok base, { u with src := src, vi := VarintRegs.start }))
    (hr : ¬ (c.v1Add = .refuse ∧ LeavesSigned base d)) :
    u.runDelta c n = .next { u with
      mode := .deltaRun
      cnt := BitVec.ofNat 8 (n.toNat + 2)
      val := base + d.signExtend 64
      delta := d
      src := src
      vi := VarintRegs.start
      port := some (.value base) } := by
  have hmore : repeatLength n ≠ 1#8 := by simp [← BitVec.toNat_inj]
  have hleft : repeatLength n - 1#8 = BitVec.ofNat 8 (n.toNat + 2) := by
    rw [repeatLength_eq_ofNat]
    bv_omega
  rw [runDelta_of_varint hd h, deliverDelta_value]
  · simp only [hmore, hleft, if_false]
  · exact fun ⟨hrefuse, _, hout⟩ => hr ⟨hrefuse, hout⟩

theorem runDelta_ends (c : Config) (n : BitVec 7) (u : V1Unit) : RunEnds c (runDelta c n) u := by
  obtain ⟨-, h⟩ | ⟨-, -, h⟩ | ⟨hf, hl, -⟩ := readMore_cases u.src
  · exact .raised [] .ioFailure (by decide) (by simp) (by simp [runDelta, h])
  · exact .raised [] .truncation (by decide) (by simp) (by simp [runDelta, h])
  · have hd := Source.offers_read hf hl
    generalize u.src.mem.read u.src.pos = d at hd
    obtain ⟨bs, w, passes, h⟩ | ⟨bs, k, passes, hk, h⟩ := takeVarint_ends c { u with src := u.src.skip 1 }
    · by_cases hr : c.v1Add = .refuse ∧ LeavesSigned w d
      · exact .refused hr.1 (runDelta_refused hd (h _ passes) hr)
      · have hcnt : (BitVec.ofNat 8 (n.toNat + 2)).toNat = n.toNat + 2 := by simp; omega
        refine .value (d :: bs) .deltaRun (BitVec.ofNat 8 (n.toNat + 2)) (w + d.signExtend 64) d VarintRegs.start w
          (fun _ => ⟨?_, fun _ => ?_, nofun⟩) (.inl rfl) (Source.passes_cons.mpr ⟨hd, passes⟩) fun src hsrc => ?_
        · simp [← BitVec.toNat_inj, hcnt]
        · omega
        · obtain ⟨hd', hbs⟩ := Source.passes_cons.mp hsrc
          have := runDelta_value (u := { u with src := src }) (n := n) hd' (h _ hbs) hr
          rw [this, List.length_cons, Source.skip_skip, Nat.add_comm 1]
    · refine .raised (d :: bs) k hk (Source.passes_cons.mpr ⟨hd, passes⟩) ?_
      rw [runDelta_stopped hd h, List.length_cons, Nat.add_comm 1]

theorem fetch_ends (c : Config) (u : V1Unit) : EndsClean c u ∨ RunEnds c (fetch c) u := by
  obtain ⟨z, hz, hno⟩ := u.src.exists_emptyRuns
  obtain ⟨hf, -⟩ | ⟨hf, hl, -⟩ | ⟨hf, hl, -⟩ := readFirst_cases (u.src.skip z)
  · refine .inr (.raised _ .ioFailure (by decide) hz ?_)
    rw [fetch_emptyRuns z hz, List.length_replicate, fetch_atFailure hf]
  · exact .inl ⟨z, hz, hf, hl, (fetch_emptyRuns z hz).trans (fetch_atEnd hf hl)⟩
  · have hb := Source.offers_read hf hl
    generalize (u.src.skip z).mem.read (u.src.skip z).pos = b at hb
    have hpre : u.src.Passes (List.replicate z emptyRunControl ++ [b]) :=
      Source.passes_append.mpr ⟨hz, by simpa using hb.passes⟩
    have hsplit {src : Source} (hsrc : src.Passes (List.replicate z emptyRunControl ++ [b])) :
        src.Passes (List.replicate z emptyRunControl) ∧ (src.skip z).Offers [b] := by
      obtain ⟨h1, h2⟩ := Source.passes_append.mp hsrc
      exact ⟨h1, by simpa using h2.resolve_left (by simp)⟩
    obtain hlt | heq | hgt := Nat.lt_trichotomy b.toNat 128
    · refine .inr (RunEnds.after _ hpre (fun src hsrc => ?_) (runDelta_ends c (b.extractLsb' 0 7) _))
      obtain ⟨hsz, hsb⟩ := hsplit hsrc
      rw [fetch_emptyRuns z hsz, fetch_delta hlt hsb]
      simp
    · exact absurd (BitVec.eq_of_toNat_eq (y := emptyRunControl) heq ▸ hb) hno
    · refine .inr (RunEnds.after _ hpre (fun src hsrc => ?_) (runLiteral_ends c (controlField_ne_zero hgt) _))
      obtain ⟨hsz, hsb⟩ := hsplit hsrc
      rw [fetch_emptyRuns z hsz, fetch_literal hgt hsb]
      simp

/-- How a call ends that finds no error latched: cleanly, which idle V1 alone does, or as a run does. -/
theorem next_ends (hf : u.latch.fault = none) : (u.mode = .idle ∧ EndsClean c u) ∨ RunEnds c (next c) u := by
  cases hm : u.mode with
  | idle =>
    obtain h | h := fetch_ends c u
    · exact .inl ⟨rfl, h⟩
    · exact .inr (h.after [] (by simp) fun src _ => next_idle hf hm)
  | deltaRun =>
    exact .inr ((deliverDelta_ends fun h => h.countDown (by simp [hm])).after [] (by simp) fun src _ => next_deltaRun hf hm)
  | literalRun =>
    exact .inr ((deliverLiteral_ends hm).after [] (by simp) fun src _ => next_literalRun (u := { u with src := src }) hf hm)

/-! The clean end. -/

/-- V1 before its clean end (44_int_rle_v1.md rule R159). -/
def BeforeEnd (u : V1Unit) : Prop :=
  u.latch.fault = none ∧ u.mode = .idle ∧ u.src.BeforeEnd

/-- A run does not end a stream cleanly. -/
theorem RunEnds.port_ne_eos {op : V1Unit → Host.Outcome V1Unit Fault Refusal} (h : RunEnds c op u) {t : V1Unit}
    (ht : op u = .next t) : t.port ≠ some .eos := by
  cases h with
  | refused param eq => simp [ht] at eq
  | raised bs k kind passes eq =>
    rw [ht, Host.Outcome.next.injEq] at eq
    simp [eq]
  | value bs m n val delta vi v bounds varint passes eq =>
    have := ht.symm.trans (eq u.src passes)
    rw [Host.Outcome.next.injEq] at this
    simp [this]

theorem beforeEnd_of_port_eos (hl : u.src.pos ≤ u.src.len) {t : V1Unit} (ht : u.next c = .next t)
    (h : t.port = some .eos) : u.BeforeEnd := by
  cases hf : u.latch.fault with
  | some k =>
    rw [next_faulted hf, Host.Outcome.next.injEq] at ht
    simp [← ht] at h
  | none =>
    obtain ⟨hm, z, hz, hfail, hend, -⟩ | hrun := next_ends (c := c) hf
    · exact ⟨hf, hm, Source.beforeEnd_of_passes hl hz hfail hend⟩
    · exact absurd h (hrun.port_ne_eos ht)

theorem next_beforeEnd (h : u.BeforeEnd) :
    u.next c = .next { u with src := { u.src with pos := u.src.len }, port := some .eos } := by
  obtain ⟨hf, hm, hsrc⟩ := h
  obtain ⟨z, hz, hskip, hend⟩ := hsrc.exists_passes
  rw [next_idle hf hm, fetch_emptyRuns z hz, hskip]
  exact fetch_atEnd hend.2 le_rfl

/-- The clean end repeats, changing nothing. -/
theorem next_afterEnd (h : u.BeforeEnd) :
    { u with src := { u.src with pos := u.src.len }, port := some .eos }.next c =
      .next { u with src := { u.src with pos := u.src.len }, port := some .eos } := by
  obtain ⟨hf, hm, hsrc⟩ := h
  obtain ⟨z, -, -, hend⟩ := hsrc.exists_passes
  exact next_beforeEnd ⟨hf, hm, hend.beforeEnd⟩

end V1Unit

end Sys2Proof.Machine
end

section
/-!
The statements about one call of V1 (44_int_rle_v1.md rules R152 to R159).
-/
namespace Sys2Proof.Machine

/-- V1's part of a step is all of it where it ends in a next state. -/
theorem nextUnit_v1_of_next {s : State} {u : V1Unit} (h : s.v1.next s.cfg = .next u) :
    nextUnit .v1 s = .next { s with v1 := u } := by
  rw [nextUnit, nextV1_eq, h, State.withV1_next]

theorem exec_v1Delta_of_next {n : BitVec 7} {s : State} {u : V1Unit} (h : s.v1.runDelta s.cfg n = .next u) :
    exec (.v1Delta n) s = .next { s with v1 := u } := by
  rw [exec_v1Delta, h, State.withV1_next]

/-- The base of a delta run that is there after its delta byte. -/
theorem V1Unit.takeVarint_base {c : Config} {u : V1Unit} {d : Byte} {bs : List Byte} (hc : c.g10High = .discard)
    (hbs : IsVarint bs) (h : u.src.Offers (d :: bs)) :
    u.src.Offers [d] ∧ ({ u with src := u.src.skip 1 }.varintDecode c).takeVarint =
      (.ok (varintValue bs), { u with src := u.src.skip (1 + bs.length), vi := VarintRegs.start }) := by
  obtain ⟨hd, ho⟩ := Source.offers_cons.mp h
  exact ⟨hd, by simpa using takeVarint_value (u := { u with src := u.src.skip 1 }) (.inl hc) hbs ho⟩

/-- Settles O27: under `wrap` no delivery is refused, and the call delivers the base. -/
theorem v1DeltaDeliversBase : Obligations.V1DeltaDeliversBase := by
  intro n s d bs hwrap hdiscard hbs h
  obtain ⟨hd, hbase⟩ := V1Unit.takeVarint_base hdiscard hbs h
  exact exec_v1Delta_of_next (V1Unit.runDelta_value hd hbase (by simp [hwrap]))

/-- Settles O28: the literal is the varint that is there. -/
theorem v1LiteralDeliversFirst : Obligations.V1LiteralDeliversFirst := by
  intro n s bs hn hdiscard hbs h
  have hone : n.toNat = 1 ↔ n = 1#7 := by simp [← BitVec.toNat_inj]
  rw [exec_v1Literal_nonempty hn, V1Unit.runLiteral_of_varint hn (V1Unit.takeVarint_value (.inl hdiscard) hbs h)]
  simp only [hone]

/-- Settles O29: the empty run falls through to the fetch, which is what a call does that finds V1 idle, and which ends
cleanly at the end of the input. -/
theorem emptyV1LiteralFallsThrough : Obligations.EmptyV1LiteralFallsThrough := by
  refine fun s hf hm => ⟨?_, fun hend => ?_⟩
  · rw [exec_v1Literal_empty, V1Unit.fallThrough_eq_fetch, nextUnit, nextV1_eq, V1Unit.next_idle hf hm]
  · rw [exec_v1Literal_empty, V1Unit.fallThrough_eq_fetch, V1Unit.fetch_atEnd hend.2 hend.1.ge, State.withV1_next]
    rfl

/-- Settles O31: under `wrap` no delivery is refused. -/
theorem v1DeliveryInDeltaMode : Obligations.V1DeliveryInDeltaMode := by
  intro s hwrap hf hm
  refine nextUnit_v1_of_next ?_
  rw [V1Unit.next_deltaRun hf hm, V1Unit.deliverDelta_value (V1Unit.not_refuses_of_wrap hwrap), hm]

/-- Settles O32: the literal is the varint that is there. -/
theorem v1DeliveryInLiteralMode : Obligations.V1DeliveryInLiteralMode := by
  intro s bs hdiscard hf hm hbs h
  refine nextUnit_v1_of_next ?_
  rw [V1Unit.next_literalRun hf hm, V1Unit.deliverLiteral_of_varint (V1Unit.takeVarint_value (.inl hdiscard) hbs h), hm]

/-- Settles O30: each call delivers the value and advances it by the delta, one value fewer being left. -/
theorem v1DeltaRunValues : Obligations.V1DeltaRunValues := by
  intro s hwrap hf hm
  obtain ⟨n, hn⟩ : ∃ n, s.v1.cnt.toNat = n := ⟨_, rfl⟩
  rw [hn]
  induction n generalizing s with
  | zero => rfl
  | succ n ih =>
    have hcall := v1DeliveryInDeltaMode { s with cmds := [] } hwrap hf hm
    have hrest : outcomes .v1 (fun t => t.v1.port) n { s with cmds := [], v1 := { s.v1 with
        mode := if s.v1.cnt = 1#8 then .idle else .deltaRun
        cnt := s.v1.cnt - 1#8
        val := s.v1.val + s.v1.delta.signExtend 64
        port := some (.value s.v1.val) } } =
      (List.range n).map fun j =>
        some (.value (s.v1.val + s.v1.delta.signExtend 64 + BitVec.ofNat 64 j * s.v1.delta.signExtend 64)) := by
      cases n with
      | zero => rfl
      | succ n =>
        have hmore : s.v1.cnt ≠ 1#8 := fun h => by simp [h] at hn
        exact ih _ hwrap hf (if_neg hmore) (by simp only; bv_omega)
    rw [outcomes, nextCall_eq, hcall, List.range_succ_eq_map, List.map_cons, List.map_map]
    simp only [hrest]
    refine congrArg₂ _ (by simp) (List.map_congr_left fun j _ => ?_)
    simp [BitVec.ofNat_add, BitVec.add_mul, BitVec.add_assoc, BitVec.add_comm]

/-- Settles O33: the call of V1 is `V1Unit.next`, which ends cleanly exactly before the end, and again there. -/
theorem v1CleanEnd : Obligations.V1CleanEnd := by
  intro s hi
  have hbefore {t : State} (ht : nextUnit .v1 s = .next t) (hport : t.v1.port = some .eos) : s.v1.BeforeEnd := by
    cases hn : s.v1.next s.cfg with
    | next u =>
      rw [nextUnit_v1_of_next hn, Host.Outcome.next.injEq] at ht
      exact V1Unit.beforeEnd_of_port_eos hi.posLe hn (by simpa [← ht] using hport)
    | fault r => simp [nextUnit, nextV1_eq, hn] at ht
    | refused r => simp [nextUnit, nextV1_eq, hn] at ht
  refine ⟨⟨fun ⟨t, ht, hport⟩ => hbefore ht hport, fun h => ⟨_, nextUnit_v1_of_next (V1Unit.next_beforeEnd h), rfl⟩⟩,
    fun t ht hport => ?_⟩
  have h := hbefore ht hport
  rw [nextUnit_v1_of_next (V1Unit.next_beforeEnd h), Host.Outcome.next.injEq] at ht
  subst ht
  exact ⟨rfl, nextUnit_v1_of_next (V1Unit.next_afterEnd h)⟩

/-- Settles O34: a delivery is refused exactly where `Refuses` says, and the call that enters a run owes more than one
value. -/
theorem v1AddRefuseStops : Obligations.V1AddRefuseStops := by
  intro s hrefuse
  refine ⟨fun hf hm => ?_, fun n d bs hdiscard hbs h => ?_⟩
  · have hnext (h : ¬ (1 < s.v1.cnt.toNat ∧ LeavesSigned s.v1.val s.v1.delta)) :
        nextUnit .v1 s = .next { s with v1 := { s.v1 with
          mode := if s.v1.cnt = 1#8 then .idle else .deltaRun
          cnt := s.v1.cnt - 1#8
          val := s.v1.val + s.v1.delta.signExtend 64
          port := some (.value s.v1.val) } } := by
      refine nextUnit_v1_of_next ?_
      rw [V1Unit.next_deltaRun hf hm, V1Unit.deliverDelta_value fun hr => h hr.2, hm]
    refine ⟨⟨fun hfault => ?_, fun h => ?_⟩, hnext⟩
    · by_contra h
      simp [hnext h] at hfault
    · rw [nextUnit, nextV1_eq, V1Unit.next_deltaRun hf hm, V1Unit.deliverDelta_refused ⟨hrefuse, h⟩, State.withV1_fault]
  · obtain ⟨hd, hbase⟩ := V1Unit.takeVarint_base hdiscard hbs h
    refine ⟨fun hout => ?_, fun hin => ?_⟩
    · rw [exec_v1Delta, V1Unit.runDelta_refused hd hbase ⟨hrefuse, hout⟩, State.withV1_fault]
    · exact exec_v1Delta_of_next (V1Unit.runDelta_value hd hbase fun hr => hin hr.2)

/-! Errors. -/

/-- A literal whose varint stops in an error, in the call that enters a run and in one that finds literal-run mode. -/
theorem v1Literal_errors {s : State} {m : Nat} {k : ErrKind}
    (h : ∀ (mode : V1Mode) (cnt : BitVec 8), V1Unit.VarintStops s.cfg { s.v1 with cnt := cnt, mode := mode } m k) :
    (∀ n, n ≠ 0#7 → ∃ d, exec (.v1Literal n) s = .next { s with v1 := d } ∧ d.latch = ⟨some k, 0⟩ ∧
      d.port = some (.err k 0) ∧ d.src = s.v1.src.skip m) ∧
    (s.v1.latch.fault = none → s.v1.mode = .literalRun →
      ∃ d, nextUnit .v1 s = .next { s with v1 := d } ∧ d.latch = ⟨some k, 0⟩ ∧
        d.port = some (.err k 0) ∧ d.src = s.v1.src.skip m) := by
  refine ⟨fun n hn => ⟨_, exec_v1Literal_nonempty hn s, ?_⟩,
    fun hf hm => ⟨_, nextUnit_v1_of_next (V1Unit.next_literalRun hf hm), ?_⟩⟩
  · rw [V1Unit.runLiteral_stopped (h _ _)]
    exact ⟨rfl, rfl, rfl⟩
  · rw [V1Unit.deliverLiteral_stopped (h s.v1.mode s.v1.cnt)]
    exact ⟨rfl, rfl, rfl⟩

/-- A base whose varint stops in an error. -/
theorem v1Delta_errors {s : State} {d : Byte} {m : Nat} {k : ErrKind} (n : BitVec 7) (hd : s.v1.src.Offers [d])
    (h : V1Unit.VarintStops s.cfg { s.v1 with src := s.v1.src.skip 1 } m k) :
    ∃ d, exec (.v1Delta n) s = .next { s with v1 := d } ∧ d.latch = ⟨some k, 0⟩ ∧
      d.port = some (.err k 0) ∧ d.src = s.v1.src.skip (1 + m) :=
  ⟨_, exec_v1Delta_of_next (V1Unit.runDelta_stopped hd h), rfl, rfl, rfl⟩

/-- Settles O35: the byte that is denied is the delta byte, or the next group of a base or a literal. -/
theorem v1ErrorsLatch : Obligations.V1ErrorsLatch := by
  refine fun s k => ⟨fun (hk : s.v1.src.Denies k) => ?_, fun groups hlen hflag => ⟨fun h hk => ?_, fun delta h hk n => ?_⟩⟩
  · refine ⟨fun n => ⟨_, exec_v1Delta_of_next (V1Unit.runDelta_denied hk), rfl, rfl, rfl⟩, ?_⟩
    exact v1Literal_errors fun mode cnt => V1Unit.varintStops_denied (groups := []) (by simp) (by simp) (by simp) hk
  · exact v1Literal_errors fun mode cnt => V1Unit.varintStops_denied hlen hflag h.passes hk
  · obtain ⟨hd, hgroups⟩ := Source.offers_cons.mp h
    exact v1Delta_errors n hd (V1Unit.varintStops_denied hlen hflag hgroups.passes (by simpa [Source.Denies] using hk))

/-- Settles O36: ten continued groups stop the varint of a literal, and that of a base. -/
theorem v1MalformedVarintLatches : Obligations.V1MalformedVarintLatches := by
  refine fun s bs hlen hflag => ⟨fun h => ?_, fun delta h n => ?_⟩
  · exact v1Literal_errors fun mode cnt => V1Unit.varintStops_malformed hlen hflag h
  · obtain ⟨hd, hgroups⟩ := Source.offers_cons.mp h
    exact v1Delta_errors n hd (V1Unit.varintStops_malformed hlen hflag hgroups)

end Sys2Proof.Machine
end

section
/-!
The V1 stream under `wrap` (44_int_rle_v1.md rules R152 to R159): the run of each line, and by induction the lines one after
the other.
-/
namespace Sys2Proof.Machine

/-- V1 delivers the values `vs` and then `Eos` for ever. -/
abbrev V1Unit.Streams (c : Config) : V1Unit → List Word → Prop := Machine.Streams (V1Unit.next c) V1Unit.port .eos

namespace V1Unit
variable {c : Config} {u : V1Unit} {vs : List Word}

/-- V1 between two runs, its source at `src`, delivers `vs`. -/
def StreamsFrom (c : Config) (src : Source) (vs : List Word) : Prop :=
  ∀ d : V1Unit, d.latch.fault = none → d.mode = .idle → d.src = src → d.Streams c vs

/-- The values of `n` deliveries in delta-run mode from the value `val` on. -/
def deltaValues (val : Word) (delta : Byte) (n : Nat) : List Word :=
  (List.range n).map fun j => val + BitVec.ofNat 64 j * delta.signExtend 64

theorem deltaValues_succ (val : Word) (delta : Byte) (n : Nat) :
    deltaValues val delta (n + 1) = val :: deltaValues (val + delta.signExtend 64) delta n := by
  rw [deltaValues, List.range_succ_eq_map, List.map_cons, List.map_map, deltaValues]
  refine congrArg₂ _ (by simp) (List.map_congr_left fun j _ => ?_)
  simp [BitVec.ofNat_add, BitVec.add_mul, BitVec.add_assoc, BitVec.add_comm]

/-- The values left of a delta run, then what follows the run. -/
theorem streams_deltaRun (hwrap : c.v1Add = .wrap) (n : Nat) (hn : n < 255) (hf : u.latch.fault = none)
    (hm : u.mode = .deltaRun) (hc : u.cnt = BitVec.ofNat 8 (n + 1)) (hrest : StreamsFrom c u.src vs) :
    u.Streams c (deltaValues u.val u.delta (n + 1) ++ vs) := by
  induction n generalizing u with
  | zero =>
    refine .value ((next_deltaRun hf hm).trans (deliverDelta_value (not_refuses_of_wrap hwrap))) ?_ (hrest _ hf ?_ rfl)
    · simp
    · simp [hc]
  | succ n ih =>
    have hmore : u.cnt ≠ 1#8 := by simp [hc, ← BitVec.toNat_inj]; omega
    have hleft : u.cnt - 1#8 = BitVec.ofNat 8 (n + 1) := by rw [hc]; bv_omega
    rw [deltaValues_succ, List.cons_append]
    refine .value ((next_deltaRun hf hm).trans (deliverDelta_value (not_refuses_of_wrap hwrap))) rfl ?_
    exact ih (u := { u with mode := _, cnt := _, val := _, port := _ }) (by omega) hf (by simp [hmore, hm]) hleft hrest

/-- The literals left of a literal run, then what follows the run. The tenth group of a literal's shortest spelling has no
high bit, so that the values do not depend on `VARINT_G10_HIGH`. -/
theorem streams_literalRun (ws : List Word) (hne : ws ≠ []) (hlen : ws.length < 256) (hf : u.latch.fault = none)
    (hm : u.mode = .literalRun) (hc : u.cnt = BitVec.ofNat 8 ws.length) (hsrc : u.src.Offers (ws.flatMap varintBytes))
    (hrest : StreamsFrom c (u.src.skip (ws.flatMap varintBytes).length) vs) : u.Streams c (ws ++ vs) := by
  induction ws generalizing u with
  | nil => exact absurd rfl hne
  | cons w ws ih =>
    rw [List.flatMap_cons] at hsrc hrest
    obtain ⟨hw, hws⟩ := Source.offers_append.mp hsrc
    have hvarint := takeVarint_value (c := c) (.inr (varintBytes_tenthGroup w)) (varintBytes_isVarint w) hw
    rw [varintValue_varintBytes] at hvarint
    refine .value ((next_literalRun hf hm).trans (congrArg _ (deliverLiteral_of_varint hvarint))) rfl ?_
    rw [List.length_append, ← Source.skip_skip] at hrest
    cases ws with
    | nil => exact hrest _ hf (by simp [hc]) rfl
    | cons w' ws =>
      simp only [List.length_cons] at hc hlen ih
      have hmore : u.cnt ≠ 1#8 := by simp [hc, ← BitVec.toNat_inj]; omega
      have hleft : u.cnt - 1#8 = BitVec.ofNat 8 (ws.length + 1) := by rw [hc]; bv_omega
      exact ih (by simp) (by omega) hf (by simp [hmore, hm]) hleft hws hrest

/-- Idle V1 at a delta run calls as V1 that has entered the run. -/
theorem next_delta {b d : Byte} {base : Word} {src : Source} (hf : u.latch.fault = none) (hm : u.mode = .idle)
    (hb : b.toNat < 128) (hctl : u.src.Offers [b]) (hd : (u.src.skip 1).Offers [d])
    (h : ({ u with src := u.src.skip 2 }.varintDecode c).takeVarint =
      (.ok base, { u with src := src, vi := VarintRegs.start })) :
    u.next c = { u with
      mode := .deltaRun, cnt := BitVec.ofNat 8 (b.toNat + 3), val := base, delta := d, src := src,
      vi := VarintRegs.start }.next c := by
  have hn : (b.extractLsb' 0 7).toNat = b.toNat := by rw [toNat_controlField, Nat.mod_eq_of_lt hb]
  have hrun := runDelta_of_varint (u := { u with src := u.src.skip 1 }) (n := b.extractLsb' 0 7) hd (by simpa using h)
  rw [next_idle hf hm, fetch_delta hb hctl, hrun, repeatLength_eq_ofNat, hn]
  exact .symm (next_deltaRun hf rfl)

/-- Idle V1 at the control byte of a literal run of at least one varint calls as V1 that has entered the run. -/
theorem next_literal {b : Byte} (hf : u.latch.fault = none) (hm : u.mode = .idle) (hb : 128 < b.toNat)
    (h : u.src.Offers [b]) :
    u.next c = { u with
      mode := .literalRun, cnt := BitVec.ofNat 8 (b.toNat - 128), src := u.src.skip 1 }.next c := by
  rw [next_idle hf hm, fetch_literal hb h, runLiteral, literalLength_eq_ofNat, toNat_controlField_of_ge hb.le]
  exact .symm (next_literalRun hf rfl)

/-- A delta within a byte is the sign extension of the byte (30_encoding.md rule R79). -/
theorem signExtend_ofInt_delta {d : Int} (hlo : -128 ≤ d) (hhi : d ≤ 127) :
    (BitVec.ofInt 8 d).signExtend 64 = BitVec.ofInt 64 d := by
  rw [BitVec.signExtend, BitVec.toInt_ofInt, Int.bmod_eq_of_le (by omega) (by omega)]

theorem deltaValues_eq_values {n : Nat} {d : Int} {base : Word} (hwf : (V1Line.delta n d base).wellFormed = true) :
    deltaValues base (BitVec.ofInt 8 d) n = (V1Line.delta n d base).values := by
  obtain ⟨⟨⟨-, -⟩, hlo⟩, hhi⟩ : ((3 ≤ n ∧ n ≤ 130) ∧ -128 ≤ d) ∧ d ≤ 127 := by simpa [V1Line.wellFormed] using hwf
  rw [deltaValues, V1Line.values, bind_pure_comp, List.map_eq_map, List.map_map]
  refine List.map_congr_left fun j _ => ?_
  rw [signExtend_ofInt_delta hlo hhi, Function.comp_apply, BitVec.ofInt_mul, BitVec.ofInt_natCast]

theorem streamsFrom_delta (hwrap : c.v1Add = .wrap) {n : Nat} {d : Int} {base : Word} {src : Source}
    (hwf : (V1Line.delta n d base).wellFormed = true) (hsrc : src.Offers (V1Line.delta n d base).bytes)
    (hrest : StreamsFrom c (src.skip (V1Line.delta n d base).bytes.length) vs) :
    StreamsFrom c src ((V1Line.delta n d base).values ++ vs) := by
  rintro u hf hm rfl
  rw [← deltaValues_eq_values hwf]
  obtain ⟨⟨⟨h3, h130⟩, -⟩, -⟩ : ((3 ≤ n ∧ n ≤ 130) ∧ -128 ≤ d) ∧ d ≤ 127 := by simpa [V1Line.wellFormed] using hwf
  have hctl : (BitVec.ofNat 8 (n - 3)).toNat = n - 3 := by simp; omega
  have hn : n - 3 + 3 = n := by omega
  obtain ⟨hb, hops⟩ := Source.offers_cons.mp hsrc
  obtain ⟨hd, hbase⟩ := Source.offers_cons.mp hops
  have hvarint := takeVarint_value (c := c) (u := { u with src := u.src.skip 2 }) (.inr (varintBytes_tenthGroup base))
    (varintBytes_isVarint base) (by simpa using hbase)
  rw [varintValue_varintBytes] at hvarint
  refine .of_call_eq (next_delta hf hm (by omega) hb hd hvarint) ?_
  rw [hctl, hn]
  obtain ⟨m, rfl⟩ : ∃ m, n = m + 1 := ⟨n - 1, by omega⟩
  refine streams_deltaRun (u := { u with mode := _, cnt := _, val := base, delta := _, src := _, vi := _ }) hwrap m
    (by omega) hf rfl rfl ?_
  have hbytes : (V1Line.delta (m + 1) d base).bytes.length = 2 + (varintBytes base).length := by
    simp [V1Line.bytes, Nat.add_comm 2]
  rwa [hbytes, ← Source.skip_skip] at hrest

theorem streamsFrom_lit {ws : List Word} {src : Source} (hwf : (V1Line.lit ws).wellFormed = true)
    (hsrc : src.Offers (V1Line.lit ws).bytes) (hrest : StreamsFrom c (src.skip (V1Line.lit ws).bytes.length) vs) :
    StreamsFrom c src (ws ++ vs) := by
  rintro u hf hm rfl
  have hlen : ws.length ≤ 127 := by simpa [V1Line.wellFormed] using hwf
  have hctl : (BitVec.ofNat 8 (128 + ws.length)).toNat = 128 + ws.length := by simp; omega
  obtain ⟨hb, hws⟩ := Source.offers_cons.mp hsrc
  rw [V1Line.bytes, List.length_cons, Nat.add_comm, ← Source.skip_skip] at hrest
  by_cases hne : ws = []
  · subst hne
    have hsame : u.next c = { u with src := u.src.skip 1 }.next c := by
      rw [next_idle hf hm, fetch_emptyRun hb]
      exact .symm (next_idle hf hm)
    exact .of_call_eq hsame (hrest _ hf hm rfl)
  · have hpos : 0 < ws.length := List.length_pos_iff.mpr hne
    refine .of_call_eq (next_literal hf hm (by omega) hb) ?_
    rw [hctl, Nat.add_sub_cancel_left]
    exact streams_literalRun ws hne (by omega) hf rfl rfl hws hrest

/-- At the end of its source idle V1 answers `Eos` for ever. -/
theorem streamsFrom_atEnd {src : Source} (h : src.AtEnd) : StreamsFrom c src [] := by
  rintro u hf hm rfl
  have hu : u.BeforeEnd := ⟨hf, hm, h.beforeEnd⟩
  exact .ended (next_beforeEnd hu) rfl (next_afterEnd hu)

theorem streamsFrom_lines (hwrap : c.v1Add = .wrap) (lines : List V1Line) (hwf : ∀ l ∈ lines, l.wellFormed = true)
    {src : Source} (hsrc : src.Offers (lines.flatMap V1Line.bytes))
    (hend : (src.skip (lines.flatMap V1Line.bytes).length).AtEnd) :
    StreamsFrom c src (lines.flatMap V1Line.values) := by
  induction lines generalizing src with
  | nil => exact streamsFrom_atEnd hend
  | cons l lines ih =>
    rw [List.flatMap_cons] at hsrc hend ⊢
    obtain ⟨hl, hlines⟩ := Source.offers_append.mp hsrc
    have hrest := ih (fun l' h => hwf l' (List.mem_cons_of_mem _ h)) hlines (by simpa using hend)
    have hwfl := hwf l List.mem_cons_self
    cases l with
    | delta n d base => exact streamsFrom_delta hwrap hwfl hl hrest
    | lit ws => exact streamsFrom_lit (ws := ws) hwfl hl hrest

end V1Unit

/-- Settles O37: V1 delivers what the lines stand for, and the machine's outcomes are V1's. -/
theorem v1StreamRoundTrip : Obligations.V1StreamRoundTrip := by
  intro lines s t k hwrap hwf ht
  obtain rfl : { s with v1 := V1Unit.resetOn (Source.bind (lines.flatMap V1Line.bytes) none) s.v1.fresh, cmds := [] }
      = t := by simpa [step, command, resetUnit, legalFail, V1Unit.reset] using ht
  have hstreams := V1Unit.streamsFrom_lines hwrap lines hwf (Source.offers_bind _) (Source.atEnd_bind _)
    (V1Unit.resetOn _ s.v1.fresh) rfl rfl rfl
  refine outcomes_eq_of_streams (Rel := fun t u => t.cfg = s.cfg ∧ t.v1 = u) ?_ hstreams k ⟨rfl, rfl⟩
  rintro r _ u ⟨hcfg, rfl⟩ h
  rw [← hcfg] at h
  exact ⟨_, nextUnit_v1_of_next (s := { r with cmds := [] }) h, rfl, hcfg, rfl⟩

end Sys2Proof.Machine
end

section
/-!
Packed bits (20_memory.md rule R50, 45_int_rle_v2.md rules R180 and R189): a number from its binary digits, the bits that
extraction and a big-endian byte window give, and the bits that packing puts down.
-/
namespace Sys2Proof.Machine

/-- The number whose `n` binary digits are `f 0` to `f (n − 1)`, most significant first. -/
def ofDigits (f : Nat → Bool) : Nat → Nat
  | 0 => 0
  | n + 1 => Nat.bit (f n) (ofDigits f n)

theorem testBit_ofDigits (f : Nat → Bool) (n k : Nat) :
    (ofDigits f n).testBit k = (decide (k < n) && f (n - 1 - k)) := by
  induction n generalizing k with
  | zero => simp [ofDigits]
  | succ n ih =>
    cases k with
    | zero => simp [ofDigits]
    | succ k =>
      have hk : n + 1 - 1 - (k + 1) = n - 1 - k := by omega
      rw [ofDigits, Nat.testBit_bit_succ, ih, hk]
      simp

theorem sum_digits (f : Nat → Bool) (n : Nat) :
    ((List.range n).map fun j => (f j).toNat <<< (n - 1 - j)).sum = ofDigits f n := by
  induction n with
  | zero => rfl
  | succ n ih =>
    have hshift : (List.range n).map (fun j => (f j).toNat <<< (n + 1 - 1 - j)) =
        (List.range n).map (fun j => 2 * ((f j).toNat <<< (n - 1 - j))) := by
      refine List.map_congr_left fun j hj => ?_
      have hj : n + 1 - 1 - j = (n - 1 - j) + 1 := by have := List.mem_range.mp hj; omega
      rw [hj, Nat.shiftLeft_succ]
    rw [List.range_succ, List.map_append, List.sum_append, hshift, List.sum_map_mul_left, ih, ofDigits, Nat.bit_val]
    simp

/-! Extraction. -/

theorem extractNat_eq (buf : List Byte) (W i : Nat) :
    extractNat buf W i = ofDigits (fun j => payloadBit buf (i * W + j)) W :=
  sum_digits (fun j => payloadBit buf (i * W + j)) W

/-- The value that fits `W` bits and has the payload's bits is the one extracted. -/
theorem extract_eq {buf : List Byte} {W i : Nat} {v : Word} (hW : W ≤ 64) (hv : v.toNat < 2 ^ W)
    (hbits : ∀ j, j < W → v.getLsbD (W - 1 - j) = payloadBit buf (i * W + j)) : extract buf W i = v := by
  have hnum : extractNat buf W i = v.toNat := by
    refine Nat.eq_of_testBit_eq fun k => ?_
    rw [extractNat_eq, testBit_ofDigits]
    by_cases hk : k < W
    · have hj : W - 1 - (W - 1 - k) = k := by omega
      have := hbits (W - 1 - k) (by omega)
      rw [hj] at this
      rw [BitVec.testBit_toNat, this]
      simp [hk]
    · simp [hk, Nat.testBit_lt_two_pow (hv.trans_le (Nat.pow_le_pow_right (by decide) (Nat.le_of_not_lt hk)))]
  rw [extract, hnum, BitVec.ofNat_toNat, BitVec.setWidth_eq]

theorem extractAll_eq {buf : List Byte} {W L : Nat} {vals : List Word} (hW : W ≤ 64) (hlen : vals.length = L)
    (h : ∀ i, i < L → (vals.getD i 0).toNat < 2 ^ W ∧
      ∀ j, j < W → (vals.getD i 0).getLsbD (W - 1 - j) = payloadBit buf (i * W + j)) :
    extractAll buf W L = vals := by
  subst hlen
  refine List.ext_getElem (by simp [extractAll]) fun i hi _ => ?_
  have hi : i < vals.length := by simpa [extractAll] using hi
  obtain ⟨hv, hbits⟩ := h i hi
  have hget : vals.getD i 0 = vals[i] := by simp [hi]
  rw [hget] at hv hbits
  simpa [extractAll] using extract_eq hW hv hbits

/-! The big-endian byte window. -/

theorem bigEndian_concat (bs : List Byte) (b : Byte) : bigEndian (bs ++ [b]) = 2 ^ 8 * bigEndian bs + b.toNat := by
  simp [bigEndian]

theorem payloadBit_append_left {bs cs : List Byte} {k : Nat} (hk : k < 8 * bs.length) :
    payloadBit (bs ++ cs) k = payloadBit bs k := by
  have hlt : k / 8 < bs.length := by omega
  rw [payloadBit, payloadBit, List.getD_append _ _ _ _ hlt]

/-- The bits of the big-endian integer, from the top, are those of the payload, from its start. -/
theorem testBit_bigEndian (bs : List Byte) (k : Nat) :
    (bigEndian bs).testBit k = (decide (k < 8 * bs.length) && payloadBit bs (8 * bs.length - 1 - k)) := by
  induction bs using List.reverseRecOn generalizing k with
  | nil => simp [bigEndian]
  | append_singleton bs b ih =>
    rw [bigEndian_concat, Nat.testBit_two_pow_mul_add _ b.isLt, List.length_append, List.length_singleton]
    by_cases hk : k < 8
    · have hbyte : (8 * (bs.length + 1) - 1 - k) / 8 = bs.length := by omega
      have hbit : 7 - (8 * (bs.length + 1) - 1 - k) % 8 = k := by omega
      have hlt : k < 8 * (bs.length + 1) := by omega
      simp [hk, hlt, payloadBit, hbyte, hbit, BitVec.testBit_toNat]
    · have hpos : 8 * (bs.length + 1) - 1 - k = 8 * bs.length - 1 - (k - 8) := by omega
      rw [if_neg hk, ih, hpos]
      by_cases hlt : k - 8 < 8 * bs.length
      · have hlt' : k < 8 * (bs.length + 1) := by omega
        rw [payloadBit_append_left (by omega)]
        simp [hlt, hlt']
      · have hlt' : ¬ k < 8 * (bs.length + 1) := by omega
        simp [hlt, hlt']

/-- A window of a payload has its bits. -/
theorem payloadBit_window (buf : List Byte) (a n : Nat) {k : Nat} (hk : k < 8 * n) :
    payloadBit ((buf.drop a).take n) k = payloadBit buf (8 * a + k) := by
  have hbyte : (8 * a + k) / 8 = a + k / 8 := by omega
  have hbit : (8 * a + k) % 8 = k % 8 := by omega
  have hlt : k / 8 < n := by omega
  simp [payloadBit, hbyte, hbit, hlt]

/-- The digits of a payload from place `lo` on, cut out of the window of `n` bytes from byte `a` on. -/
theorem ofDigits_eq_window {buf : List Byte} {W lo a n : Nat} (hlo : 8 * a ≤ lo) (hhi : lo + W ≤ 8 * (a + n))
    (hbuf : a + n ≤ buf.length) :
    ofDigits (fun j => payloadBit buf (lo + j)) W =
      (bigEndian ((buf.drop a).take n) >>> (8 * (a + n) - (lo + W))) % 2 ^ W := by
  have hwindow : ((buf.drop a).take n).length = n := by simp; omega
  refine Nat.eq_of_testBit_eq fun k => ?_
  rw [testBit_ofDigits, Nat.testBit_mod_two_pow, Nat.testBit_shiftRight, testBit_bigEndian, hwindow]
  by_cases hk : k < W
  · have hin : 8 * (a + n) - (lo + W) + k < 8 * n := by omega
    have hpos : 8 * a + (8 * n - 1 - (8 * (a + n) - (lo + W) + k)) = lo + (W - 1 - k) := by omega
    rw [payloadBit_window buf a n (by omega), hpos]
    simp [hk, hin]
  · simp [hk]

/-- Settles O42: the window begins at the byte of the value's first bit and ends at the byte of its last one. -/
theorem extractionByByteWindow : Obligations.ExtractionByByteWindow := by
  intro buf W i hW hlen
  obtain ⟨n, hn⟩ : ∃ n, (i * W + W - 1) / 8 + 1 = i * W / 8 + n := Nat.exists_eq_add_of_le (by omega)
  rw [extractNat_eq, hn, Nat.add_sub_cancel_left]
  exact ofDigits_eq_window (by omega) (by omega) (by omega)

/-! Packing. -/

theorem getLsbD_ofBoolListBE (bs : List Bool) (k : Nat) :
    (BitVec.ofBoolListBE bs).getLsbD k = (decide (k < bs.length) && bs.getD (bs.length - 1 - k) false) := by
  induction bs with
  | nil => simp [BitVec.ofBoolListBE]
  | cons b bs ih =>
    rw [BitVec.ofBoolListBE, BitVec.getLsbD_cons, ih, List.length_cons]
    obtain hlt | rfl | hgt := Nat.lt_trichotomy k bs.length
    · have hpos : bs.length + 1 - 1 - k = (bs.length - 1 - k) + 1 := by omega
      have hlt' : k < bs.length + 1 := by omega
      rw [hpos, List.getD_cons_succ]
      simp [hlt, hlt', hlt.ne]
    · simp
    · have hlt' : ¬ k < bs.length + 1 := by omega
      simp [hgt.not_gt, hlt', hgt.ne']

theorem getLsbD_packByte (W : Nat) (vs : List Word) (m : Nat) {j : Nat} (hj : j < 8) :
    (packByte W vs m).getLsbD (7 - j) = packBit W vs (8 * m + j) := by
  have hpos : 7 - (7 - j) = j := by omega
  have hlt : 7 - j < 8 := by omega
  refine (getLsbD_ofBoolListBE ((List.range 8).map fun j => packBit W vs (8 * m + j)) (7 - j)).trans ?_
  simp [hpos, hlt, hj]

/-- The bits of a packed payload are the fields of the values, and then zeros (30_encoding.md rule R89). -/
theorem payloadBit_packBytes (W : Nat) (vs : List Word) {k : Nat} (hk : k < 8 * payloadBytes W vs.length) :
    payloadBit (packBytes W vs) k = packBit W vs k := by
  have hbyte : k / 8 < (W * vs.length + 7) / 8 := by unfold payloadBytes at hk; omega
  have hbit : k % 8 < 8 := Nat.mod_lt _ (by decide)
  rw [payloadBit, packBytes, List.getD_eq_getElem _ _ (by simpa using hbyte), List.getElem_map, List.getElem_range,
    getLsbD_packByte W vs _ hbit, Nat.div_add_mod]

theorem length_packBytes (W : Nat) (vs : List Word) : (packBytes W vs).length = payloadBytes W vs.length := by
  simp [packBytes, payloadBytes]

/-- Unpacking what was packed gives the values back. -/
theorem extractAll_packBytes {W : Nat} {vs : List Word} (hW : W ≤ 64) (hvs : ∀ v ∈ vs, v.toNat < 2 ^ W) :
    extractAll (packBytes W vs) W vs.length = vs := by
  refine extractAll_eq hW rfl fun i hi => ⟨?_, fun j hj => ?_⟩
  · rw [List.getD_eq_getElem _ _ hi]
    exact hvs _ (List.getElem_mem hi)
  · have hlt : i * W + j < W * vs.length := by
      have : (i + 1) * W ≤ vs.length * W := Nat.mul_le_mul_right W hi
      rw [Nat.add_mul, Nat.one_mul] at this
      rw [Nat.mul_comm W]
      omega
    have hcover := (payloadBytes_covers_least W vs.length).1
    have hdiv : (i * W + j) / W = i := by
      rw [Nat.mul_comm, Nat.mul_add_div (by omega), Nat.div_eq_of_lt hj, Nat.add_zero]
    have hmod : (i * W + j) % W = j := by rw [Nat.mul_comm, Nat.mul_add_mod, Nat.mod_eq_of_lt hj]
    rw [payloadBit_packBytes W vs (by omega), packBit, hdiv, hmod]
    simp [hlt]

end Sys2Proof.Machine
end

section
/-!
V2 on its own (45_int_rle_v2.md rules R170 to R187): a call changes V2 alone, as a function of it and the configuration, and
ends in one of four ways.
-/
namespace Sys2Proof.Machine

/-- The next `n` bytes are there, or the source denies one of them. -/
theorem Source.exists_payload (s : Source) (n : Nat) :
    (∃ bs, bs.length = n ∧ s.Passes bs) ∨
    (∃ bs k, bs.length < n ∧ s.Passes bs ∧ (k = .ioFailure ∨ k = .truncation) ∧
      readMore (s.skip bs.length) = .error (.raise k 0)) := by
  induction n generalizing s with
  | zero => exact .inl ⟨[], rfl, by simp⟩
  | succ n ih =>
    obtain ⟨-, h⟩ | ⟨-, -, h⟩ | ⟨hf, hl, -⟩ := readMore_cases s
    · exact .inr ⟨[], .ioFailure, by simp, by simp, .inl rfl, h⟩
    · exact .inr ⟨[], .truncation, by simp, by simp, .inr rfl, h⟩
    · have hb := Source.offers_read hf hl
      obtain ⟨bs, hlen, hbs⟩ | ⟨bs, k, hlen, hbs, hk, h⟩ := ih (s.skip 1)
      · exact .inl ⟨_ :: bs, by simp [hlen], Source.passes_cons.mpr ⟨hb, hbs⟩⟩
      · exact .inr ⟨_ :: bs, k, by simpa using hlen, Source.passes_cons.mpr ⟨hb, hbs⟩, hk,
          by simpa [Nat.add_comm 1] using h⟩

namespace V2Unit

/-- The rest of a call whose header byte is read: tag 01 is a Direct run (45_int_rle_v2.md rules R172 and R176). -/
def begin (c : Config) (b : Byte) (u : V2Unit) : V2Unit :=
  if b.toNat / 64 = 1 then u.runDirect c (b.extractLsb' 1 5) (b.extractLsb' 0 1) else u.unsupported b

/-- A call that finds the queue empty. -/
def fetch (c : Config) (u : V2Unit) : V2Unit :=
  match readFirst u.src with
  | .error st => u.stop st
  | .ok (b, src) => { u with src := src }.begin c b

/-- A call (45_int_rle_v2.md rule R170). -/
def next (c : Config) (u : V2Unit) : V2Unit :=
  match u.latch.fault with
  | some k => u.answer (.err k u.latch.finfo)
  | none => if u.qcount = 0#10 then u.fetch c else u.pop

end V2Unit

/-! These functions are what the machine does. -/

theorem exec_v2Direct (w : BitVec 5) (l8 : BitVec 1) (s : State) :
    exec (.v2Direct w l8) s = .next { s with v2 := s.v2.runDirect s.cfg w l8 } := rfl

theorem exec_v2ShortRepeat (x : BitVec 6) (s : State) :
    exec (.v2ShortRepeat x) s = .next { s with v2 := s.v2.unsupported (encodeLead (.v2ShortRepeat x)) } := rfl

theorem exec_v2PatchedBase (x : BitVec 6) (s : State) :
    exec (.v2PatchedBase x) s = .next { s with v2 := s.v2.unsupported (encodeLead (.v2PatchedBase x)) } := rfl

theorem exec_v2Delta (x : BitVec 6) (s : State) :
    exec (.v2Delta x) s = .next { s with v2 := s.v2.unsupported (encodeLead (.v2Delta x)) } := rfl

theorem directTag_iff (b : Byte) : b.toNat / 64 = 1 ↔ b[7] = false ∧ b[6] = true := by
  revert b
  decide

theorem exec_decodeLead_v2 (b : Byte) (s : State) :
    exec (decodeLead .v2 b) s = .next { s with v2 := s.v2.begin s.cfg b } := by
  have hlead := encodeLead_decodeLead .v2 b
  have htag := directTag_iff b
  cases h7 : b[7] <;> cases h6 : b[6] <;> simp only [h7, h6, decodeLead] at hlead htag ⊢
  · rw [exec_v2ShortRepeat, hlead, V2Unit.begin, if_neg (by simp [htag])]
  · rw [exec_v2Direct, V2Unit.begin, if_pos (by simp [htag])]
  · rw [exec_v2PatchedBase, hlead, V2Unit.begin, if_neg (by simp [htag])]
  · rw [exec_v2Delta, hlead, V2Unit.begin, if_neg (by simp [htag])]

theorem fetchV2_eq (s : State) : fetchV2 s = .next { s with v2 := s.v2.fetch s.cfg } := by
  cases h : readFirst s.v2.src with
  | error st => simp only [fetchV2, V2Unit.fetch, h]
  | ok r => simp only [fetchV2, V2Unit.fetch, h, exec_decodeLead_v2]

theorem nextV2_eq (s : State) : nextV2 s = .next { s with v2 := s.v2.next s.cfg } := by
  cases hf : s.v2.latch.fault with
  | some k => simp only [nextV2, V2Unit.next, hf]
  | none => by_cases hq : s.v2.qcount = 0#10 <;> simp [nextV2, V2Unit.next, hf, hq, fetchV2_eq]

namespace V2Unit
variable {c : Config} {u : V2Unit}

theorem next_faulted {k : ErrKind} (h : u.latch.fault = some k) : u.next c = u.answer (.err k u.latch.finfo) := by
  simp only [next, h]

theorem next_empty (hf : u.latch.fault = none) (hq : u.qcount = 0#10) : u.next c = u.fetch c := by
  simp only [next, hf, if_pos hq]

theorem next_staged (hf : u.latch.fault = none) (hq : u.qcount ≠ 0#10) : u.next c = u.pop := by
  simp only [next, hf, if_neg hq]

/-! What a fetch finds. -/

theorem fetch_unsupported {b : Byte} (hb : b.toNat / 64 ≠ 1) (h : u.src.Offers [b]) :
    u.fetch c = { u with src := u.src.skip 1 }.unsupported b := by
  simp only [fetch, readFirst_offers h, begin, if_neg hb]

theorem fetch_direct {b : Byte} (hb : b.toNat / 64 = 1) (h : u.src.Offers [b]) :
    u.fetch c = { u with src := u.src.skip 1 }.runDirect c (b.extractLsb' 1 5) (b.extractLsb' 0 1) := by
  simp only [fetch, readFirst_offers h, begin, if_pos hb]

theorem fetch_atEnd (hf : ¬ u.src.AtFailure) (hl : u.src.len ≤ u.src.pos) : u.fetch c = u.answer .eos := by
  obtain ⟨h, -⟩ | ⟨-, -, h⟩ | ⟨-, h, -⟩ := readFirst_cases u.src
  · exact absurd h hf
  · simp only [fetch, h, stop_eos]
  · omega

theorem fetch_atFailure (h : u.src.AtFailure) : u.fetch c = u.raise .ioFailure 0 := by
  simp only [fetch, readFirst_atFailure h, stop_raise]

/-! A Direct run. -/

theorem readPayload_passes {bs : List Byte} (h : u.src.Passes bs) :
    readPayload bs.length u = (none, { u with src := u.src.skip bs.length, buf := u.buf ++ bs }) := by
  obtain rfl | h := h
  · simp [readPayload]
  · exact readPayload_offers bs u h

/-- A payload cut short after the bytes `bs`. -/
theorem readPayload_stopped {bs : List Byte} {n : Nat} {st : Stop} (hn : bs.length < n) (h : u.src.Passes bs)
    (hst : readMore (u.src.skip bs.length) = .error st) :
    readPayload n u = (some st, { u with src := u.src.skip bs.length, buf := u.buf ++ bs }) := by
  obtain ⟨n, rfl⟩ : ∃ m, n = m + 1 := ⟨n - 1, by omega⟩
  induction bs generalizing n u with
  | nil =>
    have hst : readMore u.src = .error st := hst
    simp [readPayload, hst]
  | cons b bs ih =>
    obtain ⟨n, rfl⟩ : ∃ m, n = m + 1 := ⟨n - 1, by simp at hn; omega⟩
    obtain ⟨hb, hbs⟩ := Source.passes_cons.mp h
    have hrest := ih (u := { u with src := u.src.skip 1, buf := u.buf ++ [b] }) hbs
      (by simpa [Nat.add_comm 1] using hst) n (by simpa using hn)
    rw [readPayload, readMore_offers hb]
    simpa [Nat.add_comm 1] using hrest

/-- What the queue holds after a Direct run whose payload is `payload`, and what the call delivers. -/
theorem runPayload_value {W L : Nat} {payload : List Byte} {vals : List Word} (hlen : payload.length = payloadBytes W L)
    (h : u.src.Passes payload) (hvals : extractAll payload W L = vals) :
    u.runPayload W L = { u with
      q := vals ++ u.q.drop vals.length
      qhead := 1
      qcount := BitVec.ofNat 10 vals.length - 1#10
      buf := []
      src := u.src.skip payload.length
      port := some (.value ((vals ++ u.q.drop vals.length).getD 0 0)) } := by
  subst hvals
  simp [runPayload, ← hlen, readPayload_passes (u := { u with buf := [] }) h, unpackAndPop, pop, stage]

theorem runPayload_stopped {W L : Nat} {bs : List Byte} {k : ErrKind} (hlen : bs.length < payloadBytes W L)
    (h : u.src.Passes bs) (hk : readMore (u.src.skip bs.length) = .error (.raise k 0)) :
    u.runPayload W L = { u with src := u.src.skip bs.length }.raise k 0 := by
  simp [runPayload, readPayload_stopped (u := { u with buf := [] }) hlen h hk, raise]

theorem runDirect_offers (c : Config) {w : BitVec 5} {l8 : BitVec 1} {b : Byte} (h : u.src.Offers [b]) :
    u.runDirect c w l8 = { u with src := u.src.skip 1 }.runPayload (directWidth c w) (directLength l8 b) := by
  simp only [runDirect, readMore_offers h]

theorem runDirect_denied (c : Config) {w : BitVec 5} {l8 : BitVec 1} {k : ErrKind} (h : u.src.Denies k) :
    u.runDirect c w l8 = u.raise k 0 := by
  simp only [runDirect, readMore_denied h, stop_raise]

/-! The ways a call ends. -/

/-- The bounds of the queue (10_state.md rules R22 and R23; assumption 15). -/
def QueueBounds (q : List Word) (qhead qcount : BitVec 10) : Prop :=
  q.length = Config.queueDepth ∧ qcount.toNat ≤ 511 ∧ qhead.toNat + qcount.toNat ≤ 512

/-- How an operation `op` that reads ends at the unit `u`: in an error, or in a value, for which it needed of its source no
more than the bytes it read. -/
inductive RunEnds (op : V2Unit → V2Unit) (u : V2Unit) : Prop where
  | raised (bs : List Byte) (k : ErrKind) (info : Byte) (kind : k ≠ .malformedVarint)
      (finfo : k ≠ .unsupportedEncoding → info = 0#8) (passes : u.src.Passes bs)
      (eq : op u = { u with src := u.src.skip bs.length }.raise k info)
  | value (bs : List Byte) (q : List Word) (qhead qcount : BitVec 10) (v : Word)
      (bounds : u.q.length = Config.queueDepth → QueueBounds q qhead qcount) (passes : u.src.Passes bs)
      (eq : ∀ src, src.Passes bs → op { u with src := src } =
        { u with q := q, qhead := qhead, qcount := qcount, buf := [], src := src.skip bs.length, port := some (.value v) })

theorem RunEnds.after {op op' : V2Unit → V2Unit} (pre : List Byte) (hpre : u.src.Passes pre)
    (hop : ∀ src, src.Passes pre → op { u with src := src } = op' { u with src := src.skip pre.length })
    (h : RunEnds op' { u with src := u.src.skip pre.length }) : RunEnds op u := by
  cases h with
  | raised bs k info kind finfo passes eq =>
    refine .raised (pre ++ bs) k info kind finfo (Source.passes_append.mpr ⟨hpre, passes⟩) ?_
    simpa using (hop u.src hpre).trans eq
  | value bs q qhead qcount v bounds passes eq =>
    refine .value (pre ++ bs) q qhead qcount v bounds (Source.passes_append.mpr ⟨hpre, passes⟩) fun src hsrc => ?_
    obtain ⟨hpre', hbs⟩ := Source.passes_append.mp hsrc
    simpa using (hop src hpre').trans (eq (src.skip pre.length) hbs)

theorem runDirect_ends (c : Config) (w : BitVec 5) (l8 : BitVec 1) (u : V2Unit) : RunEnds (runDirect c w l8) u := by
  obtain ⟨-, h⟩ | ⟨-, -, h⟩ | ⟨hf, hl, -⟩ := readMore_cases u.src
  · exact .raised [] .ioFailure 0 (by decide) (fun _ => rfl) (by simp) (by simp [runDirect, h])
  · exact .raised [] .truncation 0 (by decide) (fun _ => rfl) (by simp) (by simp [runDirect, h])
  · have hb := Source.offers_read hf hl
    generalize u.src.mem.read u.src.pos = b at hb
    refine RunEnds.after (op' := runPayload (directWidth c w) (directLength l8 b)) [b] hb.passes
      (fun src hsrc => runDirect_offers c (hsrc.resolve_left (by simp))) ?_
    obtain ⟨bs, hlen, hbs⟩ | ⟨bs, k, hlen, hbs, hk, hstop⟩ :=
      (u.src.skip 1).exists_payload (payloadBytes (directWidth c w) (directLength l8 b))
    · obtain ⟨vals, hvals⟩ : ∃ vals, extractAll bs (directWidth c w) (directLength l8 b) = vals := ⟨_, rfl⟩
      obtain ⟨h1, h512⟩ := directLength_bounds l8 b
      have hL : vals.length = directLength l8 b := by simp [← hvals, extractAll]
      have hq : (BitVec.ofNat 10 vals.length - 1#10).toNat = vals.length - 1 := by
        rw [hL]
        bv_omega
      refine .value bs (vals ++ u.q.drop vals.length) 1 (BitVec.ofNat 10 vals.length - 1#10)
        ((vals ++ u.q.drop vals.length).getD 0 0) (fun h => ⟨?_, ?_, ?_⟩) hbs fun src hsrc =>
        runPayload_value (u := { u with src := src }) hlen hsrc hvals
      · rw [List.length_append, List.length_drop, h, Config.queueDepth]
        omega
      · rw [hq]
        omega
      · rw [hq]
        simp
        omega
    · obtain rfl | rfl := hk
      · exact .raised bs _ 0 (by decide) (fun _ => rfl) hbs (runPayload_stopped hlen hbs hstop)
      · exact .raised bs _ 0 (by decide) (fun _ => rfl) hbs (runPayload_stopped hlen hbs hstop)

/-- How a fetch ends: cleanly, at the end of the source, or as an encoding does. -/
theorem fetch_ends (c : Config) (u : V2Unit) :
    (¬ u.src.AtFailure ∧ u.src.len ≤ u.src.pos ∧ u.fetch c = u.answer .eos) ∨ RunEnds (fetch c) u := by
  obtain ⟨hf, -⟩ | ⟨hf, hl, -⟩ | ⟨hf, hl, -⟩ := readFirst_cases u.src
  · exact .inr (.raised [] .ioFailure 0 (by decide) (fun _ => rfl) (by simp) (fetch_atFailure hf))
  · exact .inl ⟨hf, hl, fetch_atEnd hf hl⟩
  · have hb := Source.offers_read hf hl
    generalize u.src.mem.read u.src.pos = b at hb
    by_cases htag : b.toNat / 64 = 1
    · exact .inr ((runDirect_ends c (b.extractLsb' 1 5) (b.extractLsb' 0 1) _).after [b] hb.passes
        fun src hsrc => fetch_direct htag (hsrc.resolve_left (by simp)))
    · exact .inr (.raised [b] .unsupportedEncoding b (by decide) (fun h => absurd rfl h) hb.passes
        (fetch_unsupported htag hb))

end V2Unit

end Sys2Proof.Machine
end

section
/-!
The statements about one call of V2 (45_int_rle_v2.md rules R170 to R187).
-/
namespace Sys2Proof.Machine

theorem nextUnit_v2_eq (s : State) : nextUnit .v2 s = .next { s with v2 := s.v2.next s.cfg } := nextV2_eq s

/-- The header byte of each unsupported row as a number. -/
theorem unsupportedHeaders (x : BitVec 6) :
    encodeLead (.v2ShortRepeat x) = BitVec.ofNat 8 x.toNat ∧
    encodeLead (.v2PatchedBase x) = BitVec.ofNat 8 (0x80 + x.toNat) ∧
    encodeLead (.v2Delta x) = BitVec.ofNat 8 (0xC0 + x.toNat) := by
  revert x
  decide

/-- Settles O38: the three instructions latch their header byte, and a fetch of a header with one of the tags does. -/
theorem v2UnsupportedTagsRaise : Obligations.V2UnsupportedTagsRaise := by
  refine ⟨fun x s => ?_, fun x s => ?_, fun x s => ?_, fun h s htag hf hq ho => ?_⟩
  · rw [exec_v2ShortRepeat, (unsupportedHeaders x).1]
    rfl
  · rw [exec_v2PatchedBase, (unsupportedHeaders x).2.1]
    rfl
  · rw [exec_v2Delta, (unsupportedHeaders x).2.2]
    rfl
  · rw [nextUnit_v2_eq, V2Unit.next_empty hf hq, V2Unit.fetch_unsupported htag ho]
    rfl

/-- Settles O39: the values with the payload's bits are the ones extracted, and the call stages them and pops the first. -/
theorem v2DirectStagesAndDelivers : Obligations.V2DirectStagesAndDelivers := by
  rintro w l8 s b1 payload W L vals hwf rfl rfl hlen ho hvals hbits
  have hL : directLength l8 b1 = l8.toNat * 256 + b1.toNat + 1 := directLength_eq l8 b1
  have hextract := extractAll_eq (directWidth_bounds hwf w).2 hvals hbits
  obtain ⟨hb1, hpayload⟩ := Source.offers_cons.mp ho
  have hrun := V2Unit.runPayload_value (u := { s.v2 with src := s.v2.src.skip 1 }) (W := directWidth s.cfg w)
    (L := directLength l8 b1) (vals := vals) (by rw [hL]; exact hlen) hpayload.passes (by rw [hL]; exact hextract)
  have hleft : BitVec.ofNat 10 vals.length - 1#10 = BitVec.ofNat 10 (vals.length - 1) := by
    have := b1.isLt
    have := l8.isLt
    rw [hvals]
    bv_omega
  have hfirst : (vals ++ s.v2.q.drop vals.length).getD 0 0 = vals.getD 0 0 := List.getD_append _ _ _ _ (by omega)
  rw [exec_v2Direct, V2Unit.runDirect_offers _ hb1, hrun, hleft, hfirst, hvals, Source.skip_skip]

/-- Settles O40: the byte that is denied is the length byte or one of the payload. -/
theorem v2DirectCutShortStagesNothing : Obligations.V2DirectCutShortStagesNothing := by
  intro w l8 s got k ho (hk : (s.v2.src.skip got.length).Denies k) hshort
  cases got with
  | nil =>
    rw [exec_v2Direct, V2Unit.runDirect_denied s.cfg (k := k) hk]
    rfl
  | cons b1 got =>
    obtain ⟨hb1, hgot⟩ := Source.offers_cons.mp ho
    have hlen : got.length < payloadBytes (directWidth s.cfg w) (directLength l8 b1) := by
      have := hshort.resolve_left (by simp)
      simp only [List.length_cons, List.getD_cons_zero] at this
      omega
    have hstop := readMore_denied hk
    rw [List.length_cons, Nat.add_comm, ← Source.skip_skip] at hstop ⊢
    rw [exec_v2Direct, V2Unit.runDirect_offers _ hb1,
      V2Unit.runPayload_stopped (u := { s.v2 with src := s.v2.src.skip 1 }) hlen hgot.passes hstop]
    rfl

/-- Settles O41: a call that finds values staged is a pop. -/
theorem v2PopDeliversFront : Obligations.V2PopDeliversFront := fun s hf hq => by
  rw [nextUnit_v2_eq, V2Unit.next_staged hf hq, V2Unit.pop]

/-! The clean end. -/

/-- An encoding does not end a stream cleanly. -/
theorem V2Unit.RunEnds.port_ne_eos {op : V2Unit → V2Unit} {u : V2Unit} (h : RunEnds op u) : (op u).port ≠ some .eos := by
  cases h with
  | raised bs k info kind finfo passes eq => simp [eq]
  | value bs q qhead qcount v bounds passes eq => simp [eq u.src passes]

/-- V2 before its clean end (45_int_rle_v2.md rule R187). -/
def V2Unit.BeforeEnd (u : V2Unit) : Prop :=
  u.latch.fault = none ∧ u.qcount = 0#10 ∧ u.src.AtEnd

theorem V2Unit.beforeEnd_of_port_eos {c : Config} {u : V2Unit} (hl : u.src.pos ≤ u.src.len)
    (h : (u.next c).port = some .eos) : u.BeforeEnd := by
  cases hf : u.latch.fault with
  | some k => simp [next_faulted hf] at h
  | none =>
    by_cases hq : u.qcount = 0#10
    · obtain ⟨hfail, hend, -⟩ | hrun := fetch_ends c u
      · exact ⟨hf, hq, Nat.le_antisymm hl hend, hfail⟩
      · exact absurd (next_empty hf hq ▸ h) hrun.port_ne_eos
    · simp [next_staged hf hq] at h

theorem V2Unit.next_beforeEnd (c : Config) {u : V2Unit} (h : u.BeforeEnd) : u.next c = u.answer .eos := by
  obtain ⟨hf, hq, hend⟩ := h
  rw [next_empty hf hq, fetch_atEnd hend.2 hend.1.ge]

/-- Settles O43: the call of V2 is `V2Unit.next`, which ends cleanly exactly before the end, and again there. -/
theorem v2CleanEnd : Obligations.V2CleanEnd := by
  intro s hi
  have hnext {t : State} (ht : nextUnit .v2 s = .next t) (hport : t.v2.port = some .eos) :
      t = { s with v2 := s.v2.answer .eos } ∧ s.v2.BeforeEnd := by
    rw [nextUnit_v2_eq, Host.Outcome.next.injEq] at ht
    subst ht
    have h := V2Unit.beforeEnd_of_port_eos hi.posLe hport
    exact ⟨by rw [V2Unit.next_beforeEnd s.cfg h], h⟩
  refine ⟨⟨fun ⟨t, ht, hport⟩ => (hnext ht hport).2, fun h => ⟨_, nextUnit_v2_eq s, ?_⟩⟩, fun t ht hport => ?_⟩
  · rw [V2Unit.next_beforeEnd s.cfg h]
    rfl
  · obtain ⟨rfl, h⟩ := hnext ht hport
    refine ⟨rfl, ?_⟩
    rw [nextUnit_v2_eq, V2Unit.next_beforeEnd _ (u := s.v2.answer .eos) h]
    rfl

/-- Settles O19: the fetch of each of the three units raises at the failure position. -/
theorem failureWinsOverCleanEnd : Obligations.FailureWinsOverCleanEnd := by
  refine fun s => ⟨fun h hf hm => ⟨_, nextByteRle_eq .unit s, ?_⟩, fun h hf hm => ?_,
    fun h hf hq => ⟨_, nextUnit_v2_eq s, ?_⟩⟩
  · rw [State.byteDec_unit, ByteDec.next_idle hf hm, ByteDec.fetch_atFailure h]
    exact ⟨rfl, rfl, rfl⟩
  · exact ⟨_, nextUnit_v1_of_next ((V1Unit.next_idle hf hm).trans (V1Unit.fetch_atFailure h)), rfl, rfl, rfl⟩
  · rw [V2Unit.next_empty hf hq, V2Unit.fetch_atFailure h]
    exact ⟨rfl, rfl, rfl, hq⟩

end Sys2Proof.Machine
end

section
/-!
The V2 stream (45_int_rle_v2.md rules R170 to R187, 60_exceptions.md rules R219 and R225): a Direct run stages its values
and pops them one by one, and by induction the runs one after the other.
-/
namespace Sys2Proof.Machine

/-- V2 delivers the values `vs` and then `last` for ever. -/
abbrev V2Unit.Streams (c : Config) (last : Result Word) : V2Unit → List Word → Prop :=
  Machine.Streams (fun u => .next (u.next c)) V2Unit.port last

namespace V2Unit
variable {c : Config} {last : Result Word} {u : V2Unit} {vs : List Word}

/-- V2 with an empty queue, its source at `src`, delivers `vs`. -/
def StreamsFrom (c : Config) (last : Result Word) (src : Source) (vs : List Word) : Prop :=
  ∀ d : V2Unit, d.latch.fault = none → d.qcount = 0#10 → d.src = src → d.Streams c last vs

/-- The staged values `ws`, front first, then what follows the run. -/
theorem streams_staged (ws tail : List Word) (hq : u.q.drop u.qhead.toNat = ws ++ tail)
    (hc : u.qcount = BitVec.ofNat 10 ws.length) (hle : u.qhead.toNat + ws.length ≤ 512) (hf : u.latch.fault = none)
    (hrest : StreamsFrom c last u.src vs) : u.Streams c last (ws ++ vs) := by
  induction ws generalizing u with
  | nil => exact hrest u hf hc rfl
  | cons w ws ih =>
    simp only [List.length_cons] at hc hle
    have hne : u.qcount ≠ 0#10 := by
      rw [hc]
      bv_omega
    have hhead : (u.qhead + 1#10).toNat = u.qhead.toNat + 1 := by bv_omega
    have hleft : u.qcount - 1#10 = BitVec.ofNat 10 ws.length := by
      rw [hc]
      bv_omega
    have hfront : u.q.getD u.qhead.toNat 0 = w := by
      have := congrArg (·.getD 0 0) hq
      simpa using this
    have hdrop : u.q.drop (u.qhead.toNat + 1) = ws ++ tail := by
      rw [← List.drop_drop, hq]
      rfl
    refine .value (congrArg _ (next_staged hf hne)) (by rw [pop_port, hfront]) ?_
    exact ih (u := u.pop) (by rw [pop_qhead, hhead]; exact hdrop) hleft (by rw [pop_qhead, hhead]; omega) hf hrest

/-- The fields of the header and of the length byte of a Direct line. -/
theorem directHeader_fields {w : BitVec 5} {n : Nat} (hn : n < 512) :
    (BitVec.ofNat 8 (0x40 + 2 * w.toNat + (n >>> 8))).toNat / 64 = 1 ∧
    (BitVec.ofNat 8 (0x40 + 2 * w.toNat + (n >>> 8))).extractLsb' 1 5 = w ∧
    directLength ((BitVec.ofNat 8 (0x40 + 2 * w.toNat + (n >>> 8))).extractLsb' 0 1) (BitVec.ofNat 8 (n % 256)) = n + 1 := by
  have hw := w.isLt
  have hl8 : n >>> 8 = n / 256 := Nat.shiftRight_eq_div_pow n 8
  have hhead : (BitVec.ofNat 8 (0x40 + 2 * w.toNat + (n >>> 8))).toNat = 0x40 + 2 * w.toNat + n / 256 := by
    rw [hl8, BitVec.toNat_ofNat]
    omega
  refine ⟨by rw [hhead]; omega, BitVec.eq_of_toNat_eq ?_, ?_⟩
  · rw [BitVec.extractLsb'_toNat, hhead, Nat.shiftRight_eq_div_pow]
    omega
  · rw [directLength_eq, BitVec.extractLsb'_toNat, hhead, BitVec.toNat_ofNat, Nat.shiftRight_eq_div_pow]
    omega

/-- A Direct line is staged whole and delivered value by value. -/
theorem streamsFrom_direct (hwf : c.wf = true) {w : BitVec 5} {ws : List Word} {src : Source}
    (hline : (V2Line.direct w ws).wellFormed c.bwt = true) (hsrc : src.Offers ((V2Line.direct w ws).bytes c.bwt))
    (hrest : StreamsFrom c last (src.skip ((V2Line.direct w ws).bytes c.bwt).length) vs) :
    StreamsFrom c last src (ws ++ vs) := by
  rintro u hf hq rfl
  obtain ⟨⟨h1, h512⟩, hfits⟩ : (1 ≤ ws.length ∧ ws.length ≤ 512) ∧ ∀ v ∈ ws, v.toNat < 2 ^ directWidth c w := by
    simpa [V2Line.wellFormed, directWidth] using hline
  obtain ⟨w0, ws, rfl⟩ := List.exists_cons_of_length_pos h1
  obtain ⟨htag, hwidth, hlength⟩ := directHeader_fields (w := w) (n := ws.length) (by simpa using h512)
  rw [V2Line.bytes, List.length_cons, Nat.add_sub_cancel] at hsrc
  obtain ⟨hhead, hmore⟩ := Source.offers_cons.mp hsrc
  obtain ⟨hb1, hpayload⟩ := Source.offers_cons.mp hmore
  have hextract := extractAll_packBytes (directWidth_bounds hwf w).2 hfits
  have hrun := runPayload_value (u := { u with src := (u.src.skip 1).skip 1 }) (length_packBytes (directWidth c w) (w0 :: ws))
    hpayload.passes hextract
  have hleft : BitVec.ofNat 10 (w0 :: ws).length - 1#10 = BitVec.ofNat 10 ws.length := by
    simp only [List.length_cons] at h512 ⊢
    bv_omega
  have hcall : u.next c =
      { u with src := (u.src.skip 1).skip 1 }.runPayload (directWidth c w) (w0 :: ws).length := by
    rw [next_empty hf hq, fetch_direct htag hhead, hwidth,
      runDirect_offers (u := { u with src := u.src.skip 1 }) c hb1, hlength, List.length_cons]
  refine .value (congrArg _ (hcall.trans hrun)) rfl ?_
  refine streams_staged ws (u.q.drop (w0 :: ws).length) rfl hleft ?_ hf ?_
  · simp only [List.length_cons] at h512
    simp
    omega
  · simpa [V2Line.bytes, directWidth, Nat.add_assoc, Nat.add_comm 2] using hrest

/-- At the end of its source V2 answers `Eos` for ever. -/
theorem streamsFrom_atEnd {src : Source} (h : src.AtEnd) : StreamsFrom c .eos src [] := by
  rintro u hf hq rfl
  have hu : u.BeforeEnd := ⟨hf, hq, h⟩
  exact .ended (congrArg _ (next_beforeEnd c hu)) rfl (congrArg _ (next_beforeEnd c (u := u.answer .eos) hu))

/-- At an unsupported header V2 latches it, and answers it for ever. -/
theorem streamsFrom_unsupported {src : Source} {h : Byte} (htag : h.toNat / 64 ≠ 1) (ho : src.Offers [h]) :
    StreamsFrom c (.err .unsupportedEncoding h) src [] := by
  rintro u hf hq rfl
  exact .ended (congrArg _ ((next_empty hf hq).trans (fetch_unsupported htag ho))) rfl (congrArg _ (next_faulted rfl))

/-- Direct lines one after the other, and then what the end `hlast` of the source gives. -/
theorem streamsFrom_runs (hwf : c.wf = true) (runs : List (BitVec 5 × List Word))
    (hruns : ∀ r ∈ runs, (V2Line.direct r.1 r.2).wellFormed c.bwt = true) {src : Source}
    (hsrc : src.Offers (runs.flatMap fun r => (V2Line.direct r.1 r.2).bytes c.bwt))
    (hlast : StreamsFrom c last (src.skip (runs.flatMap fun r => (V2Line.direct r.1 r.2).bytes c.bwt).length) []) :
    StreamsFrom c last src (runs.flatMap Prod.snd) := by
  induction runs generalizing src with
  | nil => exact hlast
  | cons r runs ih =>
    rw [List.flatMap_cons] at hsrc hlast ⊢
    obtain ⟨hr, hrest⟩ := Source.offers_append.mp hsrc
    exact streamsFrom_direct hwf (hruns r List.mem_cons_self) hr
      (ih (fun r' h => hruns r' (List.mem_cons_of_mem _ h)) hrest (by simpa using hlast))

end V2Unit

/-- The machine's outcomes after a `RESET(V2)` are those of V2. -/
theorem outcomes_v2_of_streamsFrom {s t : State} {bytes : List Byte} {last : Result Word} {vs : List Word} (k : Nat)
    (h : V2Unit.StreamsFrom s.cfg last (Source.bind bytes none) vs)
    (ht : step { s with cmds := [.reset .v2 bytes none] } = .next t) :
    outcomes .v2 (fun t => t.v2.port) k t = (vs.map (fun v => some (Result.value v)) ++ List.replicate k (some last)).take k := by
  obtain rfl : { s with v2 := V2Unit.resetOn (Source.bind bytes none), cmds := [] } = t := by
    simpa [step, command, resetUnit, legalFail, V2Unit.reset] using ht
  refine outcomes_eq_of_streams (Rel := fun t u => t.cfg = s.cfg ∧ t.v2 = u) ?_ (h (V2Unit.resetOn _) rfl rfl rfl) k ⟨rfl, rfl⟩
  rintro r _ _ ⟨hcfg, rfl⟩ hcall
  cases hcall
  exact ⟨_, nextUnit_v2_eq { r with cmds := [] }, by rw [← hcfg], hcfg, by rw [← hcfg]⟩

/-- Settles O44: V2 delivers the values of the runs, and after them it meets the end of its source or the unsupported
header. -/
theorem v2StreamRoundTrip : Obligations.V2StreamRoundTrip := by
  refine fun runs s t k h more hwf hruns => ⟨fun ht => ?_, fun htag ht => ?_⟩
  · exact outcomes_v2_of_streamsFrom k (V2Unit.streamsFrom_runs hwf runs hruns (Source.offers_bind _)
      (V2Unit.streamsFrom_atEnd (Source.atEnd_bind _))) ht
  · obtain ⟨hbytes, hrest⟩ := Source.offers_append.mp (Source.offers_bind
      ((runs.flatMap fun r => (V2Line.direct r.1 r.2).bytes s.cfg.bwt) ++ h :: more))
    exact outcomes_v2_of_streamsFrom k (V2Unit.streamsFrom_runs hwf runs hruns hbytes
      (V2Unit.streamsFrom_unsupported htag (Source.offers_cons.mp hrest).1)) ht

end Sys2Proof.Machine
end

section
/-!
Commands and steps (60_exceptions.md rules R223 and R224, 70_reset_and_hazards.md rule R240): the latched error, `RESET`, and
the instruction a step runs.
-/
namespace Sys2Proof.Machine

theorem nextUnit_byte_eq (s : State) : nextUnit .byte s = .next { s with byte := s.byte.next .unit } :=
  nextByteRle_eq .unit s

theorem nextUnit_bit_eq (s : State) : nextUnit .bit s = .next { s with bit := s.bit.next } := nextBit_eq s

theorem nextUnit_v1_eq (s : State) : nextUnit .v1 s = s.withV1 (s.v1.next s.cfg) := nextV1_eq s

theorem step_of_cmds {s : State} {c : Command} {rest : List Command} (h : s.cmds = c :: rest) :
    step s = command c { s with cmds := rest } := by
  simp only [step, h]

/-- Settles O51: the clauses of `step` and of `command`. -/
theorem stepTakesOneCommand : Obligations.StepTakesOneCommand :=
  fun s => ⟨fun h => by simp only [step, h], fun _ _ h => step_of_cmds h, fun _ _ _ _ h => step_of_cmds h⟩

/-- Settles O45: the latch is tested before anything else. -/
theorem faultLatchIsSticky : Obligations.FaultLatchIsSticky := by
  refine fun s k => ⟨fun h => ?_, fun h hn => ?_, fun h => ?_, fun h => ?_⟩
  · rw [nextUnit_byte_eq, ByteDec.next_faulted h]
    rfl
  · rw [nextUnit_bit_eq, BitUnit.next_pulls hn, ByteDec.next_faulted h]
    rfl
  · exact nextUnit_v1_of_next (V1Unit.next_faulted h)
  · rw [nextUnit_v2_eq, V2Unit.next_faulted h]
    rfl

/-- Settles O46: a legal `RESET` is `resetOn` of its unit. -/
theorem resetBindsAndClears : Obligations.ResetBindsAndClears := fun _ _ _ h =>
  ⟨⟨_, if_pos h, rfl, rfl, rfl, rfl⟩, ⟨_, if_pos h, rfl, rfl, rfl, rfl, rfl⟩, ⟨_, if_pos h, rfl, rfl, rfl, rfl⟩,
    ⟨_, if_pos h, rfl, rfl, rfl, rfl⟩⟩

/-- Settles O47: the fields of `State.reset`. -/
theorem resetStateValues : Obligations.ResetStateValues := by
  refine ⟨fun who => ?_, rfl, rfl, rfl, rfl, rfl, rfl, rfl, rfl, rfl, rfl, rfl⟩
  cases who with
  | unit => exact ⟨rfl, rfl, rfl, rfl⟩
  | bitB => exact ⟨rfl, rfl, rfl, rfl⟩

/-! The instruction a step runs. -/

/-- What decodes from the bytes left is the byte at the position, which the source offers. -/
theorem Source.exists_lead {s : Source} (hf : ¬ s.AtFailure) {r : Reader} {i : Instr} {more : List Byte}
    (h : decode r s.upcoming = .ok (i, more)) : ∃ b, s.Offers [b] ∧ i = decodeLead r b := by
  by_cases hl : s.pos < s.len
  · obtain ⟨n, hn⟩ : ∃ n, s.remaining = n + 1 := ⟨s.remaining - 1, by simp only [remaining]; omega⟩
    refine ⟨_, offers_read hf hl, ?_⟩
    rw [upcoming, hn, List.range_succ_eq_map, List.map_cons, decode, Except.ok.injEq, Prod.mk.injEq] at h
    exact h.1.symm
  · have hzero : s.remaining = 0 := by simp only [remaining]; omega
    simp [upcoming, hzero, decode] at h

theorem nextByteRle_offers {who : ByteInst} {s : State} {b : Byte} (hf : (s.byteDec who).latch.fault = none)
    (hm : (s.byteDec who).mode = .idle) (h : (s.byteDec who).src.Offers [b]) :
    nextByteRle who s = exec (decodeLead (.byteRle who) b)
      (s.setByteDec who { s.byteDec who with src := (s.byteDec who).src.skip 1 }) := by
  simp only [nextByteRle, hf, hm, fetchByteRle_offers h]

/-- Settles O50: a fetch carries out what the byte at the position decodes to. -/
theorem stepRunsDecoded : Obligations.StepRunsDecoded := by
  refine fun s rest i more => ⟨fun hc hf hm hfail hd => ?_, fun hf hm hfail hd => ?_, fun t b hc hn ht hport hd => ?_,
    fun hc hf hm hfail hd => ?_, fun hc hf hq hfail hd => ?_, fun hfail hd => ?_⟩
  · obtain ⟨b, hb, rfl⟩ := Source.exists_lead hfail hd
    rw [step_of_cmds hc]
    exact nextByteRle_offers (who := .unit) (s := { s with cmds := rest }) hf hm hb
  · obtain ⟨b, hb, rfl⟩ := Source.exists_lead hfail hd
    exact nextByteRle_offers (who := .bitB) hf hm hb
  · obtain rfl : decodeLead .bit b = i := by
      rw [decode, Except.ok.injEq, Prod.mk.injEq] at hd
      exact hd.1
    rw [step_of_cmds hc, command, nextUnit_bit_pulls (s := { s with cmds := rest }) hn ht, bitFromPipeline_value hport]
    rfl
  · obtain ⟨b, hb, rfl⟩ := Source.exists_lead hfail hd
    rw [step_of_cmds hc, command, nextUnit, nextV1]
    simp only [hf, hm, fetchV1, readFirst_offers hb]
  · obtain ⟨b, hb, rfl⟩ := Source.exists_lead hfail hd
    rw [step_of_cmds hc, command, nextUnit, nextV2]
    simp only [hf, if_pos hq, fetchV2, readFirst_offers hb]
  · obtain ⟨b, hb, rfl⟩ := Source.exists_lead hfail hd
    have hread := V1Unit.readGroups_offers (c := s.cfg) (u := { s.v1 with vi := VarintRegs.start }) (g := 0) (by decide) rfl hb
    rw [exec_decodeLead_varint, V1Unit.varintDecode]
    exact congrArg (fun u => Host.Outcome.next { s with v1 := u }) hread.symm

end Sys2Proof.Machine
end

section
/-!
The invariant of the block (10_state.md rules R12, R14, R16, R18, R22, R23 and R26): `RESET` establishes each unit's, and
each way a call ends keeps it.
-/
namespace Sys2Proof.Machine

namespace ByteDec
variable {who : ByteInst} {u : ByteDec}

theorem resetOn_inv {src : Source} (h : src.Inv) (fresh : Nat) : (resetOn src fresh).Inv where
  src := h
  kinds := nofun
  finfo := rfl
  idle _ := ⟨fun _ => rfl, fun _ => rfl⟩
  repeating _ := nofun
  literal _ := nofun

/-- The invariant speaks of the port and of the position only through the source's own invariant. -/
theorem Inv.answer_skip {bs : List Byte} (h : u.Inv) (hbs : u.src.Passes bs) (r : Result Byte) :
    ({ u with src := u.src.skip bs.length }.answer r).Inv :=
  ⟨hbs.inv h.src, h.kinds, h.finfo, h.idle, h.repeating, h.literal⟩

theorem RunEnds.inv {op : ByteDec → ByteDec} (h : RunEnds who op u) (hi : u.Inv) (hf : u.latch.fault = none) :
    (op u).Inv := by
  cases h with
  | raised bs k kind passes eq =>
    rw [eq]
    exact ⟨passes.inv hi.src, fun _ h => Option.some.inj h ▸ kind, rfl, nofun, nofun, nofun⟩
  | value bs m c val v bounds passes eq =>
    obtain ⟨hidle, hrep, hlit⟩ := bounds ⟨hi.idle hf, hi.repeating hf, hi.literal hf⟩
    rw [eq u.src passes]
    exact ⟨passes.inv hi.src, hi.kinds, hi.finfo, fun _ => hidle, fun _ => hrep, fun _ => hlit⟩

theorem next_inv (who : ByteInst) (hi : u.Inv) : (u.next who).Inv := by
  cases hf : u.latch.fault with
  | some k =>
    rw [next_faulted hf]
    exact hi.answer_skip (Source.passes_nil _) _
  | none =>
    obtain ⟨hm, z, hz, -, -, heq⟩ | hrun := next_ends who hf
    · rw [next_idle hf hm, heq]
      simpa using hi.answer_skip hz .eos
    · exact hrun.inv hi hf

/-- A call that delivers a value leaves no error latched. -/
theorem fault_of_port_value {v : Byte} (h : (u.next who).port = some (.value v)) :
    (u.next who).latch.fault = none := by
  cases hf : u.latch.fault with
  | some k => simp [next_faulted hf] at h
  | none =>
    obtain ⟨hm, z, -, -, -, heq⟩ | hrun := next_ends who hf
    · simp [next_idle hf hm, heq] at h
    · cases hrun with
      | raised bs k kind passes eq => simp [eq] at h
      | value bs m c val v bounds passes eq =>
        rw [eq u.src passes]
        exact hf

end ByteDec

namespace BitUnit
variable {u : BitUnit}

theorem resetOn_inv {src : Source} (h : src.Inv) (fresh : Nat) : (resetOn src fresh).Inv where
  pipeline := ByteDec.resetOn_inv h fresh
  nbitsLe := Nat.zero_le _
  lowZero _ _ := BitVec.getLsbD_zero
  faulted _ := rfl

theorem deliver_inv (hi : u.Inv) (hn : u.nbits ≠ 0#4) : u.deliver.Inv where
  pipeline := hi.pipeline
  nbitsLe := by
    have := hi.nbitsLe
    rw [deliver_nbits]
    bv_omega
  lowZero j hj := by
    have hle := hi.nbitsLe
    have hlow : j ≠ 0 → u.cur.getLsbD (j - 1) = false := fun h0 => by
      refine hi.lowZero _ ?_
      rw [deliver_nbits] at hj
      bv_omega
    rw [deliver_cur, BitVec.getLsbD_shiftLeft]
    by_cases h0 : j = 0
    · simp [h0]
    · simp [hlow h0]
  faulted h := absurd (hi.faulted h) hn

theorem next_inv (hi : u.Inv) : u.next.Inv := by
  by_cases hn : u.nbits = 0#4
  · have hb := ByteDec.next_inv .bitB hi.pipeline
    have hkept (r : Result Bool) : ({ u with b := u.b.next .bitB }.answer r).Inv :=
      ⟨hb, hi.nbitsLe, hi.lowZero, fun _ => hn⟩
    rw [next_pulls hn]
    rcases hport : (u.b.next .bitB).port with _ | (v | _ | ⟨k, info⟩)
    · rw [takeByte, hport]
      exact ⟨hb, hi.nbitsLe, hi.lowZero, fun _ => hn⟩
    · have hloaded : ({ u with b := u.b.next .bitB, cur := v, nbits := 8 } : BitUnit).Inv :=
        ⟨hb, le_rfl, fun j hj => absurd hj (Nat.not_lt_zero j), fun h => absurd (ByteDec.fault_of_port_value hport) h⟩
      rw [takeByte_value hport]
      exact deliver_inv hloaded (show 8#4 ≠ 0#4 by decide)
    · rw [takeByte_eos hport]
      exact hkept _
    · rw [takeByte_err hport]
      exact hkept _
  · rw [next_loaded hn]
    exact deliver_inv hi hn

end BitUnit

namespace V1Unit
variable {c : Config} {u : V1Unit}

theorem resetOn_inv {src : Source} (h : src.Inv) (fresh : Nat) : (resetOn src fresh).Inv where
  src := h
  kinds := nofun
  finfo := rfl
  varint := rfl
  idle _ := ⟨fun _ => rfl, fun _ => rfl⟩
  delta _ := nofun
  literal _ := nofun

theorem Inv.answer_skip {bs : List Byte} (h : u.Inv) (hbs : u.src.Passes bs) (r : Result Word) :
    ({ u with src := u.src.skip bs.length }.answer r).Inv :=
  ⟨hbs.inv h.src, h.kinds, h.finfo, h.varint, h.idle, h.delta, h.literal⟩

theorem RunEnds.inv {op : V1Unit → Host.Outcome V1Unit Fault Refusal} (h : RunEnds c op u) (hi : u.Inv)
    (hf : u.latch.fault = none) {t : V1Unit} (ht : op u = .next t) : t.Inv := by
  cases h with
  | refused param eq => simp [ht] at eq
  | raised bs k kind passes eq =>
    rw [ht, Host.Outcome.next.injEq] at eq
    rw [eq]
    exact ⟨passes.inv hi.src, fun _ h => Option.some.inj h ▸ kind, rfl, rfl, nofun, nofun, nofun⟩
  | value bs m n val delta vi v bounds varint passes eq =>
    obtain ⟨hidle, hdelta, hlit⟩ := bounds ⟨hi.idle hf, hi.delta hf, hi.literal hf⟩
    have hvi : vi = VarintRegs.start := varint.elim id fun h => h.trans hi.varint
    have eq := ht.symm.trans (eq u.src passes)
    rw [Host.Outcome.next.injEq] at eq
    rw [eq]
    exact ⟨passes.inv hi.src, hi.kinds, hi.finfo, hvi, fun _ => hidle, fun _ => hdelta, fun _ => hlit⟩

theorem next_inv (hi : u.Inv) {t : V1Unit} (ht : u.next c = .next t) : t.Inv := by
  cases hf : u.latch.fault with
  | some k =>
    rw [next_faulted hf, Host.Outcome.next.injEq] at ht
    exact ht ▸ hi.answer_skip (Source.passes_nil _) _
  | none =>
    obtain ⟨hm, z, hz, -, -, heq⟩ | hrun := next_ends (c := c) hf
    · rw [next_idle hf hm, heq, Host.Outcome.next.injEq] at ht
      simpa [← ht] using hi.answer_skip hz .eos
    · exact hrun.inv hi hf ht

end V1Unit

namespace V2Unit
variable {c : Config} {u : V2Unit}

theorem resetOn_inv {src : Source} (h : src.Inv) : (resetOn src).Inv where
  src := h
  kinds := nofun
  finfo _ := rfl
  entries := List.length_replicate
  countLe := Nat.zero_le _
  noWrap := Nat.zero_le _
  noBuffer := rfl
  faulted _ := rfl

theorem Inv.answer (h : u.Inv) (r : Result Word) : (u.answer r).Inv :=
  ⟨h.src, h.kinds, h.finfo, h.entries, h.countLe, h.noWrap, h.noBuffer, h.faulted⟩

theorem pop_inv (hi : u.Inv) (hq : u.qcount ≠ 0#10) : u.pop.Inv where
  src := hi.src
  kinds := hi.kinds
  finfo := hi.finfo
  entries := hi.entries
  countLe := by
    have := hi.countLe
    rw [pop_qcount]
    bv_omega
  noWrap := by
    have := hi.noWrap
    have := hi.countLe
    rw [pop_qhead, pop_qcount]
    bv_omega
  noBuffer := hi.noBuffer
  faulted h := absurd (hi.faulted h) hq

/-- What a call reads with the queue empty keeps the invariant. -/
theorem RunEnds.inv {op : V2Unit → V2Unit} (h : RunEnds op u) (hi : u.Inv) (hf : u.latch.fault = none)
    (hq : u.qcount = 0#10) : (op u).Inv := by
  cases h with
  | raised bs k info kind finfo passes eq =>
    rw [eq]
    exact ⟨passes.inv hi.src, fun _ h => Option.some.inj h ▸ kind, fun h => finfo fun hk => h (congrArg some hk), hi.entries,
      hi.countLe, hi.noWrap, rfl, fun _ => hq⟩
  | value bs q qhead qcount v bounds passes eq =>
    obtain ⟨hentries, hcount, hwrap⟩ := bounds hi.entries
    rw [eq u.src passes]
    exact ⟨passes.inv hi.src, hi.kinds, hi.finfo, hentries, hcount, hwrap, rfl, fun h => absurd hf h⟩

theorem next_inv (c : Config) (hi : u.Inv) : (u.next c).Inv := by
  cases hf : u.latch.fault with
  | some k =>
    rw [next_faulted hf]
    exact hi.answer _
  | none =>
    by_cases hq : u.qcount = 0#10
    · rw [next_empty hf hq]
      obtain ⟨-, -, heq⟩ | hrun := fetch_ends c u
      · rw [heq]
        exact hi.answer _
      · exact hrun.inv hi hf hq
    · rw [next_staged hf hq]
      exact pop_inv hi hq

end V2Unit

/-- Settles O48: each unit is reset on the empty source. -/
theorem resetMeetsInvariant : Obligations.ResetMeetsInvariant where
  cfg := Config.wf_of_bwt_eq_documentTable Config.standard_bwt
  byte := ByteDec.resetOn_inv (Source.bind_inv (bytes := []) (fail := none) rfl) 0
  bit := BitUnit.resetOn_inv (Source.bind_inv (bytes := []) (fail := none) rfl) 0
  v1 := V1Unit.resetOn_inv (Source.bind_inv (bytes := []) (fail := none) rfl) 0
  v2 := V2Unit.resetOn_inv (Source.bind_inv (bytes := []) (fail := none) rfl)

/-- V1's part of a step ends in a next state exactly where V1's does. -/
theorem State.withV1_eq_next {s t : State} {o : Host.Outcome V1Unit Fault Refusal} (h : s.withV1 o = .next t) :
    ∃ u, o = .next u ∧ t = { s with v1 := u } := by
  cases o with
  | next u => exact ⟨u, rfl, (Host.Outcome.next.inj h).symm⟩
  | fault r => cases h
  | refused r => cases h

theorem nextUnit_inv (u : UnitId) {s t : State} (hi : s.Inv) (ht : nextUnit u s = .next t) : t.Inv := by
  cases u with
  | byte =>
    rw [nextUnit_byte_eq, Host.Outcome.next.injEq] at ht
    exact ht ▸ { hi with byte := ByteDec.next_inv .unit hi.byte }
  | bit =>
    rw [nextUnit_bit_eq, Host.Outcome.next.injEq] at ht
    exact ht ▸ { hi with bit := BitUnit.next_inv hi.bit }
  | v1 =>
    rw [nextUnit_v1_eq] at ht
    obtain ⟨u, hu, rfl⟩ := State.withV1_eq_next ht
    exact { hi with v1 := V1Unit.next_inv hi.v1 hu }
  | v2 =>
    rw [nextUnit_v2_eq, Host.Outcome.next.injEq] at ht
    exact ht ▸ { hi with v2 := V2Unit.next_inv s.cfg hi.v2 }

theorem resetUnit_inv (u : UnitId) (bytes : List Byte) (fail : Option Nat) {s t : State} (hi : s.Inv)
    (ht : resetUnit u bytes fail s = .next t) : t.Inv := by
  by_cases hlegal : legalFail bytes fail = true
  · have hsrc := Source.bind_inv hlegal
    cases u <;> simp only [resetUnit, hlegal, if_true, Host.Outcome.next.injEq] at ht <;> subst ht
    · exact { hi with byte := ByteDec.resetOn_inv hsrc _ }
    · exact { hi with bit := BitUnit.resetOn_inv hsrc _ }
    · exact { hi with v1 := V1Unit.resetOn_inv hsrc _ }
    · exact { hi with v2 := V2Unit.resetOn_inv hsrc }
  · simp [resetUnit, hlegal] at ht

/-- Settles O49: a step is a call or a `RESET` of one unit, and each keeps that unit's invariant. -/
theorem stepKeepsInvariant : Obligations.StepKeepsInvariant := by
  intro s t hi ht
  cases hc : s.cmds with
  | nil =>
    rw [(stepTakesOneCommand s).1 hc] at ht
    exact Host.Outcome.next.inj ht ▸ hi
  | cons c rest =>
    rw [step_of_cmds hc] at ht
    have hi' : ({ s with cmds := rest } : State).Inv := { hi with }
    cases c with
    | next u => exact nextUnit_inv u hi' ht
    | reset u bytes fail => exact resetUnit_inv u bytes fail hi' ht

end Sys2Proof.Machine
end

section
/-!
Completion (60_exceptions.md rule R210, 70_reset_and_hazards.md rules R247 and R252): under `wrap` every instruction and
every call ends in a next state, and a call leaves an outcome on its port.
-/
namespace Sys2Proof.Machine

theorem V1Unit.RunEnds.exists_next {c : Config} {op : V1Unit → Host.Outcome V1Unit Fault Refusal} {u : V1Unit}
    (h : RunEnds c op u) (hwrap : c.v1Add = .wrap) : ∃ t, op u = .next t ∧ t.port ≠ none := by
  cases h with
  | refused param eq => simp [hwrap] at param
  | raised bs k kind passes eq => exact ⟨_, eq, by simp⟩
  | value bs m n val delta vi v bounds varint passes eq => exact ⟨_, eq u.src passes, by simp⟩

theorem V1Unit.fetch_exists_next {c : Config} (u : V1Unit) (hwrap : c.v1Add = .wrap) :
    ∃ t, u.fetch c = .next t ∧ t.port ≠ none := by
  obtain ⟨z, -, -, -, heq⟩ | hrun := fetch_ends c u
  · exact ⟨_, heq, by simp⟩
  · exact hrun.exists_next hwrap

/-- Settles O52: V1's instructions alone could stop, and under `wrap` they do not. -/
theorem execAlwaysAnswers : Obligations.ExecAlwaysAnswers := by
  intro i s hwrap
  cases i with
  | byteLiteral who n =>
    by_cases hn : n = 0#7
    · exact ⟨_, if_pos hn⟩
    · exact ⟨_, if_neg hn⟩
  | v1Delta n =>
    obtain ⟨t, ht, -⟩ := (V1Unit.runDelta_ends s.cfg n s.v1).exists_next hwrap
    exact ⟨_, exec_v1Delta_of_next ht⟩
  | v1Literal n =>
    by_cases hn : n = 0#7
    · subst hn
      obtain ⟨t, ht, -⟩ := s.v1.fetch_exists_next hwrap
      exact ⟨{ s with v1 := t }, by
        rw [← BitVec.ofNat_eq_ofNat, exec_v1Literal_empty, V1Unit.fallThrough_eq_fetch, ht, State.withV1_next]⟩
    · exact ⟨_, exec_v1Literal_nonempty hn s⟩
  | byteRepeat who n => exact ⟨_, rfl⟩
  | bitUnpack b => exact ⟨_, rfl⟩
  | v2ShortRepeat x => exact ⟨_, rfl⟩
  | v2Direct w l8 => exact ⟨_, rfl⟩
  | v2PatchedBase x => exact ⟨_, rfl⟩
  | v2Delta x => exact ⟨_, rfl⟩
  | varintCont d => exact ⟨_, rfl⟩
  | varintLast d => exact ⟨_, rfl⟩

/-! The port after a call. -/

theorem ByteDec.next_port_ne_none (who : ByteInst) (u : ByteDec) : (u.next who).port ≠ none := by
  cases hf : u.latch.fault with
  | some k => simp [next_faulted hf]
  | none =>
    obtain ⟨hm, z, -, -, -, heq⟩ | hrun := next_ends who hf
    · simp [next_idle hf hm, heq]
    · cases hrun with
      | raised bs k kind passes eq => simp [eq]
      | value bs m c val v bounds passes eq => simp [eq u.src passes]

theorem BitUnit.next_port_ne_none (u : BitUnit) : u.next.port ≠ none := by
  by_cases hn : u.nbits = 0#4
  · rw [next_pulls hn]
    rcases hport : (u.b.next .bitB).port with _ | (v | _ | ⟨k, info⟩)
    · exact absurd hport (u.b.next_port_ne_none .bitB)
    · simp [takeByte_value (u := { u with b := u.b.next .bitB }) hport]
    · simp [takeByte_eos (u := { u with b := u.b.next .bitB }) hport]
    · simp [takeByte_err (u := { u with b := u.b.next .bitB }) hport]
  · simp [next_loaded hn]

theorem V1Unit.next_exists_next {c : Config} (u : V1Unit) (hwrap : c.v1Add = .wrap) :
    ∃ t, u.next c = .next t ∧ t.port ≠ none := by
  cases hf : u.latch.fault with
  | some k => exact ⟨_, next_faulted hf, by simp⟩
  | none =>
    obtain ⟨hm, z, -, -, -, heq⟩ | hrun := next_ends (c := c) hf
    · exact ⟨_, (next_idle hf hm).trans heq, by simp⟩
    · exact hrun.exists_next hwrap

theorem V2Unit.next_port_ne_none (c : Config) (u : V2Unit) : (u.next c).port ≠ none := by
  cases hf : u.latch.fault with
  | some k => simp [next_faulted hf]
  | none =>
    by_cases hq : u.qcount = 0#10
    · rw [next_empty hf hq]
      obtain ⟨-, -, heq⟩ | hrun := fetch_ends c u
      · simp [heq]
      · cases hrun with
        | raised bs k info kind finfo passes eq => simp [eq]
        | value bs q qhead qcount v bounds passes eq => simp [eq u.src passes]
    · simp [next_staged hf hq]

/-- Settles O53: each unit's call leaves an outcome on its port. -/
theorem nextAlwaysAnswers : Obligations.NextAlwaysAnswers := by
  intro u s hwrap
  cases u with
  | byte => exact ⟨_, nextUnit_byte_eq s, s.byte.next_port_ne_none .unit⟩
  | bit => exact ⟨_, nextUnit_bit_eq s, s.bit.next_port_ne_none⟩
  | v1 =>
    obtain ⟨t, ht, hport⟩ := s.v1.next_exists_next hwrap
    exact ⟨_, nextUnit_v1_of_next ht, hport⟩
  | v2 => exact ⟨_, nextUnit_v2_eq s, s.v2.next_port_ne_none s.cfg⟩

end Sys2Proof.Machine
end

section
/-!
The frame of an instruction (10_state.md rules R10 and R27, 20_memory.md rules R42, R47 and R57): of its unit's source the
position alone moves, and it does not fall.
-/
namespace Sys2Proof.Machine

/-- The source `s'` is `s`, read on. -/
def Source.ReadOn (s s' : Source) : Prop := s' = { s with pos := s'.pos } ∧ s.pos ≤ s'.pos

theorem Source.readOn_skip (s : Source) (k : Nat) : s.ReadOn (s.skip k) := ⟨rfl, Nat.le_add_right _ _⟩

theorem ByteDec.RunEnds.readOn {who : ByteInst} {op : ByteDec → ByteDec} {u : ByteDec} (h : RunEnds who op u) :
    u.src.ReadOn (op u).src := by
  cases h with
  | raised bs k kind passes eq => exact eq ▸ u.src.readOn_skip _
  | value bs m c val v bounds passes eq => exact eq u.src passes ▸ u.src.readOn_skip _

theorem ByteDec.fallThrough_readOn (who : ByteInst) (u : ByteDec) : u.src.ReadOn (u.fallThrough who).src := by
  rw [fallThrough_eq_fetch]
  obtain ⟨z, -, -, -, heq⟩ | hrun := fetch_ends who u
  · exact heq ▸ u.src.readOn_skip z
  · exact hrun.readOn

theorem V1Unit.RunEnds.readOn {c : Config} {op : V1Unit → Host.Outcome V1Unit Fault Refusal} {u t : V1Unit}
    (h : RunEnds c op u) (ht : op u = .next t) : u.src.ReadOn t.src := by
  cases h with
  | refused param eq => simp [ht] at eq
  | raised bs k kind passes eq => exact Host.Outcome.next.inj (ht.symm.trans eq) ▸ u.src.readOn_skip _
  | value bs m n val delta vi v bounds varint passes eq =>
    exact Host.Outcome.next.inj (ht.symm.trans (eq u.src passes)) ▸ u.src.readOn_skip _

theorem V1Unit.fallThrough_readOn {c : Config} {u t : V1Unit} (ht : u.fallThrough c = .next t) :
    u.src.ReadOn t.src := by
  rw [fallThrough_eq_fetch] at ht
  obtain ⟨z, -, -, -, heq⟩ | hrun := fetch_ends c u
  · exact Host.Outcome.next.inj (ht.symm.trans heq) ▸ u.src.readOn_skip z
  · exact hrun.readOn ht

theorem V1Unit.VarintEnds.frame {op : V1Unit → V1Unit} {u : V1Unit} (h : VarintEnds op u) :
    op u = { u with src := (op u).src, vi := (op u).vi } ∧ u.src.ReadOn (op u).src := by
  cases h with
  | value bs vi w ret passes eq =>
    rw [show op u = _ from eq u.src passes]
    exact ⟨rfl, u.src.readOn_skip _⟩
  | failed bs vi ret passes eq =>
    rw [eq]
    exact ⟨rfl, u.src.readOn_skip _⟩

theorem V2Unit.RunEnds.readOn {op : V2Unit → V2Unit} {u : V2Unit} (h : RunEnds op u) : u.src.ReadOn (op u).src := by
  cases h with
  | raised bs k info kind finfo passes eq => exact eq ▸ u.src.readOn_skip _
  | value bs q qhead qcount v bounds passes eq => exact eq u.src passes ▸ u.src.readOn_skip _

/-- A byte-RLE instruction is an operation of its decoder, which reads on. -/
theorem exec_byteRle_frame {i : Instr} {who : ByteInst} (hi : i.reader = .byteRle who) {s t : State}
    (ht : exec i s = .next t) : ∃ d, t = s.setByteDec who d ∧ (s.byteDec who).src.ReadOn d.src := by
  cases i with
  | byteRepeat who' n =>
    obtain rfl : who' = who := Reader.byteRle.inj hi
    exact ⟨_, (Host.Outcome.next.inj ht).symm, (ByteDec.runRepeat_ends who' n _).readOn⟩
  | byteLiteral who' n =>
    obtain rfl : who' = who := Reader.byteRle.inj hi
    by_cases hn : n = 0#7
    · subst hn
      exact ⟨_, (Host.Outcome.next.inj ht).symm, ByteDec.fallThrough_readOn who' _⟩
    · rw [exec_byteLiteral_nonempty who' hn] at ht
      exact ⟨_, (Host.Outcome.next.inj ht).symm, (ByteDec.runLiteral_ends who' hn _).readOn⟩
  | _ => cases hi

/-- An instruction of V1 is an operation of V1, which reads on. -/
theorem exec_v1_frame {i : Instr} (hi : i.reader = .v1) {s t : State} (ht : exec i s = .next t) :
    ∃ u, t = { s with v1 := u } ∧ s.v1.src.ReadOn u.src := by
  cases i with
  | v1Delta n =>
    obtain ⟨u, hu, rfl⟩ := State.withV1_eq_next ht
    exact ⟨u, rfl, (V1Unit.runDelta_ends s.cfg n s.v1).readOn hu⟩
  | v1Literal n =>
    by_cases hn : n = 0#7
    · subst hn
      obtain ⟨u, hu, rfl⟩ := State.withV1_eq_next ht
      exact ⟨u, rfl, V1Unit.fallThrough_readOn hu⟩
    · rw [exec_v1Literal_nonempty hn] at ht
      exact ⟨_, (Host.Outcome.next.inj ht).symm, (V1Unit.runLiteral_ends s.cfg hn s.v1).readOn rfl⟩
  | _ => cases hi

/-- An instruction of V2 is an operation of V2, which reads on. -/
theorem exec_v2_frame {i : Instr} (hi : i.reader = .v2) {s t : State} (ht : exec i s = .next t) :
    ∃ u, t = { s with v2 := u } ∧ s.v2.src.ReadOn u.src := by
  cases i with
  | v2Direct w l8 => exact ⟨_, (Host.Outcome.next.inj ht).symm, (V2Unit.runDirect_ends s.cfg w l8 s.v2).readOn⟩
  | v2ShortRepeat x => exact ⟨_, (Host.Outcome.next.inj ht).symm, s.v2.src.readOn_skip 0⟩
  | v2PatchedBase x => exact ⟨_, (Host.Outcome.next.inj ht).symm, s.v2.src.readOn_skip 0⟩
  | v2Delta x => exact ⟨_, (Host.Outcome.next.inj ht).symm, s.v2.src.readOn_skip 0⟩
  | _ => cases hi

/-- An instruction of VARINT reads on, and changes nothing else but the registers of the invocation. -/
theorem exec_varint_frame {i : Instr} (hi : i.reader = .varint) {s t : State} (ht : exec i s = .next t) :
    t = { s with v1 := { s.v1 with src := t.v1.src, vi := t.v1.vi } } ∧ s.v1.src.ReadOn t.v1.src := by
  have hframe {op : V1Unit → V1Unit} (h : V1Unit.VarintEnds op s.v1) (hop : ({ s with v1 := op s.v1 } : State) = t) :
      t = { s with v1 := { s.v1 with src := t.v1.src, vi := t.v1.vi } } ∧ s.v1.src.ReadOn t.v1.src := by
    subst hop
    exact ⟨congrArg (fun u => { s with v1 := u }) h.frame.1, h.frame.2⟩
  cases i with
  | varintCont d => exact hframe (V1Unit.contGroup_ends s.cfg d s.v1) (Host.Outcome.next.inj ht)
  | varintLast d => exact hframe (V1Unit.lastGroup_ends s.cfg d s.v1) (Host.Outcome.next.inj ht)
  | _ => cases hi

/-- Settles O54: reader by reader. -/
theorem execFrame : Obligations.ExecFrame := by
  intro i s t ht
  cases hr : i.reader with
  | byteRle who =>
    obtain ⟨d, rfl, hread⟩ := exec_byteRle_frame hr ht
    cases who with
    | unit => exact ⟨rfl, hread⟩
    | bitB => exact ⟨rfl, hread⟩
  | bit =>
    cases i with
    | bitUnpack b => exact Host.Outcome.next.inj ht ▸ rfl
    | _ => cases hr
  | v1 =>
    obtain ⟨u, rfl, hread⟩ := exec_v1_frame hr ht
    exact ⟨rfl, hread⟩
  | v2 =>
    obtain ⟨u, rfl, hread⟩ := exec_v2_frame hr ht
    exact ⟨rfl, hread⟩
  | varint => exact exec_varint_frame hr ht

end Sys2Proof.Machine
end

section
/-!
Commands and units (10_state.md rules R10, R29 and R33): a command reads and changes one unit, and so commands to different
units commute.
-/
namespace Sys2Proof.Machine

/-- The unit a command goes to. -/
def Command.unit : Command → UnitId
  | .next u => u
  | .reset u _ _ => u

theorem Command.unit_eq_iff (c : Command) (u : UnitId) : c.unit = u ↔ c = .next u ∨ ∃ b f, c = .reset u b f := by
  cases c <;> simp [unit]

/-- The state `s` with the unit `u` of the state `t`. -/
def State.take (u : UnitId) (s t : State) : State :=
  match u with
  | .byte => { s with byte := t.byte }
  | .bit => { s with bit := t.bit }
  | .v1 => { s with v1 := t.v1 }
  | .v2 => { s with v2 := t.v2 }

/-- The two states have the same unit `u`. -/
def State.SameUnit (u : UnitId) (s s' : State) : Prop :=
  match u with
  | .byte => s'.byte = s.byte
  | .bit => s'.bit = s.bit
  | .v1 => s'.v1 = s.v1
  | .v2 => s'.v2 = s.v2

theorem State.SameUnit.symm {u : UnitId} {s s' : State} (h : SameUnit u s s') : SameUnit u s' s := by
  cases u <;> exact Eq.symm h

theorem State.take_cfg (u : UnitId) (s t : State) : (s.take u t).cfg = s.cfg := by
  cases u <;> rfl

theorem State.take_cmds (u : UnitId) (s t : State) : (s.take u t).cmds = s.cmds := by
  cases u <;> rfl

/-- Taking over one unit leaves another as it was, whatever is pending. -/
theorem State.sameUnit_take_of_ne {u v : UnitId} (h : u ≠ v) (s a : State) (cmds cmds' cmds'' : List Command) :
    SameUnit v { { s with cmds := cmds' }.take u a with cmds := cmds'' } { s with cmds := cmds } := by
  cases u <;> cases v <;> simp [State.take, SameUnit] at h ⊢

/-- Two units are taken over in either order, whatever is pending. -/
theorem State.take_take_of_ne {u v : UnitId} (h : u ≠ v) (s a t : State) (cmds cmds' : List Command) :
    { { s with cmds := cmds }.take v t with cmds := [] }.take u a =
      { { s with cmds := cmds' }.take u a with cmds := [] }.take v t := by
  cases u <;> cases v <;> simp [State.take] at h ⊢

/-- An action that reads the configuration and the unit `u`, and changes that unit alone. -/
def Local (u : UnitId) (f : State → Host.Outcome State Fault Refusal) : Prop :=
  ∀ s t, f s = .next t →
    t = s.take u t ∧ ∀ s', s'.cfg = s.cfg → State.SameUnit u s s' → f s' = .next (s'.take u t)

theorem nextUnit_local (u : UnitId) : Local u (nextUnit u) := by
  intro s t ht
  cases u with
  | byte =>
    rw [nextUnit_byte_eq, Host.Outcome.next.injEq] at ht
    subst ht
    exact ⟨rfl, fun s' _ (h : s'.byte = s.byte) => by rw [nextUnit_byte_eq, h]; rfl⟩
  | bit =>
    rw [nextUnit_bit_eq, Host.Outcome.next.injEq] at ht
    subst ht
    exact ⟨rfl, fun s' _ (h : s'.bit = s.bit) => by rw [nextUnit_bit_eq, h]; rfl⟩
  | v1 =>
    rw [nextUnit_v1_eq] at ht
    obtain ⟨u, hnext, rfl⟩ := State.withV1_eq_next ht
    exact ⟨rfl, fun s' hcfg (h : s'.v1 = s.v1) => nextUnit_v1_of_next (by rw [h, hcfg, hnext])⟩
  | v2 =>
    rw [nextUnit_v2_eq, Host.Outcome.next.injEq] at ht
    subst ht
    refine ⟨rfl, fun s' hcfg (h : s'.v2 = s.v2) => ?_⟩
    have hnext : s'.v2.next s'.cfg = s.v2.next s.cfg := by rw [h, hcfg]
    rw [nextUnit_v2_eq, hnext]
    rfl

theorem resetUnit_local (u : UnitId) (bytes : List Byte) (fail : Option Nat) : Local u (resetUnit u bytes fail) := by
  intro s t ht
  by_cases hlegal : legalFail bytes fail = true
  · cases u <;> simp only [resetUnit, hlegal, if_true, Host.Outcome.next.injEq] at ht ⊢ <;> subst ht
    · exact ⟨rfl, fun s' _ (h : s'.byte = s.byte) => by rw [h]; rfl⟩
    · exact ⟨rfl, fun s' _ (h : s'.bit = s.bit) => by rw [h]; rfl⟩
    · exact ⟨rfl, fun s' _ (h : s'.v1 = s.v1) => by rw [h]; rfl⟩
    · exact ⟨rfl, fun s' _ (h : s'.v2 = s.v2) => by rw [h]; rfl⟩
  · simp [resetUnit, hlegal] at ht

theorem command_local (c : Command) : Local c.unit (command c) := by
  cases c with
  | next u => exact nextUnit_local u
  | reset u bytes fail => exact resetUnit_local u bytes fail

/-- Settles O55: taking over one unit leaves the rest. -/
theorem nextTouchesOneUnit : Obligations.NextTouchesOneUnit := by
  intro u s t ht
  rw [(nextUnit_local u s t ht).1]
  cases u <;> simp [State.take]

theorem coreRun_two_iff {M : Host.Core} {s t : M.State} :
    M.run 2 s = .next t ↔ ∃ a, M.step s = .next a ∧ M.step a = .next t := by
  simp only [Host.Core.run]
  cases M.step s with
  | next a => cases hsecond : M.step a <;> simp [hsecond]
  | fault f => simp
  | refused r => simp

/-- Two pending commands run one after the other. -/
theorem run_two_commands_iff {s t : State} {c c' : Command} :
    Host.Core.run core 2 { s with cmds := [c, c'] } = .next t ↔
      ∃ a, command c { s with cmds := [c'] } = .next a ∧ command c' { a with cmds := [] } = .next t := by
  refine coreRun_two_iff.trans (exists_congr fun a => and_congr_right fun hc => ?_)
  have hcmds : a.cmds = [c'] := by
    rw [(command_local c _ _ hc).1]
    exact State.take_cmds _ _ _
  exact Eq.congr_left (step_of_cmds hcmds)

/-- Settles O56: each command finds its unit as it would have been first, and the two units they leave are the same. -/
theorem unitsCommute : Obligations.UnitsCommute := by
  intro c c' s t hne hrun
  have hunits : c.unit ≠ c'.unit := fun h =>
    hne c'.unit ((c.unit_eq_iff _).mp h) ((c'.unit_eq_iff _).mp rfl)
  obtain ⟨a, hc, hc'⟩ := run_two_commands_iff.mp hrun
  obtain ⟨ha, hagain⟩ := command_local c _ _ hc
  obtain ⟨ht, hagain'⟩ := command_local c' _ _ hc'
  have hcfg : a.cfg = s.cfg := ha ▸ State.take_cfg _ _ _
  have hsame : State.SameUnit c'.unit { a with cmds := [] } { s with cmds := [c] } := by
    rw [ha]
    exact State.sameUnit_take_of_ne hunits s a [c] [c'] []
  have hsame' := (State.sameUnit_take_of_ne hunits.symm s t [c'] [c] []).symm
  have heq : { { s with cmds := [c] }.take c'.unit t with cmds := [] }.take c.unit a = t := by
    rw [State.take_take_of_ne hunits s a t [c] [c'], ← ha]
    exact ht.symm
  exact run_two_commands_iff.mpr ⟨_, hagain' { s with cmds := [c] } hcfg.symm hsame,
    (hagain { { s with cmds := [c] }.take c'.unit t with cmds := [] } (State.take_cfg _ _ _) hsame').trans
      (congrArg _ heq)⟩

end Sys2Proof.Machine
end

section
/-!
A delivered value depends on the bytes consumed alone (60_exceptions.md rule R225): an operation that passes over some
bytes and delivers does the same over any source that has those bytes next.
-/
namespace Sys2Proof.Machine

theorem Source.skip_of_agreeBelow {s s' : Source} {n : Nat} (h : s.AgreeBelow s' (s.pos + n)) :
    s'.skip n = { s' with pos := s.pos + n } := by
  rw [Source.skip, h.1]

theorem ByteDec.next_congr {who : ByteInst} {u : ByteDec} {src : Source} {v : Byte}
    (hv : (u.next who).port = some (.value v)) (ha : u.src.AgreeBelow src (u.next who).src.pos) :
    { u with src := src }.next who = { u.next who with src := { src with pos := (u.next who).src.pos } } := by
  cases hf : u.latch.fault with
  | some k => simp [next_faulted hf] at hv
  | none =>
    obtain ⟨hm, z, -, -, -, heq⟩ | hrun := next_ends who hf
    · simp [next_idle hf hm, heq] at hv
    · cases hrun with
      | raised bs k kind passes eq => simp [eq] at hv
      | value bs m c val v bounds passes eq =>
        rw [show u.next who = _ from eq u.src passes] at ha ⊢
        rw [eq src (ha.passes passes), Source.skip_of_agreeBelow ha]
        rfl

theorem V1Unit.next_congr {c : Config} {u t : V1Unit} {src : Source} {v : Word} (ht : u.next c = .next t)
    (hv : t.port = some (.value v)) (ha : u.src.AgreeBelow src t.src.pos) :
    { u with src := src }.next c = .next { t with src := { src with pos := t.src.pos } } := by
  cases hf : u.latch.fault with
  | some k =>
    rw [next_faulted hf, Host.Outcome.next.injEq] at ht
    simp [← ht] at hv
  | none =>
    obtain ⟨hm, z, -, -, -, heq⟩ | hrun := next_ends (c := c) hf
    · rw [next_idle hf hm, heq, Host.Outcome.next.injEq] at ht
      simp [← ht] at hv
    · cases hrun with
      | refused param eq => simp [ht] at eq
      | raised bs k kind passes eq =>
        rw [eq, Host.Outcome.next.injEq] at ht
        simp [← ht] at hv
      | value bs m n val delta vi v bounds varint passes eq =>
        obtain rfl := Host.Outcome.next.inj (ht.symm.trans (eq u.src passes))
        rw [eq src (ha.passes passes), Source.skip_of_agreeBelow ha]
        rfl

theorem V2Unit.next_congr {c : Config} {u : V2Unit} {src : Source} {v : Word}
    (hv : (u.next c).port = some (.value v)) (ha : u.src.AgreeBelow src (u.next c).src.pos) :
    { u with src := src }.next c = { u.next c with src := { src with pos := (u.next c).src.pos } } := by
  cases hf : u.latch.fault with
  | some k => simp [next_faulted hf] at hv
  | none =>
    by_cases hq : u.qcount = 0#10
    · rw [next_empty hf hq] at hv ha ⊢
      rw [next_empty (u := { u with src := src }) hf hq]
      obtain ⟨-, -, heq⟩ | hrun := fetch_ends c u
      · simp [heq] at hv
      · cases hrun with
        | raised bs k info kind finfo passes eq => simp [eq] at hv
        | value bs q qhead qcount v bounds passes eq =>
          rw [show u.fetch c = _ from eq u.src passes] at ha ⊢
          rw [eq src (ha.passes passes), Source.skip_of_agreeBelow ha]
          rfl
    · rw [next_staged hf hq] at ha ⊢
      rw [next_staged (u := { u with src := src }) hf hq, show u.pop.src.pos = src.pos from ha.1.symm]
      rfl

/-- A call of BIT that finds a byte loaded does not look at the source; one that does not delivers what the pipeline has
delivered. -/
theorem BitUnit.next_congr {u : BitUnit} {src : Source} {v : Bool} (hv : u.next.port = some (.value v))
    (ha : u.b.src.AgreeBelow src u.next.b.src.pos) :
    { u with b := { u.b with src := src } }.next =
      { u.next with b := { u.next.b with src := { src with pos := u.next.b.src.pos } } } := by
  by_cases hn : u.nbits = 0#4
  · rw [next_pulls hn] at hv ha ⊢
    rw [next_pulls (u := { u with b := { u.b with src := src } }) hn]
    rcases hport : (u.b.next .bitB).port with _ | (b | _ | ⟨k, info⟩)
    · exact absurd hport (u.b.next_port_ne_none .bitB)
    · rw [takeByte_value (u := { u with b := u.b.next .bitB }) hport] at ha ⊢
      have hpull : { u.b with src := src }.next .bitB = _ := ByteDec.next_congr hport ha
      rw [hpull]
      exact takeByte_value (u := { u with b := { u.b.next .bitB with src := _ } }) hport
    · simp [takeByte_eos (u := { u with b := u.b.next .bitB }) hport] at hv
    · simp [takeByte_err (u := { u with b := u.b.next .bitB }) hport] at hv
  · rw [next_loaded hn] at ha ⊢
    rw [next_loaded (u := { u with b := { u.b with src := src } }) hn, show u.deliver.b.src.pos = src.pos from ha.1.symm]
    rfl

/-- Settles O57: unit by unit. -/
theorem valuesDependOnConsumedBytes : Obligations.ValuesDependOnConsumedBytes := by
  intro s t src
  refine ⟨fun v ht hv ha => ?_, fun v ht hv ha => ?_, fun v ht hv ha => ?_, fun v ht hv ha => ?_⟩
  · rw [nextUnit_byte_eq, Host.Outcome.next.injEq] at ht
    subst ht
    rw [nextUnit_byte_eq, ByteDec.next_congr hv ha]
  · rw [nextUnit_bit_eq, Host.Outcome.next.injEq] at ht
    subst ht
    rw [nextUnit_bit_eq, BitUnit.next_congr hv ha]
  · rw [nextUnit_v1_eq] at ht
    obtain ⟨u, hu, rfl⟩ := State.withV1_eq_next ht
    exact nextUnit_v1_of_next (V1Unit.next_congr hu hv ha)
  · rw [nextUnit_v2_eq, Host.Outcome.next.injEq] at ht
    subst ht
    rw [nextUnit_v2_eq, V2Unit.next_congr hv ha]

end Sys2Proof.Machine
end
